-- ==== Sys2Proof/Word.lean ====
section
/-! DEFINITION. The words of the engine (00_scope.md R7): bytes and nibbles; all values are unsigned. -/

namespace Sys2Proof

/-- A message element, a controller code or a byte of an encoded instruction (30_encoding.md R93, R94). -/
abbrev Byte := BitVec 8

/-- "4 bits, half a byte" (00_scope.md R10). -/
abbrev Nibble := BitVec 4

end Sys2Proof
end

