-- ==== Sys2Proof/Syntax.lean ====
section
/-! DEFINITION. The instructions: one constructor per row of spec/opcode_table.json, and the types of their
operands (30_encoding.md R90 to R99). -/

namespace Sys2Proof

/-- The ten pin positions, TD's PinRole (10_state.md R21). -/
inductive Pin where
  | rs | e | d0 | d1 | d2 | d3 | d4 | d5 | d6 | d7
deriving DecidableEq, Repr, Inhabited

/-- A pin level (30_encoding.md R99): Low = 0, High = 1. -/
inductive Level where
  | low | high
deriving DecidableEq, Repr

/-- TD's Register (20_memory.md R63): Instruction = 0, Data = 1, the `RS` level. -/
inductive Register where
  | instruction | data
deriving DecidableEq, Repr

/-- TD's TransferMode (10_state.md R24): FourBit = 0, EightBit = 1. -/
inductive Mode where
  | fourBit | eightBit
deriving DecidableEq, Repr

/-- The value of a strobe with its width `n` in {4, 8} (42_transfer.md R171; R96: the width is part of the
operand's type). -/
inductive StrobeValue where
  | four (b : Nibble)
  | eight (b : Byte)
deriving DecidableEq, Repr

/-- The six wait constants of 00_scope.md R6; WAIT's operand is always one of them (42_transfer.md R178). -/
inductive WaitTime where
  | pwr | long | short | exec | clear | char
deriving DecidableEq, Repr

/-- The `CFG` operand of INIT (30_encoding.md R92): bit 0 of `present` is RS, bit 1 is E, bit 2+k is Data_k.
Geometry is a natural number (10_state.md R25). -/
structure Cfg where
  present : BitVec 10
  err : Bool
  width : Nat
  height : Nat
deriving DecidableEq, Repr

/-- The steps of INITSEQ, the index of format `INITROM` (30_encoding.md R97). -/
inductive InitStep where
  | k1 | k2 | k3 | k4 | k5 | k6 | k7 | k8 | k9 | k10
deriving DecidableEq, Repr

/-- The formats that hold instructions (30_encoding.md R90; `CFG` is the format of INIT's operand). -/
inductive Format where
  | hcmd | msg8 | lcd8 | initrom | uop
deriving DecidableEq, Repr

/-- The 26 rows of the opcode table (30_encoding.md R107). -/
inductive Instr where
  /-- INIT (R140). -/
  | init (cfg : Cfg)
  /-- WRMSG (R190). -/
  | wrmsg (msg : List Byte)
  /-- DISPOSE (R220). -/
  | dispose
  /-- NL, message element 0x0A (R196). -/
  | nl
  /-- CHAR, any other message element (R197). -/
  | char (ch : Byte)
  /-- CLEARDISPLAY, controller code 0x01 (R193). -/
  | clearDisplay
  /-- NEWLINE, controller code 0xC0 (R194). -/
  | newLine
  /-- INITSEQ.1 to INITSEQ.10 (R149). -/
  | initseq1
  | initseq2
  | initseq3
  | initseq4
  | initseq5
  | initseq6
  | initseq7
  | initseq8
  | initseq9
  | initseq10
  /-- OPEN (R121). -/
  | openOutputs (pins : List Pin)
  /-- SETLEVEL (R124). -/
  | setLevel (p : Pin) (level : Level)
  /-- RELEASE (R127). -/
  | release (p : Pin)
  /-- STROBE (R171). -/
  | strobe (reg : Register) (value : StrobeValue)
  /-- WRITEVALUE (R175). -/
  | writeValue (reg : Register) (v : Byte)
  /-- WAIT (R178). -/
  | wait (t : WaitTime)
  /-- ACQUIRE (R191). -/
  | acquire
  /-- UNLOCK (R192). -/
  | unlock
  /-- INITSEQ (R149). -/
  | initseq
deriving DecidableEq, Repr

/-- The format of an instruction's row (30_encoding.md R107). -/
def Instr.format : Instr → Format
  | .init _ | .wrmsg _ | .dispose => .hcmd
  | .nl | .char _ => .msg8
  | .clearDisplay | .newLine => .lcd8
  | .initseq1 | .initseq2 | .initseq3 | .initseq4 | .initseq5
  | .initseq6 | .initseq7 | .initseq8 | .initseq9 | .initseq10 => .initrom
  | .openOutputs _ | .setLevel _ _ | .release _ | .strobe _ _ | .writeValue _ _ | .wait _
  | .acquire | .unlock | .initseq => .uop

end Sys2Proof
end

