-- ==== Sys2Proof/Config.lean ====
section
/-! DEFINITION. What an implementation fixes: the OPEN parameters of 00_scope.md R5. They stand in a field of
State that no step changes, so that a statement about every state holds for every value of them (log 4). And the one
free value of the model, a constant without a body (log 7). -/

namespace Sys2Proof

/-- `P_EIGHTBIT_STATE` (41_initialize.md R148): what INIT leaves behind after `UnsupportedMode`. -/
inductive EightBitState where
  | keep
  | drop
deriving DecidableEq, Repr

/-- The down-counter's load value for a wait of `us` microseconds at `fClkHz` (10_state.md R34,
70_reset_and_hazards.md R291, 92_eei_decisions.md D2): `ceil(us * F_CLK_HZ / 10^6)`. -/
def timerLoad (fClkHz us : Nat) : Nat := (us * fClkHz + 999999) / 1000000

/-- The least `TIMER_W` (00_scope.md R5): `ceil(log2(T_PWR * F_CLK_HZ / 10^6 + 1))`, the bits of the load value of
`T_PWR`, 15000 microseconds. -/
def timerWidthMin (fClkHz : Nat) : Nat :=
  let load := timerLoad fClkHz 15000
  if load = 0 then 0 else load.log2 + 1

/-- The parameters an implementation chooses (00_scope.md R5). `NDATA` is `dataPinsOf`, `GEOM_W` the width bytes of
`CFG`; `lines`, `lineChars` and `idx` are natural numbers, so `CNT_W` bounds nothing here. -/
structure Params where
  /-- `NCTX`: host operations that may be outstanding at once. -/
  nctx : Nat
  /-- `MAXLEN`: longest message accepted. -/
  maxLen : Nat
  /-- `P_EIGHTBIT_STATE`. -/
  eightBitState : EightBitState
  /-- `F_CLK_HZ`: clock of the hardware realisation; no rule's result depends on it. -/
  fClkHz : Nat
  /-- `TIMER_W`: width of the wait timer in the hardware realisation. -/
  timerW : Nat
deriving DecidableEq, Repr

/-- What 00_scope.md R5 asks of the parameters: `NCTX >= 1`, and a timer wide enough for `T_PWR`. -/
abbrev Params.wf (p : Params) : Prop := 1 ≤ p.nctx ∧ timerWidthMin p.fClkHz ≤ p.timerW

/-- The parameters State.reset carries. DESIGN CHOICE (log 4): the spec leaves all of them open; no statement rests on
these values. The clock is that of 42_transfer.md R178's example, 1 MHz, and the timer the narrowest for it. -/
def Params.default : Params := ⟨2, 255, .keep, 1000000, 14⟩

/-- FREE VALUE (log 7): the pin that a fault names where its cause is a read of `mode`, `width` or `height` on an Absent
driver and no rule says which pin that is. Applied to the length of the trace, so that each such fault has its own. Only
instructions placed from outside come there (log 13): an Absent driver owns no pin (10_state.md R26), and then the fault
names `E` or `RS` (43_message.md R205, 44_dispose.md R222, R223). -/
opaque Config.unnamedPin : Nat → Pin

end Sys2Proof
end

