-- ==== Sys2Proof/WellFormed.lean ====
section
/-! DEFINITION. What an instruction must satisfy for its encoding to hold it. -/

namespace Sys2Proof

/-- The value of `'\n'`, `CH_NL` (00_scope.md R6). -/
def chNl : Byte := 0x0A

/-- INIT's geometry fits the port's `GEOM_W` = 8 bits (00_scope.md R5; log 14); CHAR's element is not the one
that selects NL (30_encoding.md R93); OPEN's list is "without repeats" (40_pinbank.md R121). -/
def Instr.wf : Instr → Bool
  | .init cfg => decide (cfg.width < 256) && decide (cfg.height < 256)
  | .char ch => decide (ch ≠ chNl)
  | .openOutputs pins => decide pins.Nodup
  | .wrmsg _ | .dispose | .nl | .clearDisplay | .newLine
  | .initseq1 | .initseq2 | .initseq3 | .initseq4 | .initseq5
  | .initseq6 | .initseq7 | .initseq8 | .initseq9 | .initseq10
  | .setLevel _ _ | .release _ | .strobe _ _ | .writeValue _ _ | .wait _
  | .acquire | .unlock | .initseq => true

end Sys2Proof
end

