-- ==== Sys2Proof/Decode.lean ====
section
/-! DEFINITION. The decoder, total on any bytes, and the encoder written from the same tables (30_encoding.md
R91 to R99, R107). A format says where the bits live, so the decoder takes it as an argument: the same number is
a different instruction in another format. The table gives each row's first word; how an operand lies in the bytes
after it is this model's (log 10, log 11): the spec gives R92's field order and bit numbers and no byte layout. -/

namespace Sys2Proof

/-- Why bytes are no instruction of a format. -/
inductive DecodeError where
  /-- The bytes end inside an instruction. -/
  | truncated
  /-- `cmd_op = 0b11` (30_encoding.md R100). -/
  | reservedCommand
  /-- `cmd_op` is 2 bits; the byte that carries it has a higher bit set. -/
  | commandHighBits
  /-- `CFG` has 11 bits before the geometry; a higher bit of its second byte is set. -/
  | configHighBits
  /-- A byte that says whether a message element follows is neither 0 nor 1. -/
  | badElementFlag
  /-- A controller code other than 0x01 and 0xC0 (30_encoding.md R94, R103). -/
  | unusedControllerCode
  /-- An `INITROM` index outside 1 to 10 (30_encoding.md R97). -/
  | badInitStep
  /-- A `UOP` number outside 0 to 8 (30_encoding.md R98: "`0x9` to `0xF` are unused"). -/
  | unusedPrimitive
  /-- An operand byte that names no pin position. -/
  | badPin
  /-- OPEN's list repeats a pin (40_pinbank.md R121). -/
  | repeatedPin
  /-- An operand byte that names no level. -/
  | badLevel
  /-- An operand byte that names no register. -/
  | badRegister
  /-- An operand byte that names no strobe width, or a value wider than the width. -/
  | badStrobeValue
  /-- An operand byte that names none of the six wait constants. -/
  | badWaitTime
deriving DecidableEq, Repr

/-! ## Operand bytes -/

/-- Bit numbers of R92 and R41 (92_eei_decisions.md D24): RS 0, E 1, Data_k 2+k. -/
def pinIndex : Pin → Nat
  | .rs => 0 | .e => 1 | .d0 => 2 | .d1 => 3 | .d2 => 4
  | .d3 => 5 | .d4 => 6 | .d5 => 7 | .d6 => 8 | .d7 => 9

def decodePin (b : Byte) : Except DecodeError Pin :=
  match b.toNat with
  | 0 => .ok .rs | 1 => .ok .e | 2 => .ok .d0 | 3 => .ok .d1 | 4 => .ok .d2
  | 5 => .ok .d3 | 6 => .ok .d4 | 7 => .ok .d5 | 8 => .ok .d6 | 9 => .ok .d7
  | _ => .error .badPin

def encodePin (p : Pin) : Byte := BitVec.ofNat 8 (pinIndex p)

/-- A pin list: each pin as its index plus one, then 0. -/
def decodePins : List Byte → Except DecodeError (List Pin × List Byte)
  | [] => .error .truncated
  | b :: rest =>
    if b = 0 then .ok ([], rest)
    else
      match decodePin (b - 1) with
      | .error e => .error e
      | .ok p =>
        match decodePins rest with
        | .error e => .error e
        | .ok (ps, rest') => .ok (p :: ps, rest')

def encodePins : List Pin → List Byte
  | [] => [0]
  | p :: ps => (encodePin p + 1) :: encodePins ps

def decodeLevel (b : Byte) : Except DecodeError Level :=
  if b = 0 then .ok .low else if b = 1 then .ok .high else .error .badLevel

def encodeLevel : Level → Byte
  | .low => 0
  | .high => 1

/-- 30_encoding.md R99: Instruction 0, Data 1. -/
def decodeRegister (b : Byte) : Except DecodeError Register :=
  if b = 0 then .ok .instruction else if b = 1 then .ok .data else .error .badRegister

def encodeRegister : Register → Byte
  | .instruction => 0
  | .data => 1

/-- 30_encoding.md R99 (92_eei_decisions.md D32): the bit of a TransferMode, FourBit 0, EightBit 1. No format has it as
a field (R102). -/
def encodeMode : Mode → BitVec 1
  | .fourBit => 0
  | .eightBit => 1

/-- The TransferMode of a bit (30_encoding.md R99). -/
def decodeMode (b : BitVec 1) : Mode := if b = 0 then .fourBit else .eightBit

/-- Two bytes: 0 for four data pins or 1 for eight, and the value. -/
def decodeStrobeValue (w v : Byte) : Except DecodeError StrobeValue :=
  if w = 0 then
    if v.toNat < 16 then .ok (.four (v.extractLsb' 0 4)) else .error .badStrobeValue
  else if w = 1 then .ok (.eight v)
  else .error .badStrobeValue

def encodeStrobeValue : StrobeValue → List Byte
  | .four b => [0, b.zeroExtend 8]
  | .eight b => [1, b]

/-- The place of a wait constant in 00_scope.md R6's list. -/
def waitIndex : WaitTime → Nat
  | .pwr => 0 | .long => 1 | .short => 2 | .exec => 3 | .clear => 4 | .char => 5

def decodeWaitTime (b : Byte) : Except DecodeError WaitTime :=
  match b.toNat with
  | 0 => .ok .pwr | 1 => .ok .long | 2 => .ok .short
  | 3 => .ok .exec | 4 => .ok .clear | 5 => .ok .char
  | _ => .error .badWaitTime

def encodeWaitTime (t : WaitTime) : Byte := BitVec.ofNat 8 (waitIndex t)

/-- `CFG` in four bytes, R92's fields in R92's order: `present[7:0]`; then `present[9:8]` and `err` in bits
1..0 and 2; then `width`; then `height`. -/
def decodeCfg : List Byte → Except DecodeError (Cfg × List Byte)
  | b0 :: b1 :: w :: h :: rest =>
    if b1.toNat < 8 then
      .ok (⟨b1.extractLsb' 0 2 ++ b0, b1.getLsbD 2, w.toNat, h.toNat⟩, rest)
    else .error .configHighBits
  | _ => .error .truncated

def encodeCfg (c : Cfg) : List Byte :=
  [c.present.extractLsb' 0 8,
   (BitVec.ofBool c.err ++ c.present.extractLsb' 8 2).zeroExtend 8,
   BitVec.ofNat 8 c.width, BitVec.ofNat 8 c.height]

/-- A message: a byte 1 before each element, a byte 0 after the last. The flag stands for the port's `msg_valid`,
`msg_last` and `msg_empty` (10_state.md R41). -/
def decodeMessage : List Byte → Except DecodeError (List Byte × List Byte)
  | [] => .error .truncated
  | [f] => if f = 0 then .ok ([], []) else if f = 1 then .error .truncated else .error .badElementFlag
  | f :: c :: rest =>
    if f = 0 then .ok ([], c :: rest)
    else if f = 1 then
      match decodeMessage rest with
      | .error e => .error e
      | .ok (msg, rest') => .ok (c :: msg, rest')
    else .error .badElementFlag

def encodeMessage : List Byte → List Byte
  | [] => [0]
  | c :: msg => 1 :: c :: encodeMessage msg

/-! ## The five formats -/

/-- `HCMD` (R91): 00 INIT with `CFG`, 01 WRMSG with its elements, 10 DISPOSE, 11 reserved (R100). -/
def decodeHcmd (b : Byte) (rest : List Byte) : Except DecodeError (Instr × List Byte) :=
  match b.toNat with
  | 0 =>
    match decodeCfg rest with
    | .error e => .error e
    | .ok (cfg, rest') => .ok (.init cfg, rest')
  | 1 =>
    match decodeMessage rest with
    | .error e => .error e
    | .ok (msg, rest') => .ok (.wrmsg msg, rest')
  | 2 => .ok (.dispose, rest)
  | 3 => .error .reservedCommand
  | _ => .error .commandHighBits

/-- `MSG8` (R93): a single equality test. -/
def decodeMsg8 (b : Byte) : Instr := if b = chNl then .nl else .char b

/-- `LCD8` (R94). -/
def decodeLcd8 (b : Byte) : Except DecodeError Instr :=
  match b.toNat with
  | 0x01 => .ok .clearDisplay
  | 0xC0 => .ok .newLine
  | _ => .error .unusedControllerCode

/-- `INITROM` (R97): the index k. -/
def decodeInitrom (b : Byte) : Except DecodeError Instr :=
  match b.toNat with
  | 1 => .ok .initseq1 | 2 => .ok .initseq2 | 3 => .ok .initseq3 | 4 => .ok .initseq4
  | 5 => .ok .initseq5 | 6 => .ok .initseq6 | 7 => .ok .initseq7 | 8 => .ok .initseq8
  | 9 => .ok .initseq9 | 10 => .ok .initseq10
  | _ => .error .badInitStep

/-- SETLEVEL's operands: pin, level. -/
def decodeSetLevel : List Byte → Except DecodeError (Instr × List Byte)
  | p :: l :: rest =>
    match decodePin p, decodeLevel l with
    | .ok p, .ok l => .ok (.setLevel p l, rest)
    | .error e, _ => .error e
    | _, .error e => .error e
  | _ => .error .truncated

/-- RELEASE's operand: pin. -/
def decodeRelease : List Byte → Except DecodeError (Instr × List Byte)
  | p :: rest =>
    match decodePin p with
    | .ok p => .ok (.release p, rest)
    | .error e => .error e
  | _ => .error .truncated

/-- STROBE's operands: register, width, value. -/
def decodeStrobe : List Byte → Except DecodeError (Instr × List Byte)
  | r :: w :: v :: rest =>
    match decodeRegister r, decodeStrobeValue w v with
    | .ok r, .ok b => .ok (.strobe r b, rest)
    | .error e, _ => .error e
    | _, .error e => .error e
  | _ => .error .truncated

/-- WRITEVALUE's operands: register, value. -/
def decodeWriteValue : List Byte → Except DecodeError (Instr × List Byte)
  | r :: v :: rest =>
    match decodeRegister r with
    | .ok r => .ok (.writeValue r v, rest)
    | .error e => .error e
  | _ => .error .truncated

/-- WAIT's operand: which of the six constants. -/
def decodeWait : List Byte → Except DecodeError (Instr × List Byte)
  | t :: rest =>
    match decodeWaitTime t with
    | .ok t => .ok (.wait t, rest)
    | .error e => .error e
  | _ => .error .truncated

/-- OPEN's operand: a pin list without repeats (40_pinbank.md R121). -/
def decodeOpen (rest : List Byte) : Except DecodeError (Instr × List Byte) :=
  match decodePins rest with
  | .error e => .error e
  | .ok (ps, rest') => if ps.Nodup then .ok (.openOutputs ps, rest') else .error .repeatedPin

/-- `UOP` (R98). -/
def decodeUop (b : Byte) (rest : List Byte) : Except DecodeError (Instr × List Byte) :=
  match b.toNat with
  | 0 => decodeOpen rest
  | 1 => decodeSetLevel rest
  | 2 => decodeRelease rest
  | 3 => decodeStrobe rest
  | 4 => decodeWriteValue rest
  | 5 => decodeWait rest
  | 6 => .ok (.acquire, rest)
  | 7 => .ok (.unlock, rest)
  | 8 => .ok (.initseq, rest)
  | _ => .error .unusedPrimitive

/-- An instruction that is one byte, with the bytes after it. -/
def withRest (i : Except DecodeError Instr) (rest : List Byte) : Except DecodeError (Instr × List Byte) :=
  match i with
  | .ok i => .ok (i, rest)
  | .error e => .error e

/-- The decoder: the instruction at the head of the bytes, read in a format, and the bytes after it. -/
def decode (f : Format) : List Byte → Except DecodeError (Instr × List Byte)
  | [] => .error .truncated
  | b :: rest =>
    match f with
    | .hcmd => decodeHcmd b rest
    | .msg8 => .ok (decodeMsg8 b, rest)
    | .lcd8 => withRest (decodeLcd8 b) rest
    | .initrom => withRest (decodeInitrom b) rest
    | .uop => decodeUop b rest

/-- The bytes of an instruction, in its own format. -/
def encode : Instr → List Byte
  | .init cfg => 0 :: encodeCfg cfg
  | .wrmsg msg => 1 :: encodeMessage msg
  | .dispose => [2]
  | .nl => [0x0A]
  | .char ch => [ch]
  | .clearDisplay => [0x01]
  | .newLine => [0xC0]
  | .initseq1 => [1]
  | .initseq2 => [2]
  | .initseq3 => [3]
  | .initseq4 => [4]
  | .initseq5 => [5]
  | .initseq6 => [6]
  | .initseq7 => [7]
  | .initseq8 => [8]
  | .initseq9 => [9]
  | .initseq10 => [10]
  | .openOutputs pins => 0 :: encodePins pins
  | .setLevel p l => [1, encodePin p, encodeLevel l]
  | .release p => [2, encodePin p]
  | .strobe r b => 3 :: encodeRegister r :: encodeStrobeValue b
  | .writeValue r v => [4, encodeRegister r, v]
  | .wait t => [5, encodeWaitTime t]
  | .acquire => [6]
  | .unlock => [7]
  | .initseq => [8]

/-! ## The table's words -/

/-- The bytes of a table word, least significant first, and then zeros for the operand bytes. -/
def tableBytes (nbits w : Nat) : List Byte :=
  (List.range ((nbits + 7) / 8)).map (fun i => BitVec.ofNat 8 (w / 256 ^ i)) ++ List.replicate 8 0

/-- The format in which a table word is read. The table numbers the rows of every format from 0, so one byte
stands for up to four rows and the word alone does not say which (30_encoding.md R90: a format is "where the bits
live"). DESIGN CHOICE (log 12): host commands first, then the primitives, INITSEQ.9, the controller code 0xC0, and
every other byte as a message element. A width of at most 2 or 4 bits is read as the format of that width. -/
def tableFormat (nbits w : Nat) : Format :=
  if nbits ≤ 2 then .hcmd
  else if w < 3 then .hcmd
  else if w < 9 then .uop
  else if w = 9 then .initrom
  else if nbits ≤ 4 then .initrom
  else if w = 0xC0 then .lcd8
  else .msg8

/-- The instruction the decoder reads from a table word; none where it refuses. -/
def decodeTableWord (nbits w : Nat) : Option Instr :=
  match decode (tableFormat nbits w) (tableBytes nbits w) with
  | .ok (i, _) => some i
  | .error _ => none

end Sys2Proof
end

