-- ==== Sys2Proof/Machine/State.lean ====
section
/-! DEFINITION. The state of the engine (10_state.md), the reasons a step can stop, and the state after reset. -/

namespace Sys2Proof.Machine

open Sys2Proof

/-- One value for each of the ten pin positions (10_state.md R21, R22). -/
structure PerPin (α : Type) where
  rs : α
  e : α
  d0 : α
  d1 : α
  d2 : α
  d3 : α
  d4 : α
  d5 : α
  d6 : α
  d7 : α
deriving DecidableEq, Repr

/-- A present DriverState (10_state.md R23 to R25): `mode`, `width`, `height` have a value only while
`life = Present`. -/
structure Driver where
  mode : Mode
  width : Nat
  height : Nat
deriving DecidableEq, Repr

/-- The host operations (10_state.md R31). -/
inductive Op where
  | init | wrmsg | dispose
deriving DecidableEq, Repr

/-- The conditions of 60_exceptions.md R234. The two faults name their pin ("name the pin in the model
(`PinNotOwned(p)`) but not on the port": `conditionCode` drops it). -/
inductive Condition where
  | configError | pinUnavailable | pinConfigInvalid | unsupportedMode
  | overrun | overflow
  | pinNotOwned (p : Pin)
  | doubleRelease (p : Pin)
  | initWhilePresent
deriving DecidableEq, Repr

/-- The binary lock (10_state.md R28). -/
inductive Lock where
  | free
  | held (c : Nat)
deriving DecidableEq, Repr

/-- The events of the trace (00_scope.md R9); each stands in the trace with the context that made it. -/
inductive Event where
  | pin (p : Pin) (level : Level)
  | own (p : Pin)
  | disown (p : Pin)
  | wait (us : Nat)
  | evt (code : Condition)
  | done (op : Op)
  | fail (op : Op) (code : Condition)
  | lock (c : Nat)
  | unlock (c : Nat)
deriving DecidableEq, Repr

/-- Sequencer positions (10_state.md R32). `opening` is the spec's `open`, `finish` its `end` (both are words of
Lean). -/
inductive Pos where
  | cfg | opening | seq (k : InitStep) | seqwait (k : InitStep)
  | acq | clear | clearwait | fetch | charwait | unlock | release | finish
deriving DecidableEq, Repr

/-- Where `WriteValue` returns when its `Wait(T_EXEC)` is over: into CLEARDISPLAY before its `Wait(T_CLEAR)`, into
CHAR before its counter update, into NL before its counter updates, or to a plain position. -/
inductive Ret where
  | clear | char | nl | plain (p : Pos)
deriving DecidableEq, Repr

/-- The sequencer position with `execwait`, "which returns to the caller's next position" (10_state.md R32). -/
inductive Pc where
  | pos (p : Pos)
  | execwait (r : Ret)
deriving DecidableEq, Repr

/-- The registers of one context slot (10_state.md R30 to R34). `op = none` is Idle; `len` is `msg.length`;
`wait = some r` is Pending with `r` microseconds still to pass. -/
structure Ctx where
  op : Option Op
  cfg : Cfg
  msg : List Byte
  pc : Pc
  idx : Nat
  lines : Nat
  lineChars : Nat
  wait : Option Nat
deriving DecidableEq, Repr

/-- An Idle slot (10_state.md R40: "Idle, `wait = None`"). The spec gives the other registers of an Idle slot no
value: DESIGN CHOICE (log 9), nothing reads them before an operation sets them. -/
def Ctx.idle : Ctx := ⟨none, ⟨0, false, 0, 0⟩, [], .pos .finish, 0, 1, 0, none⟩

/-- What `Open` returns to its caller when it fails (40_pinbank.md R121). -/
inductive OpenFailure where
  | invalid
  | unavailable
deriving DecidableEq, Repr

/-- The inputs from the platform: its answer to `Open` (40_pinbank.md R122; bit order of R92), and the level each pad
shows when it is newly opened (10_state.md R40 "any value"; log 6). All free. -/
structure Platform where
  unavail : BitVec 10
  invalid : BitVec 10
  padLevel : BitVec 10
deriving DecidableEq, Repr

/-- The bytes of an instruction with the format they are read in. -/
structure Code where
  fmt : Format
  bytes : List Byte
deriving DecidableEq, Repr

/-- What an agent other than the running segment does (60_exceptions.md R256, R257; log 1). -/
inductive Move where
  /-- The host presents a request, an `HCMD` word and its operand (R91). It names no context: "Contexts have no
  identifiers visible to the host" (R256). -/
  | request (bytes : List Byte)
  /-- The scheduler picks context `c` to run its next segment, if it is runnable (R257). -/
  | run (c : Nat)
  /-- `us` microseconds pass (R178). -/
  | tick (us : Nat)
  /-- The wait of context `c` ends, if its time has passed (R178). -/
  | elapse (c : Nat)
  /-- The platform's inputs take new values (R122). -/
  | platform (p : Platform)
  /-- Reset between two segments (70_reset_and_hazards.md R270). -/
  | reset
  /-- Reset inside a segment, after `n` more events of it, or at its end where it makes fewer (R271); between two
  segments it is `reset`. -/
  | resetWithin (n : Nat)
deriving DecidableEq, Repr

/-- The state of the engine. INVENTORY.md lists each field with its rule and reset value. -/
structure State where
  /-- DriverState; `none` is `life = Absent` (R23 to R25). -/
  driver : Option Driver
  /-- `own[p]` (R22). -/
  own : PerPin Bool
  /-- `lvl[p]` (R22); it has a meaning only while `own[p]`. -/
  lvl : PerPin Level
  /-- The lock (R28). -/
  lock : Lock
  /-- The contexts blocked in `Acquire` (R29), rising, without repeats. -/
  waiters : List Nat
  /-- The sticky flag (R35). -/
  faulted : Bool
  /-- The context slots that are not `Ctx.idle`, by slot number, strictly rising (R30). -/
  ctxs : List (Nat × Ctx)
  /-- The trace (R9, R36), oldest event first. -/
  trace : List (Nat × Event)
  /-- What the last `Open` returned, `r` of 41_initialize.md R140; `none` is ok (log 18). -/
  openAnswer : Option OpenFailure
  /-- MODEL'S OWN (log 2): the context whose segment runs. -/
  cur : Nat
  /-- MODEL'S OWN (log 2): a segment is in progress. -/
  midSegment : Bool
  /-- MODEL'S OWN (log 1): what the agents do next. -/
  agenda : List Move
  /-- MODEL'S OWN (log 13): an instruction placed from outside for context `cur`. -/
  issued : Option Code
  /-- Inputs from the platform. -/
  platform : Platform
  /-- The OPEN parameters of R5; no step changes them (log 4). -/
  params : Params
deriving DecidableEq, Repr

/-- Why the machine stops: for no reason. The engine has no trap that stops it (60_exceptions.md R248); what the spec
calls a fault ends an operation and is a next state, `raiseFault` (R241, R242). -/
inductive Fault where
deriving DecidableEq, Repr

/-- Why an instruction has no meaning. -/
inductive Refusal where
  /-- Raised by an arm of `exec` whose instruction is not modelled; no arm does. Safe. -/
  | notModelled (mnemonic : String)
  /-- Raised by `step` when the bytes placed in `issued` are no instruction (30_encoding.md R98, R100). Safe. -/
  | undecodable (e : DecodeError)
deriving DecidableEq, Repr

/-- The state after reset (10_state.md R40, 70_reset_and_hazards.md R270). `lvl` Low, the platform's inputs and the
parameters are DESIGN CHOICE (log 4, log 5, log 22); no statement rests on them. -/
def State.reset : State where
  driver := none
  own := ⟨false, false, false, false, false, false, false, false, false, false⟩
  lvl := ⟨.low, .low, .low, .low, .low, .low, .low, .low, .low, .low⟩
  lock := .free
  waiters := []
  faulted := false
  ctxs := []
  trace := []
  openAnswer := none
  cur := 0
  midSegment := false
  agenda := []
  issued := none
  platform := ⟨0, 0, 0⟩
  params := Params.default

end Sys2Proof.Machine
end

