-- ==== Sys2Proof/Machine/Operands.lean ====
section
/-! DEFINITION. Operand forms: pins and their bits, the role map, mode resolution, the nibble split, the wait
constants and the INITSEQ table. -/

namespace Sys2Proof.Machine

open Sys2Proof

/-! ## Pins -/

def PerPin.get {α : Type} (b : PerPin α) : Pin → α
  | .rs => b.rs | .e => b.e | .d0 => b.d0 | .d1 => b.d1 | .d2 => b.d2
  | .d3 => b.d3 | .d4 => b.d4 | .d5 => b.d5 | .d6 => b.d6 | .d7 => b.d7

def PerPin.set {α : Type} (b : PerPin α) (p : Pin) (x : α) : PerPin α :=
  match p with
  | .rs => { b with rs := x } | .e => { b with e := x } | .d0 => { b with d0 := x }
  | .d1 => { b with d1 := x } | .d2 => { b with d2 := x } | .d3 => { b with d3 := x }
  | .d4 => { b with d4 := x } | .d5 => { b with d5 := x } | .d6 => { b with d6 := x }
  | .d7 => { b with d7 := x }

/-- The same value at every pin. -/
def PerPin.all {α : Type} (x : α) : PerPin α := ⟨x, x, x, x, x, x, x, x, x, x⟩

/-- A port word's bit for a pin: bit 0 RS, bit 1 E, bit 2+k Data_k (30_encoding.md R92, 10_state.md R41). -/
def pinBit (w : BitVec 10) (p : Pin) : Bool := w.getLsbD (pinIndex p)

/-- A bit as a level: 1 High, 0 Low (30_encoding.md R99). -/
def levelOf (b : Bool) : Level := if b then .high else .low

/-- The `RS` level of a register (20_memory.md R63). -/
def rsLevel : Register → Level
  | .data => .high
  | .instruction => .low

/-! ## Transfer mode and the role map -/

/-- `DP[0 .. NDATA(mode)-1]` in index order (10_state.md R27). -/
def dataPinsOf : Mode → List Pin
  | .fourBit => [.d4, .d5, .d6, .d7]
  | .eightBit => [.d0, .d1, .d2, .d3, .d4, .d5, .d6, .d7]

/-- `S = [RS, E, DP[0], ...]` (40_pinbank.md R121, 44_dispose.md R220). -/
def openList (m : Mode) : List Pin := .rs :: .e :: dataPinsOf m

/-- `ResolveMode(present)` (41_initialize.md R143). -/
def resolveMode (present : BitVec 10) : Option Mode :=
  let base := pinBit present .rs && pinBit present .e && pinBit present .d4 && pinBit present .d5
    && pinBit present .d6 && pinBit present .d7
  let low := pinBit present .d0 && pinBit present .d1 && pinBit present .d2 && pinBit present .d3
  if base then if low then some .eightBit else some .fourBit else none

/-! ## Strobe values -/

/-- R95: `v[7:4]`. -/
def hiNibble (v : Byte) : Nibble := v.extractLsb' 4 4

/-- R95: `v[3:0]`. -/
def loNibble (v : Byte) : Nibble := v.extractLsb' 0 4

/-- The levels for `DP[0]`, `DP[1]`, ...: level i is bit i (20_memory.md R67, 30_encoding.md R96). -/
def bitLevels : StrobeValue → List Level
  | .four b => [levelOf (b.getLsbD 0), levelOf (b.getLsbD 1), levelOf (b.getLsbD 2), levelOf (b.getLsbD 3)]
  | .eight b =>
    [levelOf (b.getLsbD 0), levelOf (b.getLsbD 1), levelOf (b.getLsbD 2), levelOf (b.getLsbD 3),
     levelOf (b.getLsbD 4), levelOf (b.getLsbD 5), levelOf (b.getLsbD 6), levelOf (b.getLsbD 7)]

/-- The data pins a strobe uses. Four pins are `DP[0..3]` under the mode (10_state.md R27), so they are unspecified
while there is no mode (R40). DESIGN CHOICE (log 15): eight pins are `Data_0..Data_7` in any mode, since only EightBit
mode has eight; and a strobe of four bits in EightBit mode uses `Data_0..Data_3`, `DP[0..3]` there. 30_encoding.md R104
has INITSEQ only for FourBit mode, and R96 no other strobe of four bits in EightBit mode, but an INIT suspended in
INITSEQ while a DISPOSE ends and another INIT leaves an EightBit driver (`keep`) goes on in EightBit mode. -/
def strobePins (mode : Option Mode) : StrobeValue → Option (List Pin)
  | .eight _ => some (dataPinsOf .eightBit)
  | .four _ => mode.map (fun m => (dataPinsOf m).take 4)

/-! ## Waits and the INITSEQ table -/

/-- The constants of 00_scope.md R6, in microseconds. -/
def waitUs : WaitTime → Nat
  | .pwr => 15000
  | .long => 4100
  | .short => 400
  | .exec => 40
  | .clear => 1640
  | .char => 1000

/-- `NIB[k]` (30_encoding.md R97). -/
def initNibble : InitStep → Nibble
  | .k1 => 0x3 | .k2 => 0x3 | .k3 => 0x3 | .k4 => 0x2 | .k5 => 0x2
  | .k6 => 0x8 | .k7 => 0x0 | .k8 => 0xC | .k9 => 0x0 | .k10 => 0x6

/-- `TW[k]` (30_encoding.md R97). -/
def initWait : InitStep → WaitTime
  | .k1 => .pwr
  | .k2 | .k3 | .k4 => .long
  | .k5 | .k6 | .k7 | .k8 | .k9 | .k10 => .short

/-- The step after `k`; none after step 10. -/
def nextInitStep : InitStep → Option InitStep
  | .k1 => some .k2 | .k2 => some .k3 | .k3 => some .k4 | .k4 => some .k5 | .k5 => some .k6
  | .k6 => some .k7 | .k7 => some .k8 | .k8 => some .k9 | .k9 => some .k10 | .k10 => none

/-- The row of the opcode table that is step `k`. -/
def initInstr : InitStep → Instr
  | .k1 => .initseq1 | .k2 => .initseq2 | .k3 => .initseq3 | .k4 => .initseq4 | .k5 => .initseq5
  | .k6 => .initseq6 | .k7 => .initseq7 | .k8 => .initseq8 | .k9 => .initseq9 | .k10 => .initseq10

/-- `CLEARDISPLAY` (00_scope.md R6, 30_encoding.md R94). -/
def cmdClear : Byte := 0x01

/-- `NEWLINE` (00_scope.md R6, 30_encoding.md R94). -/
def cmdNewLine : Byte := 0xC0

end Sys2Proof.Machine
end

