-- ==== Sys2Proof/Machine/Flags.lean ====
section
/-! DEFINITION. Conditions and warning tests. The engine has no condition codes (10_state.md R35): its only flag is
the sticky `faulted`; the overrun and overflow tests make events (60_exceptions.md R239, R240). -/

namespace Sys2Proof.Machine

open Sys2Proof

/-- The 4-bit codes of 60_exceptions.md R234, as they stand on the ports, where a fault names no pin. -/
def conditionCode : Condition → BitVec 4
  | .configError => 0x1
  | .pinUnavailable => 0x2
  | .pinConfigInvalid => 0x3
  | .unsupportedMode => 0x4
  | .overrun => 0x5
  | .overflow => 0x6
  | .pinNotOwned _ => 0x7
  | .doubleRelease _ => 0x8
  | .initWhilePresent => 0x9

/-- What INIT reports for a failed `Open` (41_initialize.md R145). -/
def openCondition : OpenFailure → Condition
  | .invalid => .pinConfigInvalid
  | .unavailable => .pinUnavailable

/-- The overrun test of a CHAR, an equality (43_message.md R198). -/
def overrunTest (lineChars width : Nat) : Bool := lineChars == width

/-- The overflow test of a CHAR, a strict comparison (43_message.md R199). -/
def overflowTest (lines height : Nat) : Bool := decide (height < lines)

/-- The warnings of a CHAR, overrun first (43_message.md R197). -/
def charWarnings (lineChars width lines height : Nat) : List Condition :=
  (if overrunTest lineChars width then [.overrun] else [])
    ++ (if overflowTest lines height then [.overflow] else [])

end Sys2Proof.Machine
end

