-- ==== Sys2Proof/Machine/Ops.lean ====
section
/-! DEFINITION. The named operations over the state that the meanings share: the context slots, the trace, the pin
bank, waits, completion, and taking a fault. -/

namespace Sys2Proof.Machine

open Sys2Proof

/-! ## Context slots: a canonical list (strictly rising, no `Ctx.idle` listed) -/

/-- The registers of slot `c`; an unlisted slot is Idle. -/
def slotGet : List (Nat × Ctx) → Nat → Ctx
  | [], _ => Ctx.idle
  | (k, x) :: rest, c => if c = k then x else if c < k then Ctx.idle else slotGet rest c

/-- Puts registers in front of a list, unless they are those of an Idle slot. -/
def slotCons (c : Nat) (x : Ctx) (rest : List (Nat × Ctx)) : List (Nat × Ctx) :=
  if x = Ctx.idle then rest else (c, x) :: rest

/-- Writes slot `c` and keeps the canonical form. -/
def slotSet : List (Nat × Ctx) → Nat → Ctx → List (Nat × Ctx)
  | [], c, x => slotCons c x []
  | (k, y) :: rest, c, x =>
    if c = k then slotCons c x rest
    else if c < k then slotCons c x ((k, y) :: rest)
    else (k, y) :: slotSet rest c x

/-- The canonical form: slot numbers strictly rising, no Idle slot listed. -/
abbrev slotsWf (l : List (Nat × Ctx)) : Prop :=
  l.Pairwise (fun a b => a.1 < b.1) ∧ ∀ p ∈ l, p.2 ≠ Ctx.idle

/-- The registers of slot `c`. -/
def State.ctx (s : State) (c : Nat) : Ctx := slotGet s.ctxs c

/-- The registers of the context that runs. -/
def State.me (s : State) : Ctx := s.ctx s.cur

/-- Writes the registers of slot `c`. -/
def State.setCtx (s : State) (c : Nat) (x : Ctx) : State := { s with ctxs := slotSet s.ctxs c x }

/-- Writes the registers of the context that runs. -/
def State.setMe (s : State) (x : Ctx) : State := s.setCtx s.cur x

/-- `pc <- p` (00_scope.md R8). -/
def State.setPc (s : State) (pc : Pc) : State := s.setMe { s.me with pc := pc }

/-- `mode`, where it has a value (10_state.md R24). -/
def State.mode (s : State) : Option Mode := s.driver.map Driver.mode

/-! ## The trace -/

/-- Puts an event of the running context at the end of the trace (00_scope.md R9). -/
def emit (ev : Event) (s : State) : State := { s with trace := s.trace ++ [(s.cur, ev)] }

/-- Puts several events in order. -/
def emitAll (evs : List Event) (s : State) : State := { s with trace := s.trace ++ evs.map (fun ev => (s.cur, ev)) }

/-! ## Results of the parts of an instruction -/

/-- What a part of an operation can raise (00_scope.md R8 `raise`): the two faults of 60_exceptions.md R230 (4), each
with the pin it names (R234). The read of a DriverState register that has no value (10_state.md R40: "treat a read as a
fault, not as zero") raises one of them too, at the pin of `absentPin` or `Config.unnamedPin` (log 7). -/
inductive Raise where
  /-- A write to a pin that is not owned (40_pinbank.md R125). -/
  | pinNotOwned (p : Pin)
  /-- A release of a pin that is not owned (40_pinbank.md R128). -/
  | doubleRelease (p : Pin)
deriving DecidableEq, Repr

/-- How a part of an operation ends: it goes on, or it raises. -/
inductive Res where
  | ok (s : State)
  | raised (r : Raise) (s : State)
deriving DecidableEq, Repr

/-- One part and then the next: "the strobe stops at the first one that raises" (42_transfer.md R171). -/
def Res.andThen (r : Res) (f : State → Res) : Res :=
  match r with
  | .ok s => f s
  | .raised x s => .raised x s

/-! ## Completion and faults -/

/-- A segment ends: another agent may move (20_memory.md R72). -/
def endSegment (s : State) : State := { s with midSegment := false }

/-- The context becomes Idle (60_exceptions.md R249). -/
def becomeIdle (s : State) : State := endSegment (s.setMe Ctx.idle)

/-- `Done(op)`, the last event of an operation (60_exceptions.md R246). -/
def complete (op : Op) (s : State) : State := becomeIdle (emit (.done op) s)

/-- `Fail(op, code)`, the last event of an operation (60_exceptions.md R246). -/
def completeFail (op : Op) (code : Condition) (s : State) : State := becomeIdle (emit (.fail op code) s)

/-- The condition of a fault, with its pin (60_exceptions.md R234, R241, R242). -/
def raiseCondition : Raise → Condition
  | .pinNotOwned p => .pinNotOwned p
  | .doubleRelease p => .doubleRelease p

/-- `lock <- Free`, event `Unlock(c)` (43_message.md R192). -/
def releaseLock (s : State) : State := emit (.unlock s.cur) { s with lock := .free }

/-- The clean-up of a WRMSG that leaves on a fault: the holder runs `Unlock` (43_message.md R204, R192 "never by a
context that does not hold the lock"). -/
def unlockOnFault (s : State) : State :=
  if s.me.op = some .wrmsg ∧ s.lock = .held s.cur then releaseLock s else s

/-- TAKING A FAULT (60_exceptions.md R241, R242, R248): one event, `faulted <- true`, a WRMSG's `Unlock`, and the
completion `Fail(op, code)`; nothing that happened before is undone. A slot that runs no operation has no completion
to make (log 16). -/
def raiseFault (r : Raise) (s : State) : State :=
  let s1 := emit (.evt (raiseCondition r)) { s with faulted := true }
  let s2 := unlockOnFault s1
  match s2.me.op with
  | some op => completeFail op (raiseCondition r) s2
  | none => endSegment s2

/-- A part's result as the outcome of an instruction. -/
def Res.outcome (r : Res) : Host.Outcome State Fault Refusal :=
  match r with
  | .ok s => .next s
  | .raised x s => .next (raiseFault x s)

/-! ## Pin bank -/

/-- `SetLevel(p, L)` (40_pinbank.md R124, R125). -/
def setPinLevel (p : Pin) (l : Level) (s : State) : Res :=
  if s.own.get p then .ok (emit (.pin p l) { s with lvl := s.lvl.set p l })
  else .raised (.pinNotOwned p) s

/-- Several pin writes in order. -/
def setPinLevels : List (Pin × Level) → State → Res
  | [], s => .ok s
  | (p, l) :: rest, s => (setPinLevel p l s).andThen (setPinLevels rest)

/-- `Release(p)` (40_pinbank.md R127, R128). The latch keeps its level, which has no meaning any more (log 23). -/
def releasePin (p : Pin) (s : State) : Res :=
  if s.own.get p then .ok (emit (.disown p) { s with own := s.own.set p false })
  else .raised (.doubleRelease p) s

/-- Several releases in order. -/
def releasePins : List Pin → State → Res
  | [], s => .ok s
  | p :: rest, s => (releasePin p s).andThen (releasePins rest)

/-- The first bad pin of the list, `invalid` before `unavail` on one pin (40_pinbank.md R121). -/
def firstBadPin (pl : Platform) : List Pin → Option OpenFailure
  | [] => none
  | p :: rest =>
    if pinBit pl.invalid p then some .invalid
    else if pinBit pl.unavail p then some .unavailable
    else firstBadPin pl rest

/-- `own[p] <- true`, event `Own(p)`; the pad's level is the platform's (10_state.md R40 "any value"; log 6). -/
def acquirePin (s : State) (p : Pin) : State :=
  emit (.own p) { s with
    own := s.own.set p true
    lvl := s.lvl.set p (levelOf (pinBit s.platform.padLevel p)) }

/-- `Open(S)` (40_pinbank.md R121): all of the list or nothing; its answer is left in `openAnswer`. -/
def openPins (pins : List Pin) (s : State) : State :=
  match firstBadPin s.platform pins with
  | some x => { s with openAnswer := some x }
  | none => pins.foldl acquirePin { s with openAnswer := none }

/-! ## Strobe, WriteValue, Wait -/

/-- The pin that `PinNotOwned` names where a write operation reads `mode`, `width` or `height` of an Absent driver
(10_state.md R40): `E`, whose `SetLevel` is the first of every transfer (43_message.md R205, 44_dispose.md R222), and
where `E` is owned a free pin (log 7). -/
def absentPin (s : State) : Pin := if s.own.get .e then Config.unnamedPin s.trace.length else .e

/-- A write operation that reads `mode`, `width` or `height` of an Absent driver raises `PinNotOwned` (60_exceptions.md
R241: "an operation on an Absent driver"; 93_implementation_defined.md U2; log 7). -/
def raiseAbsent (s : State) : Res := .raised (.pinNotOwned (absentPin s)) s

/-- `Strobe(reg, n, b)` (42_transfer.md R171): E High, RS, data pins ascending, E Low, RS. Which pins four data bits go
to is a read of `mode` (10_state.md R27), after the writes of E and RS; without a mode that read is a fault (R40). -/
def strobeOp (reg : Register) (v : StrobeValue) (s : State) : Res :=
  match strobePins s.mode v with
  | some pins =>
    setPinLevels ((.e, .high) :: (.rs, rsLevel reg) :: pins.zip (bitLevels v)
      ++ [(.e, .low), (.rs, rsLevel reg)]) s
  | none =>
    (setPinLevels [(.e, .high), (.rs, rsLevel reg)] s).andThen raiseAbsent

/-- `Wait(t)` (42_transfer.md R178): the event, `wait <- Pending(t)`, and the segment ends. -/
def waitOp (t : WaitTime) (s : State) : State :=
  endSegment (emit (.wait (waitUs t)) (s.setMe { s.me with wait := some (waitUs t) }))

/-- The strobes of `WriteValue(reg, v)` (42_transfer.md R175): as `mode`, which it reads first, says; without a mode that
read is a fault (10_state.md R40). -/
def writeStrobesOp (reg : Register) (v : Byte) (s : State) : Res :=
  match s.mode with
  | some .fourBit => (strobeOp reg (.four (hiNibble v)) s).andThen (strobeOp reg (.four (loNibble v)))
  | some .eightBit => strobeOp reg (.eight v) s
  | none => raiseAbsent s

/-- `WriteValue(reg, v)` up to its suspension (42_transfer.md R175): its strobes, then `Wait(T_EXEC)` at position
`execwait`, which returns as `ret` says. -/
def writeValueOp (reg : Register) (v : Byte) (ret : Ret) (s : State) : Res :=
  (writeStrobesOp reg v s).andThen (fun s' => .ok (waitOp .exec (s'.setPc (.execwait ret))))

/-- The plain return position of a `WriteValue` called on its own: the position the caller has set. -/
def plainRet : Pc → Ret
  | .pos p => .plain p
  | .execwait r => r

end Sys2Proof.Machine
end

