-- ==== Sys2Proof/Machine/Message.lean ====
section
/-! DEFINITION. WRMSG, ACQUIRE, UNLOCK, CLEARDISPLAY, NEWLINE, NL, CHAR (43_message.md). -/

namespace Sys2Proof.Machine

open Sys2Proof

/-- A slot that has just been given a WRMSG (R190, 10_state.md R31): its first step is `Acquire`. -/
def wrmsgCtx (msg : List Byte) : Ctx := { Ctx.idle with op := some .wrmsg, msg := msg, pc := .pos .acq }

/-- Puts `c` into a rising list without repeats. -/
def insertWaiter (c : Nat) : List Nat → List Nat
  | [] => [c]
  | k :: rest => if c = k then k :: rest else if c < k then c :: k :: rest else k :: insertWaiter c rest

/-- WRMSG (R190): the context holds the message and stands at `Acquire`, which is a scheduling point (R191), so its
first segment ends there. -/
def execWrmsg (msg : List Byte) (s : State) : Host.Outcome State Fault Refusal :=
  .next (endSegment (s.setMe (wrmsgCtx msg)))

/-- ACQUIRE (R191). Free: `lock <- Held(c)`, event `Lock(c)`, and the caller goes on with R190's next step. Held: `c`
joins the waiters and cannot run until the lock is Free. -/
def execAcquire (s : State) : Host.Outcome State Fault Refusal :=
  match s.lock with
  | .free =>
    .next ((emit (.lock s.cur)
      { s with lock := .held s.cur, waiters := s.waiters.filter (fun c => c != s.cur) }).setPc (.pos .clear))
  | .held _ => .next (endSegment { s with waiters := insertWaiter s.cur s.waiters })

/-- UNLOCK (R192). -/
def execUnlock (s : State) : Host.Outcome State Fault Refusal := .next (releaseLock s)

/-- CLEARDISPLAY up to its first suspension (R193): `WriteValue(Instruction, 0x01)`; its `Wait(T_CLEAR)` follows at
the return. -/
def clearDisplayOp (s : State) : Res := writeValueOp .instruction cmdClear .clear s

/-- CLEARDISPLAY (R193). -/
def execClearDisplay (s : State) : Host.Outcome State Fault Refusal := (clearDisplayOp s).outcome

/-- NEWLINE (R194): `WriteValue(Instruction, 0xC0)`, no wait of its own. -/
def execNewLine (s : State) : Host.Outcome State Fault Refusal :=
  (writeValueOp .instruction cmdNewLine (plainRet s.me.pc) s).outcome

/-- NL (R196): NEWLINE; `lines <- lines + 1; lineChars <- 0` follow at the return. -/
def execNl (s : State) : Host.Outcome State Fault Refusal :=
  (writeValueOp .instruction cmdNewLine .nl s).outcome

/-- CHAR up to its suspension (R197): the two warning tests, which read `width` and `height`, and
`WriteValue(Data, ch)`. Without a DriverState those reads are a fault (10_state.md R40; log 8). -/
def charOp (ch : Byte) (s : State) : Res :=
  match s.driver with
  | some d =>
    writeValueOp .data ch .char
      (emitAll ((charWarnings s.me.lineChars d.width s.me.lines d.height).map .evt) s)
  | none => raiseAbsent s

/-- CHAR (R197); `lineChars <- lineChars + 1` and `Wait(T_CHAR)` follow at the return. -/
def execChar (ch : Byte) (s : State) : Host.Outcome State Fault Refusal := (charOp ch s).outcome

end Sys2Proof.Machine
end

