-- ==== Sys2Proof/Machine/Dispose.lean ====
section
/-! DEFINITION. DISPOSE (44_dispose.md). -/

namespace Sys2Proof.Machine

open Sys2Proof

/-- A slot that has just been given a DISPOSE (R220). -/
def disposeCtx : Ctx := { Ctx.idle with op := some .dispose, pc := .pos .clear }

/-- DISPOSE (R220): its first step, CLEARDISPLAY; the position leads on to its wait and to the release segment. -/
def execDispose (s : State) : Host.Outcome State Fault Refusal :=
  (clearDisplayOp (s.setMe disposeCtx)).outcome

/-- The release segment of DISPOSE (R220): every pin of the list once, `life <- Absent`, `Done(DISPOSE)`. With the
driver Absent its first release raises (R223); only if `RS` and `E` were owned would the list read `mode`, and that read
is a fault (10_state.md R40), at a free pin (log 7). -/
def disposeRelease (s : State) : Res :=
  match s.mode with
  | some m =>
    (releasePins (openList m) s).andThen (fun s' => .ok (complete .dispose { s' with driver := none }))
  | none =>
    (releasePins [.rs, .e] s).andThen
      (fun s' => .raised (.doubleRelease (Config.unnamedPin s'.trace.length)) s')

end Sys2Proof.Machine
end

