-- ==== Sys2Proof/Machine/Initialize.lean ====
section
/-! DEFINITION. INIT, INITSEQ and its ten steps (41_initialize.md). -/

namespace Sys2Proof.Machine

open Sys2Proof

/-- Step `k` of INITSEQ (R149): `Strobe(Instruction, 4, NIB[k])` and `Wait(TW[k])` at position `seqwait(k)`.
A step does not test the mode: where races have brought it to EightBit mode, which 30_encoding.md R104 leaves open, it
strobes `Data_0..Data_3` and the sequence goes on (DESIGN CHOICE, log 15). -/
def initStepOp (k : InitStep) (s : State) : Res :=
  (strobeOp .instruction (.four (initNibble k)) s).andThen
    (fun s' => .ok (waitOp (initWait k) (s'.setPc (.pos (.seqwait k)))))

def execInitseq1 (s : State) : Host.Outcome State Fault Refusal := (initStepOp .k1 s).outcome
def execInitseq2 (s : State) : Host.Outcome State Fault Refusal := (initStepOp .k2 s).outcome
def execInitseq3 (s : State) : Host.Outcome State Fault Refusal := (initStepOp .k3 s).outcome
def execInitseq4 (s : State) : Host.Outcome State Fault Refusal := (initStepOp .k4 s).outcome
def execInitseq5 (s : State) : Host.Outcome State Fault Refusal := (initStepOp .k5 s).outcome
def execInitseq6 (s : State) : Host.Outcome State Fault Refusal := (initStepOp .k6 s).outcome
def execInitseq7 (s : State) : Host.Outcome State Fault Refusal := (initStepOp .k7 s).outcome
def execInitseq8 (s : State) : Host.Outcome State Fault Refusal := (initStepOp .k8 s).outcome
def execInitseq9 (s : State) : Host.Outcome State Fault Refusal := (initStepOp .k9 s).outcome
def execInitseq10 (s : State) : Host.Outcome State Fault Refusal := (initStepOp .k10 s).outcome

/-- INITSEQ (R149): its first step; the position `seqwait(1)` leads to the nine others. -/
def execInitseq (s : State) : Host.Outcome State Fault Refusal := (initStepOp .k1 s).outcome

/-- A slot that has just been given an INIT (R140, 10_state.md R31). -/
def initCtx (cfg : Cfg) : Ctx := { Ctx.idle with op := some .init, cfg := cfg, pc := .pos .cfg }

/-- The DriverState INIT creates (R146, R148). -/
def driverOf (m : Mode) (cfg : Cfg) : Driver := ⟨m, cfg.width, cfg.height⟩

/-- INIT after a successful `Open` in EightBit mode (R148). -/
def initEightBit (cfg : Cfg) (s : State) : Res :=
  match s.params.eightBitState with
  | .keep => .ok (completeFail .init .unsupportedMode { s with driver := some (driverOf .eightBit cfg) })
  | .drop =>
    (releasePins (openList .eightBit) s).andThen (fun s' => .ok (completeFail .init .unsupportedMode s'))

/-- INIT from position `open` on: `Open`, and what follows its answer (R140, R145, R146, R148). -/
def initOpenOp (cfg : Cfg) (m : Mode) (s : State) : Res :=
  let s1 := openPins (openList m) s
  match s1.openAnswer with
  | some x => .ok (complete .init (emit (.evt (openCondition x)) s1))
  | none =>
    match m with
    | .eightBit => initEightBit cfg s1
    | .fourBit =>
      .ok ({ s1 with driver := some (driverOf .fourBit cfg) }.setPc (.pos (.seq .k1)))

/-- INIT in the running context (R140, in the order of 60_exceptions.md R247). In FourBit mode the segment goes on
with step 1 of INITSEQ. -/
def initOp (cfg : Cfg) (s : State) : Res :=
  if s.driver.isSome then .ok (completeFail .init .initWhilePresent s)
  else if cfg.err then .ok (complete .init (emit (.evt .configError) s))
  else
    match resolveMode cfg.present with
    | none => .ok (complete .init s)
    | some m => initOpenOp cfg m (s.setPc (.pos .opening))

/-- INIT (R140). -/
def execInit (cfg : Cfg) (s : State) : Host.Outcome State Fault Refusal :=
  (initOp cfg (s.setMe (initCtx cfg))).outcome

end Sys2Proof.Machine
end

