-- ==== Sys2Proof/Machine/PinBank.lean ====
section
/-! DEFINITION. OPEN, SETLEVEL, RELEASE (40_pinbank.md). -/

namespace Sys2Proof.Machine

open Sys2Proof

/-- OPEN (R121): the pins of the list, all or none; the answer is left for the caller, which absorbs it. -/
def execOpenOutputs (pins : List Pin) (s : State) : Host.Outcome State Fault Refusal :=
  .next (openPins pins s)

/-- SETLEVEL (R124); on a pin that is not owned, the fault `PinNotOwned` (R125). -/
def execSetLevel (p : Pin) (l : Level) (s : State) : Host.Outcome State Fault Refusal :=
  (setPinLevel p l s).outcome

/-- RELEASE (R127); on a pin that is not owned, the fault `DoubleRelease` (R128). -/
def execRelease (p : Pin) (s : State) : Host.Outcome State Fault Refusal :=
  (releasePin p s).outcome

end Sys2Proof.Machine
end

