-- ==== Sys2Proof/Machine/Transfer.lean ====
section
/-! DEFINITION. STROBE, WRITEVALUE, WAIT (42_transfer.md). -/

namespace Sys2Proof.Machine

open Sys2Proof

/-- STROBE (R171). -/
def execStrobe (reg : Register) (v : StrobeValue) (s : State) : Host.Outcome State Fault Refusal :=
  (strobeOp reg v s).outcome

/-- WRITEVALUE (R175), up to its `Wait(T_EXEC)`; then the caller's position. -/
def execWriteValue (reg : Register) (v : Byte) (s : State) : Host.Outcome State Fault Refusal :=
  (writeValueOp reg v (plainRet s.me.pc) s).outcome

/-- WAIT (R178). -/
def execWait (t : WaitTime) (s : State) : Host.Outcome State Fault Refusal :=
  .next (waitOp t s)

end Sys2Proof.Machine
end

