-- ==== Sys2Proof/Machine/Dispatch.lean ====
section
/-! DEFINITION. One arm for each instruction. -/

namespace Sys2Proof.Machine

open Sys2Proof

def exec (i : Instr) (s : State) : Host.Outcome State Fault Refusal :=
  match i with
  | .init cfg => Sys2Proof.Machine.execInit cfg s
  | .wrmsg msg => Sys2Proof.Machine.execWrmsg msg s
  | .dispose => Sys2Proof.Machine.execDispose s
  | .nl => Sys2Proof.Machine.execNl s
  | .char ch => Sys2Proof.Machine.execChar ch s
  | .clearDisplay => Sys2Proof.Machine.execClearDisplay s
  | .newLine => Sys2Proof.Machine.execNewLine s
  | .initseq1 => Sys2Proof.Machine.execInitseq1 s
  | .initseq2 => Sys2Proof.Machine.execInitseq2 s
  | .initseq3 => Sys2Proof.Machine.execInitseq3 s
  | .initseq4 => Sys2Proof.Machine.execInitseq4 s
  | .initseq5 => Sys2Proof.Machine.execInitseq5 s
  | .initseq6 => Sys2Proof.Machine.execInitseq6 s
  | .initseq7 => Sys2Proof.Machine.execInitseq7 s
  | .initseq8 => Sys2Proof.Machine.execInitseq8 s
  | .initseq9 => Sys2Proof.Machine.execInitseq9 s
  | .initseq10 => Sys2Proof.Machine.execInitseq10 s
  | .openOutputs pins => Sys2Proof.Machine.execOpenOutputs pins s
  | .setLevel p l => Sys2Proof.Machine.execSetLevel p l s
  | .release p => Sys2Proof.Machine.execRelease p s
  | .strobe reg v => Sys2Proof.Machine.execStrobe reg v s
  | .writeValue reg v => Sys2Proof.Machine.execWriteValue reg v s
  | .wait t => Sys2Proof.Machine.execWait t s
  | .acquire => Sys2Proof.Machine.execAcquire s
  | .unlock => Sys2Proof.Machine.execUnlock s
  | .initseq => Sys2Proof.Machine.execInitseq s

end Sys2Proof.Machine
end

