-- ==== Sys2Proof/Machine/Sequencer.lean ====
section
/-! DEFINITION. The sequencer: what the running context does next at each position (10_state.md R32), and the moves
of the other agents (60_exceptions.md R256, R257). -/

namespace Sys2Proof.Machine

open Sys2Proof

/-! ## The running context -/

/-- What the running context does next: an instruction on a state in which the sequencer has moved on, or a step of
the sequencer itself. -/
inductive Action where
  | instr (s : State) (i : Instr)
  | own (r : Res)
deriving DecidableEq, Repr

/-- The return from a `WriteValue` whose `Wait(T_EXEC)` is over (10_state.md R32 `execwait`): CLEARDISPLAY goes on with
`Wait(T_CLEAR)` (43_message.md R193), CHAR with `lineChars <- lineChars + 1` and `Wait(T_CHAR)` (R197), NL with its
counter updates (R196). -/
def returnAction (r : Ret) (s : State) : Action :=
  match r with
  | .clear => .instr (s.setPc (.pos .clearwait)) (.wait .clear)
  | .char =>
    .instr (s.setMe { s.me with lineChars := s.me.lineChars + 1, pc := .pos .charwait }) (.wait .char)
  | .nl => .own (.ok (s.setMe { s.me with lines := s.me.lines + 1, lineChars := 0, pc := .pos .fetch }))
  | .plain p => .own (.ok (s.setPc (.pos p)))

/-- Fetch (43_message.md R195): element `idx` is read and `idx` incremented; at `idx = len` the iteration ends. -/
def fetchAction (s : State) : Action :=
  match s.me.msg[s.me.idx]? with
  | some c => .instr (s.setMe { s.me with idx := s.me.idx + 1 }) (decodeMsg8 c)
  | none => .own (.ok (s.setPc (.pos .unlock)))

/-- CLEARDISPLAY is over: DISPOSE goes on to its release segment (44_dispose.md R220), WRMSG sets its counters and
iterates (43_message.md R190 step 3). -/
def afterClear (op : Op) (s : State) : State :=
  match op with
  | .dispose => s.setPc (.pos .release)
  | .init | .wrmsg => s.setMe { s.me with lines := 1, lineChars := 0, idx := 0, pc := .pos .fetch }

/-- What a context running `op` does at a position. -/
def positionAction (op : Op) (p : Pos) (s : State) : Action :=
  match p with
  | .cfg => .instr s (.init s.me.cfg)
  | .opening =>
    match resolveMode s.me.cfg.present with
    | some m => .own (initOpenOp s.me.cfg m s)
    | none => .own (.ok (complete .init s))
  | .seq k => .instr s (initInstr k)
  | .seqwait k =>
    match nextInitStep k with
    | some k' => .instr (s.setPc (.pos (.seq k'))) (initInstr k')
    | none => .own (.ok (s.setPc (.pos .finish)))
  | .acq => .instr s .acquire
  | .clear =>
    match op with
    | .dispose => .instr s .dispose
    | .init | .wrmsg => .instr s .clearDisplay
  | .clearwait => .own (.ok (afterClear op s))
  | .fetch => fetchAction s
  | .charwait => .own (.ok (s.setPc (.pos .fetch)))
  | .unlock => .instr (s.setPc (.pos .finish)) .unlock
  | .release => .own (disposeRelease s)
  | .finish => .own (.ok (complete op s))

/-- What the running context does next. A slot that runs no operation has nothing to do. -/
def nextAction (s : State) : Action :=
  match s.me.op with
  | none => .own (.ok (endSegment s))
  | some op =>
    match s.me.pc with
    | .execwait r => returnAction r s
    | .pos p => positionAction op p s

/-- One step of the running context. -/
def runAction : Action → Host.Outcome State Fault Refusal
  | .instr s i => exec i s
  | .own r => r.outcome

/-- An instruction placed from outside runs in the current context, ahead of what its position says (log 13). -/
def runIssued (code : Code) (s : State) : Host.Outcome State Fault Refusal :=
  match decode code.fmt code.bytes with
  | .ok (i, _) => exec i { s with issued := none, midSegment := true }
  | .error e => .refused (.undecodable e)

/-! ## The other agents -/

/-- A context can run (60_exceptions.md R257): not Idle, no pending wait, and not blocked in `Acquire`. -/
def runnable (s : State) (c : Nat) : Bool :=
  (s.ctx c).op.isSome && (s.ctx c).wait.isNone && (!s.waiters.contains c || s.lock == .free)

/-- The slot that takes the next request: an Idle one of the NCTX slots (10_state.md R30, R41 `cmd_ready`), the lowest
(log 24). -/
def freeSlot (s : State) : Option Nat := (List.range s.params.nctx).find? (fun c => (s.ctx c).op.isNone)

/-- The registers a slot holds when it has accepted a request (10_state.md R31). A message longer than MAXLEN is not
accepted (00_scope.md R5). -/
def requestCtx (s : State) (i : Instr) : Option Ctx :=
  match i with
  | .init cfg => some (initCtx cfg)
  | .wrmsg msg => if msg.length ≤ s.params.maxLen then some (wrmsgCtx msg) else none
  | .dispose => some disposeCtx
  | _ => none

/-- The request that bytes on the host port make: the registers for the slot, or none where it is not accepted (the
reserved `cmd_op`, 30_encoding.md R100). -/
def requested (s : State) (bytes : List Byte) : Option Ctx :=
  match decode .hcmd bytes with
  | .ok (i, _) => requestCtx s i
  | .error _ => none

/-- `us` microseconds pass on every wait timer (10_state.md R34). -/
def tickSlots (us : Nat) (l : List (Nat × Ctx)) : List (Nat × Ctx) :=
  l.map (fun p => (p.1, { p.2 with wait := p.2.wait.map (fun r => r - us) }))

/-- The wait of context `c` ends, no earlier than its time (42_transfer.md R178). -/
def elapse (c : Nat) (s : State) : State :=
  if (s.ctx c).wait = some 0 then s.setCtx c { s.ctx c with wait := none } else s

/-- Reset (70_reset_and_hazards.md R270, R271): every register at its reset value. The history of events stays, and
so does what is outside the engine: the agents' further moves, the platform's inputs, the parameters (log 21). -/
def resetTo (s : State) : State :=
  { State.reset with trace := s.trace, agenda := s.agenda, platform := s.platform, params := s.params }

/-- A step inside a segment that reset cuts after `n` more events, where the step alone is `o` (R271; log 21). A step
that makes fewer goes on, and what is left of `n` falls in the segment's next step; a segment that ends sooner is cut at
its end. -/
def resetCut (n : Nat) (rest : List Move) (s : State) (o : Host.Outcome State Fault Refusal) :
    Host.Outcome State Fault Refusal :=
  match o with
  | .next t =>
    let made := t.trace.length - s.trace.length
    if made < n && t.midSegment then .next { t with agenda := .resetWithin (n - made) :: rest }
    else .next (resetTo { s with
      agenda := rest, trace := s.trace ++ (t.trace.drop s.trace.length).take n })
  | .fault f => .fault f
  | .refused r => .refused r

/-- The next move where the agenda gives none (log 3): the runnable context with the lowest number, else the first
pending wait's time passes, else that wait ends. -/
def defaultMove (s : State) : Option Move :=
  match s.ctxs.find? (fun p => runnable s p.1) with
  | some p => some (.run p.1)
  | none =>
    match s.ctxs.find? (fun p => p.2.op.isSome && p.2.wait.isSome) with
    | some (c, x) => if x.wait = some 0 then some (.elapse c) else x.wait.map Move.tick
    | none => none

/-- The effect of a move, between two segments. A move that is not enabled has none. A request that no slot is Idle for
is kept waiting by `nextMove`. -/
def moveEffect (m : Move) (s : State) : State :=
  match m with
  | .request bytes =>
    match requested s bytes, freeSlot s with
    | some x, some c => s.setCtx c x
    | _, _ => s
  | .run c => if runnable s c then { s with cur := c, midSegment := true } else s
  | .tick us => { s with ctxs := tickSlots us s.ctxs }
  | .elapse c => elapse c s
  | .platform p => { s with platform := p }
  | .reset | .resetWithin _ => resetTo s

/-- A request that would be accepted, but no slot is Idle: the host keeps presenting it (10_state.md R41 `cmd_ready`;
log 24). -/
def requestWaits (s : State) (m : Move) : Bool :=
  match m with
  | .request bytes => (requested s bytes).isSome && (freeSlot s).isNone
  | _ => false

/-- The default move, taken while the agenda gives no move that can be taken; the agenda stays. -/
def idleMove (s : State) : State :=
  match defaultMove s with
  | some m => moveEffect m s
  | none => s

/-- The next move between two segments. -/
def nextMove (s : State) : State :=
  match s.agenda with
  | [] => idleMove s
  | m :: rest => if requestWaits s m then idleMove s else moveEffect m { s with agenda := rest }

end Sys2Proof.Machine
end

