-- ==== Sys2Proof/Machine/Step.lean ====
section
/-! DEFINITION. One step of the engine: an instruction placed from outside; else, inside a segment, what the running
context does next (20_memory.md R72: nobody else moves), unless reset falls there; else the next move of an agent. -/

namespace Sys2Proof.Machine

open Sys2Proof

/-- Inside a segment. -/
def segmentStep (s : State) : Host.Outcome State Fault Refusal :=
  match s.agenda with
  | .resetWithin n :: rest => resetCut n rest s (runAction (nextAction s))
  | _ => runAction (nextAction s)

/-- One step. -/
def step (s : State) : Host.Outcome State Fault Refusal :=
  match s.issued with
  | some code => runIssued code s
  | none => if s.midSegment then segmentStep s else .next (nextMove s)

/-- `s` with a table word's instruction placed for the current context, so that the next step runs it (log 13). -/
def State.withFetchWord (s : State) (nbits w : Nat) : State :=
  { s with issued := some ⟨tableFormat nbits w, tableBytes nbits w⟩ }

end Sys2Proof.Machine
end

