-- ==== Sys2Proof/Machine/Ports.lean ====
section
/-! DEFINITION. What the outside sees: the ports of 10_state.md R41 as functions of the state, and the controller's
view of a transfer (20_memory.md R66). Both are derived; nothing in the engine reads them. -/

namespace Sys2Proof.Machine

open Sys2Proof

/-- A level as a port bit (30_encoding.md R99). -/
def levelBit : Level → Bool
  | .low => false
  | .high => true

/-- Eight data-pin values as a port word, `d_o[k]` for `Data_k` (10_state.md R41). -/
def dataWord (f : Pin → Bool) : BitVec 8 :=
  BitVec.ofBool (f .d7) ++ BitVec.ofBool (f .d6) ++ BitVec.ofBool (f .d5) ++ BitVec.ofBool (f .d4)
    ++ BitVec.ofBool (f .d3) ++ BitVec.ofBool (f .d2) ++ BitVec.ofBool (f .d1) ++ BitVec.ofBool (f .d0)

/-- The state outputs of R41. A pin whose enable is 0 is high-impedance and its level means nothing. -/
structure Outputs where
  rsO : Bool
  eO : Bool
  dO : BitVec 8
  rsOe : Bool
  eOe : Bool
  dOe : BitVec 8
  faulted : Bool
deriving DecidableEq, Repr

/-- The output ports (10_state.md R41). -/
def outputs (s : State) : Outputs where
  rsO := levelBit s.lvl.rs
  eO := levelBit s.lvl.e
  dO := dataWord (fun p => levelBit (s.lvl.get p))
  rsOe := s.own.rs
  eOe := s.own.e
  dOe := dataWord s.own.get
  faulted := s.faulted

/-- `cmd_ready`: a context slot is Idle and takes the request (10_state.md R41, R30). -/
def cmdReady (s : State) : Bool := (freeSlot s).isSome

/-- `done`: the event is the completion `Done(op)` (10_state.md R41). -/
def doneOf : Event → Bool
  | .done _ => true
  | _ => false

/-- The value the wait timer is loaded with, in the `TIMER_W` bits of the hardware realisation (10_state.md R34,
00_scope.md R5). Well-formed parameters hold every wait without loss (Laws/Timer.lean). -/
def timerCounter (p : Params) (t : WaitTime) : BitVec p.timerW :=
  BitVec.ofNat p.timerW (timerLoad p.fClkHz (waitUs t))

/-- `fail_code` of an event that is a failure (10_state.md R41, 60_exceptions.md R234). -/
def failCode : Event → Option (BitVec 4)
  | .fail _ code => some (conditionCode code)
  | _ => none

/-- `evt_code` of an event on the event channel (60_exceptions.md R233). -/
def evtCode : Event → Option (BitVec 4)
  | .evt code => some (conditionCode code)
  | _ => none

/-- One write as the controller sees it, `MemWrite(CTL.reg, n, b)`: `bits[i]` is `b[i]`. -/
structure ControllerWrite where
  reg : Register
  bits : List Level
deriving DecidableEq, Repr

/-- The register an `RS` level selects (20_memory.md R63). -/
def selectedRegister : Level → Register
  | .high => .data
  | .low => .instruction

/-- What one event is to the controller, with the levels before it and `DP[0..]` (20_memory.md R66): a falling edge
of E is one write of the levels that stand; a `Pin(E, Low)` with E already Low is none. -/
def controllerEvent (pins : List Pin) (lvl : PerPin Level) : Event → Option ControllerWrite
  | .pin .e .low =>
    if lvl.e = .high then some ⟨selectedRegister lvl.rs, pins.map lvl.get⟩ else none
  | _ => none

/-- The level latches after an event (10_state.md R22: "the level last written by `SetLevel`"). -/
def latchEvent (lvl : PerPin Level) : Event → PerPin Level
  | .pin p l => lvl.set p l
  | _ => lvl

/-- The level latches after events. -/
def latchAfter (evs : List Event) (lvl : PerPin Level) : PerPin Level := evs.foldl latchEvent lvl

/-- What the controller sees of events made while `DP` is `pins` (20_memory.md R66). -/
def controllerView (pins : List Pin) : PerPin Level → List Event → List ControllerWrite
  | _, [] => []
  | lvl, ev :: rest =>
    (controllerEvent pins lvl ev).toList ++ controllerView pins (latchEvent lvl ev) rest

end Sys2Proof.Machine
end

