-- ==== Sys2Proof/Safety.lean ====
section
/-! DEFINITION. The words claims are stated in: the events the rules give each operation, the states after them,
and the invariant of the engine. -/

namespace Sys2Proof.Safety

open Sys2Proof Sys2Proof.Machine

/-! ## Events the rules give -/

/-- The events of `Strobe(reg, n, b)` on `DP` = `pins` (42_transfer.md R171, R172). -/
def strobeEvents (reg : Register) (pins : List Pin) (levels : List Level) : List Event :=
  [.pin .e .high, .pin .rs (rsLevel reg)] ++ List.zipWith .pin pins levels
    ++ [.pin .e .low, .pin .rs (rsLevel reg)]

/-- The strobes of `WriteValue(reg, v)` (42_transfer.md R175): two of four bits, high nibble first, or one of eight. -/
def writeStrobes (m : Mode) (reg : Register) (v : Byte) : List Event :=
  match m with
  | .fourBit =>
    strobeEvents reg [.d4, .d5, .d6, .d7] (bitLevels (.four (v.extractLsb' 4 4)))
      ++ strobeEvents reg [.d4, .d5, .d6, .d7] (bitLevels (.four (v.extractLsb' 0 4)))
  | .eightBit => strobeEvents reg [.d0, .d1, .d2, .d3, .d4, .d5, .d6, .d7] (bitLevels (.eight v))

/-- All the events of `WriteValue(reg, v)` (42_transfer.md R175). -/
def writeEvents (m : Mode) (reg : Register) (v : Byte) : List Event :=
  writeStrobes m reg v ++ [.wait 40]

/-- All the events of CLEARDISPLAY (43_message.md R193). -/
def clearEvents (m : Mode) : List Event := writeEvents m .instruction 0x01 ++ [.wait 1640]

/-- The events of one message element with the counters before it (43_message.md R196, R197): its events, and the
counters after it. -/
def elementEvents (d : Driver) (lines lineChars : Nat) (c : Byte) : List Event :=
  if c = 0x0A then writeEvents d.mode .instruction 0xC0
  else
    (if lineChars = d.width then [.evt .overrun] else [])
      ++ (if d.height < lines then [.evt .overflow] else [])
      ++ writeEvents d.mode .data c ++ [.wait 1000]

/-- `lines` after an element (43_message.md R196, R197). -/
def linesAfter (lines : Nat) (c : Byte) : Nat := if c = 0x0A then lines + 1 else lines

/-- `lineChars` after an element (43_message.md R196, R197). -/
def lineCharsAfter (lineChars : Nat) (c : Byte) : Nat := if c = 0x0A then 0 else lineChars + 1

/-- The events of the elements of a message from given counters (43_message.md R190 step 3). -/
def elementsEvents (d : Driver) : Nat → Nat → List Byte → List Event
  | _, _, [] => []
  | lines, lineChars, c :: msg =>
    elementEvents d lines lineChars c
      ++ elementsEvents d (linesAfter lines c) (lineCharsAfter lineChars c) msg

/-- The whole trace of a WRMSG in context `c` (43_message.md R190). -/
def messageEvents (d : Driver) (c : Nat) (msg : List Byte) : List Event :=
  [.lock c] ++ clearEvents d.mode ++ elementsEvents d 1 0 msg ++ [.unlock c, .done .wrmsg]

/-- INITSEQ's table (30_encoding.md R97): nibbles and waits of steps 1 to 10. -/
def initTable : List (Nibble × Nat) :=
  [(0x3, 15000), (0x3, 4100), (0x3, 4100), (0x2, 4100), (0x2, 400),
   (0x8, 400), (0x0, 400), (0xC, 400), (0x0, 400), (0x6, 400)]

/-- All the events of INITSEQ in FourBit mode (41_initialize.md R149, R150). -/
def initSeqEvents : List Event :=
  initTable.flatMap (fun e =>
    strobeEvents .instruction [.d4, .d5, .d6, .d7] (bitLevels (.four e.1)) ++ [.wait e.2])

/-- The events of acquiring and of releasing a list of pins (40_pinbank.md R121, R127). -/
def ownEvents (pins : List Pin) : List Event := pins.map .own
def disownEvents (pins : List Pin) : List Event := pins.map .disown

/-! ## States after events -/

/-- `s` after its running context made events and nothing else changed but the latches they write. -/
def afterEvents (evs : List Event) (s : State) : State :=
  { s with trace := s.trace ++ evs.map (fun ev => (s.cur, ev)), lvl := latchAfter evs s.lvl }

/-- `s` with the running context suspended for `us` microseconds at a position. -/
def suspended (us : Nat) (pc : Pc) (s : State) : State :=
  { s with
    ctxs := slotSet s.ctxs s.cur { slotGet s.ctxs s.cur with pc := pc, wait := some us }
    midSegment := false }

/-- `s` after its running context took a fault with a condition (60_exceptions.md R241, R242; 43_message.md R204):
the event, the sticky flag, a holder's `Unlock`, and the completion of the operation the slot runs. -/
def afterFault (code : Condition) (s : State) : State :=
  let x := slotGet s.ctxs s.cur
  let unlocks : Bool := x.op == some .wrmsg && s.lock == .held s.cur
  { s with
    faulted := true
    lock := if unlocks then .free else s.lock
    trace := s.trace ++ [(s.cur, .evt code)]
      ++ (if unlocks then [(s.cur, Event.unlock s.cur)] else [])
      ++ (match x.op with
          | some op => [(s.cur, Event.fail op code)]
          | none => [])
    ctxs := match x.op with
      | some _ => slotSet s.ctxs s.cur Ctx.idle
      | none => s.ctxs
    midSegment := false }

/-- `s` after its running context completed (60_exceptions.md R246): last events, slot Idle, segment over. -/
def afterCompletion (evs : List Event) (s : State) : State :=
  { afterEvents evs s with ctxs := slotSet s.ctxs s.cur Ctx.idle, midSegment := false }

/-- `s` with the registers of the running context replaced. -/
def withSlot (x : Ctx) (s : State) : State := { s with ctxs := slotSet s.ctxs s.cur x }

/-! ## Premises -/

/-- Every pin of a list is owned. -/
def ownsAll (s : State) (pins : List Pin) : Prop := ∀ p ∈ pins, s.own.get p = true

/-- Of pin events to be made, `pre` are on owned pins and the next one is on pin `p`, which is not owned. -/
def stopsAfter (s : State) (evs pre : List Event) (p : Pin) : Prop :=
  ∃ l post, evs = pre ++ .pin p l :: post ∧ (∀ q l', Event.pin q l' ∈ pre → s.own.get q = true) ∧
    s.own.get p = false

/-- A segment of operation `op` is in progress in the running context, and reset does not fall in it. -/
def inSegment (op : Op) (s : State) : Prop :=
  s.issued = none ∧ s.midSegment = true ∧ (∀ n rest, s.agenda ≠ .resetWithin n :: rest) ∧
    (slotGet s.ctxs s.cur).op = some op

/-- Between two segments, with `m` the agenda's next move. -/
def nextMoveIs (m : Move) (rest : List Move) (s : State) : Prop :=
  s.issued = none ∧ s.midSegment = false ∧ s.agenda = m :: rest

/-! ## The invariant -/

/-- The pins a mode owns (10_state.md R26, R27). -/
def ownedIn (m : Mode) (p : Pin) : Bool :=
  match m with
  | .eightBit => true
  | .fourBit => [Pin.rs, .e, .d4, .d5, .d6, .d7].contains p

/-- The positions of each operation (10_state.md R32). -/
def positionOk : Op → Pc → Bool
  | .init, .pos .cfg | .init, .pos (.seq _) | .init, .pos (.seqwait _) | .init, .pos .finish => true
  | .wrmsg, .pos .acq | .wrmsg, .pos .clear | .wrmsg, .pos .clearwait | .wrmsg, .pos .fetch
  | .wrmsg, .pos .charwait | .wrmsg, .pos .unlock | .wrmsg, .pos .finish
  | .wrmsg, .execwait .clear | .wrmsg, .execwait .char | .wrmsg, .execwait .nl => true
  | .dispose, .pos .clear | .dispose, .pos .clearwait | .dispose, .pos .release
  | .dispose, .execwait .clear => true
  | _, _ => false

/-- Between `Lock` and `Unlock`: every position of a WRMSG but `acq` and `end` (43_message.md R190). -/
def holdsLock (x : Ctx) : Bool :=
  x.op == some .wrmsg && x.pc != .pos .acq && x.pc != .pos .finish

/-- The elements a WRMSG context has handled: the one it is writing is not handled before its return. -/
def handled (x : Ctx) : List Byte :=
  if x.pc = .execwait .char ∨ x.pc = .execwait .nl then x.msg.take (x.idx - 1) else x.msg.take x.idx

/-- A WRMSG context is in its iteration. -/
def iterating (x : Ctx) : Bool :=
  x.op == some .wrmsg &&
    (x.pc == .pos .fetch || x.pc == .pos .charwait || x.pc == .pos .unlock
      || x.pc == .execwait .char || x.pc == .execwait .nl)

/-- The invariant of the engine: it holds in every state that requests, scheduling, time, the platform and reset can
bring about (10_state.md R26, R28 to R33; 20_memory.md R61, R78). -/
structure Inv (s : State) : Prop where
  /-- The context table is in canonical form. -/
  slots : slotsWf s.ctxs
  /-- No instruction is placed from outside. -/
  notIssued : s.issued = none
  /-- Only the NCTX slots run operations (R30). -/
  bounded : ∀ c, (slotGet s.ctxs c).op.isSome = true → c < s.params.nctx
  /-- The DriverState invariant (R26): Present owns exactly the pins of its mode, Absent none. -/
  pins : ∀ p, s.own.get p = match s.driver with | some d => ownedIn d.mode p | none => false
  /-- A context stands at a position of its operation (R32). -/
  positions : ∀ c op, (slotGet s.ctxs c).op = some op → positionOk op (slotGet s.ctxs c).pc = true
  /-- The lock is held by exactly the WRMSG context between its `Lock` and `Unlock` (R28, R78). -/
  lock : ∀ c, s.lock = .held c ↔ holdsLock (slotGet s.ctxs c) = true
  /-- The waiters are contexts in `Acquire` (R29), rising, without repeats. -/
  waiters : ∀ c ∈ s.waiters, (slotGet s.ctxs c).op = some .wrmsg ∧ (slotGet s.ctxs c).pc = .pos .acq
  waitersRising : s.waiters.Pairwise (· < ·)
  /-- Position `end` is passed inside the last segment, a WRMSG's after its `Unlock` (R72, R246). -/
  ending : ∀ c op, (slotGet s.ctxs c).op = some op → (slotGet s.ctxs c).pc = .pos .finish →
    s.midSegment = true ∧ s.cur = c ∧ (op = .wrmsg → s.lock = .free)
  /-- No element beyond the message is read (20_memory.md R61). -/
  index : ∀ c, (slotGet s.ctxs c).idx ≤ (slotGet s.ctxs c).msg.length

/-- `lines` of R200: one plus the number of 0x0A elements so far. -/
def linesOf (l : List Byte) : Nat := 1 + l.count 0x0A

/-- `lineChars` of R200: the number of other elements since the last 0x0A. -/
def lineCharsOf (l : List Byte) : Nat := (l.reverse.takeWhile (fun c => c ≠ 0x0A)).length

/-- The element a context is writing selects the return it stands at. -/
def writingOk (x : Ctx) : Prop :=
  x.pc = .execwait .char ∨ x.pc = .execwait .nl →
    1 ≤ x.idx ∧ ∃ ch, x.msg[x.idx - 1]? = some ch ∧ (ch = 0x0A ↔ x.pc = .execwait .nl)

/-- The counters of every WRMSG in its iteration are R200's function of the elements handled. -/
def CountersInv (s : State) : Prop :=
  ∀ c, iterating (slotGet s.ctxs c) = true →
    (slotGet s.ctxs c).lines = linesOf (handled (slotGet s.ctxs c)) ∧
    (slotGet s.ctxs c).lineChars = lineCharsOf (handled (slotGet s.ctxs c)) ∧
    writingOk (slotGet s.ctxs c)

/-- No wait is pending in an Idle slot (10_state.md R40), nor in the context whose segment runs (R34: "the context cannot
run while it is pending"). -/
structure WaitInv (s : State) : Prop where
  idle : ∀ c, (slotGet s.ctxs c).op = none → (slotGet s.ctxs c).wait = none
  running : s.midSegment = true → (slotGet s.ctxs s.cur).wait = none

/-! ## Schedules -/

/-- One context alone: its wait passes and ends, and it runs on. -/
def waitOut (c us : Nat) : List Move := [.tick us, .elapse c, .run c]

/-- The moves that let one element go through (43_message.md R196, R197). -/
def elementMoves (c : Nat) (ch : Byte) : List Move :=
  if ch = 0x0A then waitOut c 40 else waitOut c 40 ++ waitOut c 1000

/-- The moves that let a WRMSG of context `c` run alone to its completion. -/
def messageMoves (c : Nat) (msg : List Byte) : List Move :=
  [.run c] ++ waitOut c 40 ++ waitOut c 1640 ++ msg.flatMap (elementMoves c)

/-- Steps inside segments that one element takes beside its moves. -/
def elementSteps (ch : Byte) : Nat := if ch = 0x0A then 5 else 9

/-- Steps of a WRMSG that runs alone under `messageMoves`. -/
def messageSteps (msg : List Byte) : Nat := 11 + (msg.map elementSteps).sum + 3

/-- The moves that let an INIT that resolved to FourBit run alone to its completion. -/
def initMoves (c : Nat) : List Move := [.run c] ++ initTable.flatMap (fun e => waitOut c e.2)

/-- The moves that let a DISPOSE of context `c` run alone to its completion. -/
def disposeMoves (c : Nat) : List Move := [.run c] ++ waitOut c 40 ++ waitOut c 1640

end Sys2Proof.Safety
end

