-- ==== Sys2Proof/Certificates/Slice0/Obligations.lean ====
section
/-! DEFINITION. The statements for the provers. Each docstring names the rules of spec/ a statement formalises. A
statement of an instruction's result gives the whole next state, so it says its frame as well. -/

open Sys2Proof Sys2Proof.Machine Sys2Proof.Safety

/-! ## Encoding -/

/-- The decoder reads every well-formed instruction back from its bytes, in its own format, whatever follows
(30_encoding.md; the operand layouts are the model's, log 10 and log 11). -/
def Obligations.DecodeReadsBackEncoded : Prop :=
  ∀ (i : Instr) (rest : List Byte), i.wf = true → decode i.format (encode i ++ rest) = .ok (i, rest)

/-- Bytes have one meaning in a format: what decodes is well-formed, belongs to the format, and encodes to exactly the
bytes it was read from (30_encoding.md; log 10 and log 11). -/
def Obligations.EncodeWritesBackDecoded : Prop :=
  ∀ (f : Format) (bs : List Byte) (i : Instr) (rest : List Byte), decode f bs = .ok (i, rest) →
    i.format = f ∧ i.wf = true ∧ encode i ++ rest = bs

/-- Words written out from 30_encoding.md R91 to R98 decode to the rows they stand for, one or more a format. The word
of a row (`cmd_op`, element, controller code, step, primitive) is the spec's; how the bytes of `CFG`, of the empty
message and of STROBE's operands lie after it is the model's choice (log 10, log 11). -/
def Obligations.TableWordsDecodeToTheirRows : Prop :=
  decode .hcmd [0b00, 0xC3, 0b011, 0x10, 0x02] = .ok (.init ⟨0x3C3, false, 16, 2⟩, []) ∧
  decode .hcmd [0b01, 0] = .ok (.wrmsg [], []) ∧
  decode .hcmd [0b10] = .ok (.dispose, []) ∧
  decode .msg8 [0b00001010] = .ok (.nl, []) ∧
  decode .msg8 [0b01000001] = .ok (.char 0x41, []) ∧
  decode .lcd8 [0b00000001] = .ok (.clearDisplay, []) ∧
  decode .lcd8 [0b11000000] = .ok (.newLine, []) ∧
  decode .initrom [0x1] = .ok (.initseq1, []) ∧
  decode .initrom [0xA] = .ok (.initseq10, []) ∧
  decode .uop [0x3, 0, 0, 0x3] = .ok (.strobe .instruction (.four 0x3), []) ∧
  decode .uop [0x6] = .ok (.acquire, []) ∧
  decode .uop [0x7] = .ok (.unlock, []) ∧
  decode .uop [0x8] = .ok (.initseq, [])

/-- 30_encoding.md R93: "Decode is a single equality test": 0x0A selects NL, every other value CHAR with itself. -/
def Obligations.MessageElementDecodesByOneTest : Prop :=
  ∀ (c : Byte) (rest : List Byte),
    decode .msg8 (c :: rest) = .ok (if c = 0x0A then .nl else .char c, rest)

/-- 30_encoding.md R100, 60_exceptions.md R245: a request with `cmd_op = 0b11` starts nothing, changes nothing and
makes no event, whether or not a slot is Idle (the code is the spec's own decision D3). -/
def Obligations.ReservedCommandChangesNothing : Prop :=
  ∀ (s : State) (bytes : List Byte) (rest : List Move),
    nextMoveIs (.request (0b11 :: bytes)) rest s → step s = .next { s with agenda := rest }

/-- 30_encoding.md R91, 10_state.md R30, R31, R41, 60_exceptions.md R256: a request names no context; it is accepted when
a slot is Idle, and fills that slot with its operand, at the first position of its operation; no other slot and no other
state changes. While all NCTX slots are busy the request waits, and no context starts. That the lowest Idle slot takes
it is the model's choice (log 24). -/
def Obligations.RequestFillsAnIdleSlot : Prop :=
  ∀ (s : State) (i : Instr) (rest : List Move), i.wf = true → nextMoveIs (.request (encode i)) rest s →
    (∀ c, (slotGet s.ctxs c).op = none → c < s.params.nctx → (∀ d < c, (slotGet s.ctxs d).op ≠ none) →
      (∀ cfg, i = .init cfg →
        step s = .next { s with
          agenda := rest
          ctxs := slotSet s.ctxs c { Ctx.idle with op := some .init, cfg := cfg, pc := .pos .cfg } }) ∧
      (∀ msg, i = .wrmsg msg → msg.length ≤ s.params.maxLen →
        step s = .next { s with
          agenda := rest
          ctxs := slotSet s.ctxs c { Ctx.idle with op := some .wrmsg, msg := msg, pc := .pos .acq } }) ∧
      (i = .dispose →
        step s = .next { s with
          agenda := rest
          ctxs := slotSet s.ctxs c { Ctx.idle with op := some .dispose, pc := .pos .clear } })) ∧
    (slotsWf s.ctxs → (∀ d < s.params.nctx, (slotGet s.ctxs d).op ≠ none) →
      ((∃ cfg, i = .init cfg) ∨ (∃ msg, i = .wrmsg msg ∧ msg.length ≤ s.params.maxLen) ∨ i = .dispose) →
      ∃ t, step s = .next t ∧ t.agenda = s.agenda ∧ t.trace = s.trace ∧
        ∀ d, (slotGet t.ctxs d).op = (slotGet s.ctxs d).op)

/-! ## Reset -/

/-- 10_state.md R40, 70_reset_and_hazards.md R270: what reset leaves (the values the spec gives; the state is the spec's
own decision D1). -/
def Obligations.ResetLeavesTheSpecState : Prop :=
  State.reset.driver = none ∧ (∀ p, State.reset.own.get p = false) ∧ State.reset.lock = .free ∧
  State.reset.waiters = [] ∧ State.reset.faulted = false ∧ State.reset.trace = [] ∧
  (∀ c, (slotGet State.reset.ctxs c).op = none ∧ (slotGet State.reset.ctxs c).wait = none)

/-- 70_reset_and_hazards.md R270, R271 (decision D30): reset drops every context where it stands, with no further
event; inside a segment, after any number `n` of its further events: a step that makes fewer goes on and leaves the rest
of `n` to the segment's next step, and a segment that ends sooner is cut at its end. That the trace, the agenda, the
platform's inputs and the parameters stay is read from R270 and R271 (log 21); that every latch, unspecified after reset
(R40), is Low is the model's choice (log 5). -/
def Obligations.ResetDropsEverything : Prop :=
  (∀ (s : State) (rest : List Move), nextMoveIs .reset rest s →
    step s = .next { State.reset with
      trace := s.trace, agenda := rest, platform := s.platform, params := s.params }) ∧
  (∀ (s t : State) (n : Nat) (rest : List Move) (evs : List (Nat × Event)),
    s.issued = none → s.midSegment = true → s.agenda = .resetWithin n :: rest →
    runAction (nextAction s) = .next t → t.trace = s.trace ++ evs →
    (n ≤ evs.length ∨ t.midSegment = false →
      step s = .next { State.reset with
        trace := s.trace ++ evs.take n, agenda := rest, platform := s.platform, params := s.params }) ∧
    (evs.length < n → t.midSegment = true →
      step s = .next { t with agenda := .resetWithin (n - evs.length) :: rest }))

/-- 70_reset_and_hazards.md R270: while no operation is outstanding, no step makes an event, and only a request can
give a context an operation. -/
def Obligations.NoEventUntilARequest : Prop :=
  ∀ s : State, slotsWf s.ctxs → s.issued = none → s.midSegment = false →
    (∀ c, (slotGet s.ctxs c).op = none) →
    ∃ t, step s = .next t ∧ t.trace = s.trace ∧
      ((∀ bytes rest, s.agenda ≠ .request bytes :: rest) → ∀ c, (slotGet t.ctxs c).op = none)

/-! ## Pin bank -/

/-- 40_pinbank.md R124, R125: `SetLevel` on an owned pin writes that pin's latch, makes one event and nothing else, also when
the level is the one the pin has; on a pin that is not owned it raises `PinNotOwned` of that pin, and the pin is not
written. -/
def Obligations.SetLevelWritesItsPinOrRaises : Prop :=
  ∀ (p : Pin) (l : Level) (s : State),
    (s.own.get p = true →
      ∃ t, exec (.setLevel p l) s = .next t ∧ t.lvl.get p = l ∧
        (∀ q, q ≠ p → t.lvl.get q = s.lvl.get q) ∧
        t = { s with lvl := t.lvl, trace := s.trace ++ [(s.cur, .pin p l)] }) ∧
    (s.own.get p = false → exec (.setLevel p l) s = .next (afterFault (.pinNotOwned p) s))

/-- 40_pinbank.md R127, R128 (decision D16): `Release` of an owned pin ends its ownership with one event; a second
release raises `DoubleRelease` of that pin and changes no pin. That the latch keeps its level, which has no meaning, is the
model's choice (log 23). -/
def Obligations.ReleaseEndsOwnershipOnce : Prop :=
  ∀ (p : Pin) (s : State),
    (s.own.get p = true →
      ∃ t, exec (.release p) s = .next t ∧ t.own.get p = false ∧
        (∀ q, q ≠ p → t.own.get q = s.own.get q) ∧
        t = { s with own := t.own, trace := s.trace ++ [(s.cur, .disown p)] }) ∧
    (s.own.get p = false → exec (.release p) s = .next (afterFault (.doubleRelease p) s))

/-- 40_pinbank.md R121 (decision D13): when no pin of the list is bad, `Open` acquires every one of them in order, and
nothing else changes but their levels, which are the platform's (10_state.md R40 "any value"; log 6). -/
def Obligations.OpenAcquiresTheWholeList : Prop :=
  ∀ (pins : List Pin) (s : State),
    (∀ p ∈ pins, pinBit s.platform.invalid p = false ∧ pinBit s.platform.unavail p = false) →
    ∃ t, exec (.openOutputs pins) s = .next t ∧
      (∀ q, t.own.get q = (s.own.get q || pins.contains q)) ∧
      (∀ q, q ∉ pins → t.lvl.get q = s.lvl.get q) ∧
      (∀ q ∈ pins, t.lvl.get q = if pinBit s.platform.padLevel q then .high else .low) ∧
      t = { s with
        own := t.own, lvl := t.lvl, openAnswer := none
        trace := s.trace ++ pins.map (fun p => (s.cur, Event.own p)) }

/-- 40_pinbank.md R121 (decision D13): the first bad pin in list order decides the answer, `invalid` before `unavail`
on one pin, and then no pin is acquired and no event is made. -/
def Obligations.OpenFailureAcquiresNothing : Prop :=
  ∀ (pre : List Pin) (p : Pin) (post : List Pin) (s : State),
    (∀ q ∈ pre, pinBit s.platform.invalid q = false ∧ pinBit s.platform.unavail q = false) →
    (pinBit s.platform.invalid p = true →
      exec (.openOutputs (pre ++ p :: post)) s = .next { s with openAnswer := some .invalid }) ∧
    (pinBit s.platform.invalid p = false → pinBit s.platform.unavail p = true →
      exec (.openOutputs (pre ++ p :: post)) s = .next { s with openAnswer := some .unavailable })

/-! ## Transfer -/

/-- 10_state.md R27 (decision D8), 20_memory.md R63, 30_encoding.md R99 (decision D32): the role map, the open list, the
`RS` levels, and the bit of each transfer mode. -/
def Obligations.RoleMapAndRegisterLevels : Prop :=
  dataPinsOf .fourBit = [.d4, .d5, .d6, .d7] ∧
  dataPinsOf .eightBit = [.d0, .d1, .d2, .d3, .d4, .d5, .d6, .d7] ∧
  (∀ m, openList m = [Pin.rs, .e] ++ dataPinsOf m) ∧
  rsLevel .data = .high ∧ rsLevel .instruction = .low ∧
  encodeMode .fourBit = 0 ∧ encodeMode .eightBit = 1 ∧ (∀ m, decodeMode (encodeMode m) = m) ∧
  ∀ b, encodeMode (decodeMode b) = b

/-- 42_transfer.md R171: the pin events of a strobe in order (E High, RS, data pins from bit 0, E Low, RS), the latches
they write, and nothing else; the strobe stops at the first pin that is not owned, which the fault names, and the
later pin writes are not made. R96 gives no strobe of a width that the mode does not have; that a strobe of eight bits
uses `Data_0..Data_7` also in FourBit mode and without a mode, and one of four bits in EightBit mode `Data_0..Data_3`,
is the model's choice (log 15). -/
def Obligations.StrobeMakesItsPinEvents : Prop :=
  ∀ (reg : Register) (v : StrobeValue) (pins : List Pin) (s : State), strobePins s.mode v = some pins →
    (ownsAll s (.e :: .rs :: pins) →
      exec (.strobe reg v) s = .next (afterEvents (strobeEvents reg pins (bitLevels v)) s)) ∧
    (∀ pre p, stopsAfter s (strobeEvents reg pins (bitLevels v)) pre p →
      exec (.strobe reg v) s = .next (afterFault (.pinNotOwned p) (afterEvents pre s)))

/-- 20_memory.md R67, 42_transfer.md R171: after a strobe of `n` bits, data pin `DP[i]` has the level of bit `i`, for every
`i` below `n`, and so in TD's example; no other pin but `E` and `RS` changes. That a strobe of eight bits uses
`Data_0..Data_7` in any mode, and one of four bits in EightBit mode `Data_0..Data_3`, is the model's choice (log 15). -/
def Obligations.StrobePutsEachBitOnItsPin : Prop :=
  (∀ (reg : Register) (b : Nibble) (pins : List Pin) (s : State), strobePins s.mode (.four b) = some pins →
    ownsAll s (.e :: .rs :: pins) →
    ∃ t, exec (.strobe reg (.four b)) s = .next t ∧
      (∀ i p, pins[i]? = some p → t.lvl.get p = if b.getLsbD i then .high else .low) ∧
      ∀ q, q ∉ Pin.e :: .rs :: pins → t.lvl.get q = s.lvl.get q) ∧
  (∀ (reg : Register) (b : Byte) (s : State), ownsAll s (openList .eightBit) →
    ∃ t, exec (.strobe reg (.eight b)) s = .next t ∧
      ∀ i p, (dataPinsOf .eightBit)[i]? = some p → t.lvl.get p = if b.getLsbD i then .high else .low) ∧
  bitLevels (.eight 0b10110000) = [.low, .low, .low, .low, .high, .high, .low, .high]

/-- 10_state.md R40 ("treat a read as a fault, not as zero"), 60_exceptions.md R234, R241, 93_implementation_defined.md U2:
an instruction that needs `mode`, `width` or `height` on an Absent driver never uses a value: the read is a fault. A
strobe of four bits reads `mode` after its writes of `E` and `RS`, and raises there if one of them is not owned, at that
pin (40_pinbank.md R125); WRITEVALUE and what begins with it, and CHAR, read at once and write no pin. That the fault is
`PinNotOwned`, at `E` where `E` is not owned, is read from R241, U2 and 43_message.md R205; where `E` is owned, as an
Absent driver's is in no state of R26, its pin is free (log 7, log 8). -/
def Obligations.StrobeWithoutModeNeverGuesses : Prop :=
  (∀ (i : Instr) (reg : Register) (s : State), s.driver = none →
    (∃ b, i = .strobe reg (.four b)) ∨ (reg = .instruction ∧ ((∃ k, i = initInstr k) ∨ i = .initseq)) →
    (s.own.get .e = false → exec i s = .next (afterFault (.pinNotOwned .e) s)) ∧
    (s.own.get .e = true → s.own.get .rs = false →
      exec i s = .next (afterFault (.pinNotOwned .rs) (afterEvents [.pin .e .high] s))) ∧
    (s.own.get .e = true → s.own.get .rs = true → ∃ p,
      exec i s = .next (afterFault (.pinNotOwned p)
        (afterEvents [.pin .e .high, .pin .rs (rsLevel reg)] s)))) ∧
  (∀ (i : Instr) (s : State), s.driver = none →
    (∃ reg v, i = .writeValue reg v) ∨ i = .clearDisplay ∨ i = .newLine ∨ i = .nl ∨ (∃ ch, i = .char ch) →
    ∃ p, exec i s = .next (afterFault (.pinNotOwned p) s) ∧ (s.own.get .e = false → p = .e)) ∧
  (∀ s : State, s.driver = none →
    ∃ p, exec .dispose s = .next (afterFault (.pinNotOwned p)
        (withSlot { Ctx.idle with op := some .dispose, pc := .pos .clear } s)) ∧
      (s.own.get .e = false → p = .e))

/-- 42_transfer.md R173, 20_memory.md R66 (derived there): whatever the levels before, the controller sees the events of
one strobe as exactly one write, of the strobe's bits to the strobe's register. -/
def Obligations.ControllerSeesOneWritePerStrobe : Prop :=
  ∀ (reg : Register) (m : Mode) (n : Nibble) (v : Byte) (lvl : PerPin Level),
    controllerView [.d4, .d5, .d6, .d7] lvl (strobeEvents reg [.d4, .d5, .d6, .d7] (bitLevels (.four n)))
      = [⟨reg, bitLevels (.four n)⟩] ∧
    controllerView (dataPinsOf .eightBit) lvl
      (strobeEvents reg (dataPinsOf .eightBit) (bitLevels (.eight v))) = [⟨reg, bitLevels (.eight v)⟩] ∧
    (controllerView (dataPinsOf m) lvl (writeEvents m reg v)).length = (if m = .fourBit then 2 else 1)

/-- 42_transfer.md R175: two four-bit strobes, high nibble first, or one eight-bit strobe, as the mode says, then
`Wait(40)` at the position that leads back to the caller; a pin that is not owned ends it there, without the wait. After
the wait it returns to the caller's position and makes no event (10_state.md R32 `execwait`). -/
def Obligations.WriteValueStrobesThenWaits : Prop :=
  (∀ (reg : Register) (v : Byte) (d : Driver) (s : State), s.driver = some d →
    (ownsAll s (openList d.mode) →
      exec (.writeValue reg v) s =
        .next (suspended 40 (.execwait (plainRet (slotGet s.ctxs s.cur).pc))
          (afterEvents (writeEvents d.mode reg v) s))) ∧
    (∀ pre p, stopsAfter s (writeStrobes d.mode reg v) pre p →
      exec (.writeValue reg v) s = .next (afterFault (.pinNotOwned p) (afterEvents pre s)))) ∧
  (∀ (op : Op) (p : Pos) (s : State), inSegment op s → (slotGet s.ctxs s.cur).pc = .execwait (.plain p) →
    step s = .next (withSlot { slotGet s.ctxs s.cur with pc := .pos p } s))

/-- 42_transfer.md R178: `Wait(t)` makes its event and suspends the context for t microseconds; nothing else changes. -/
def Obligations.WaitSuspendsItsContext : Prop :=
  ∀ (t : WaitTime) (us : Nat) (s : State),
    (t, us) ∈ [(WaitTime.pwr, 15000), (.long, 4100), (.short, 400), (.exec, 40), (.clear, 1640), (.char, 1000)] →
    exec (.wait t) s =
      .next (suspended us (slotGet s.ctxs s.cur).pc (afterEvents [.wait us] s))

/-- 42_transfer.md R178, 10_state.md R34 (decision D2: a wait is a lower bound): a pending wait ends only when its time
has passed, time passing is what brings it there, and a context with a pending wait does not run. So for every step,
whatever moves: the slot keeps all its registers and its wait stays pending and no longer than before, unless the wait
was at zero and ended between two segments, or the step was a reset; and the context makes no event. -/
def Obligations.PendingWaitHoldsItsContext : Prop :=
  (∀ (s : State) (c r us : Nat) (rest : List Move), slotsWf s.ctxs → (slotGet s.ctxs c).wait = some r →
    (nextMoveIs (.elapse c) rest s → 0 < r → step s = .next { s with agenda := rest }) ∧
    (nextMoveIs (.elapse c) rest s → r = 0 →
      step s = .next { s with
        agenda := rest, ctxs := slotSet s.ctxs c { slotGet s.ctxs c with wait := none } }) ∧
    (nextMoveIs (.run c) rest s → step s = .next { s with agenda := rest }) ∧
    (nextMoveIs (.tick us) rest s →
      ∃ t, step s = .next t ∧ (slotGet t.ctxs c).wait = some (r - us) ∧ t.trace = s.trace ∧
        t.agenda = rest)) ∧
  (∀ (s t : State) (c r : Nat), Inv s → WaitInv s → (slotGet s.ctxs c).wait = some r → step s = .next t →
    ((∃ r' ≤ r, slotGet t.ctxs c = { slotGet s.ctxs c with wait := some r' }) ∨
      (r = 0 ∧ s.midSegment = false ∧ slotGet t.ctxs c = { slotGet s.ctxs c with wait := none }) ∨
      (slotGet t.ctxs c = Ctx.idle ∧
        ((∃ rest, s.agenda = .reset :: rest) ∨ ∃ n rest, s.agenda = .resetWithin n :: rest))) ∧
    ∃ evs : List (Nat × Event), t.trace = s.trace ++ evs ∧ ∀ e ∈ evs, e.1 ≠ c)

/-! ## Lock and messages -/

/-- 43_message.md R191: a free lock is taken with one event; a held lock makes the context a waiter, with no event, and
its segment ends (that `Acquire` is a scheduling point is the spec's decision D11). That the taker is left at the next
step of R190, position `clear`, whichever slot it is, and that a holder which acquires again waits like any other, is
read from R190 and R191 (log 17). -/
def Obligations.AcquireTakesAFreeLockOrWaits : Prop :=
  ∀ s : State,
    (s.lock = .free →
      exec .acquire s = .next { s with
        lock := .held s.cur
        waiters := s.waiters.filter (fun c => c != s.cur)
        trace := s.trace ++ [(s.cur, .lock s.cur)]
        ctxs := slotSet s.ctxs s.cur { slotGet s.ctxs s.cur with pc := .pos .clear } }) ∧
    (∀ h, s.lock = .held h →
      ∃ t, exec .acquire s = .next t ∧ (∀ c, c ∈ t.waiters ↔ c = s.cur ∨ c ∈ s.waiters) ∧
        t = { s with waiters := t.waiters, midSegment := false })

/-- 43_message.md R192: "`lock <- Free` (event `Unlock(c)`)", and nothing else. R192 says that only the holder runs UNLOCK
and gives it no test of its caller; that it frees the lock in every other state too is read from that (log 17). -/
def Obligations.UnlockFreesTheLock : Prop :=
  ∀ s : State,
    exec .unlock s = .next { s with lock := .free, trace := s.trace ++ [(s.cur, .unlock s.cur)] }

/-- 43_message.md R191, 60_exceptions.md R257: a waiter does not run while the lock is held; when it is free, whichever
waiter the scheduler picks runs. -/
def Obligations.WaiterRunsOnlyWhenLockIsFree : Prop :=
  ∀ (s : State) (c : Nat) (rest : List Move), nextMoveIs (.run c) rest s → c ∈ s.waiters →
    (slotGet s.ctxs c).op = some .wrmsg → (slotGet s.ctxs c).wait = none →
    (∀ h, s.lock = .held h → step s = .next { s with agenda := rest }) ∧
    (s.lock = .free → step s = .next { s with agenda := rest, cur := c, midSegment := true })

/-- 10_state.md R28, 43_message.md R192: no instruction but ACQUIRE and UNLOCK writes the lock, except that a WRMSG
that holds it and takes a fault frees it. -/
def Obligations.OnlyAcquireAndUnlockWriteTheLock : Prop :=
  ∀ (i : Instr) (s t : State), i ≠ .acquire → i ≠ .unlock → exec i s = .next t →
    t.lock = s.lock ∨
    (s.lock = .held s.cur ∧ (slotGet s.ctxs s.cur).op = some .wrmsg ∧ t.lock = .free ∧ t.faulted = true)

/-- 43_message.md R190, R191: WRMSG gives its context the message and leaves it at `Acquire`, a scheduling point. -/
def Obligations.WrmsgStandsAtAcquire : Prop :=
  ∀ (msg : List Byte) (s : State),
    exec (.wrmsg msg) s = .next { s with
      ctxs := slotSet s.ctxs s.cur { Ctx.idle with op := some .wrmsg, msg := msg, pc := .pos .acq }
      midSegment := false }

/-- 43_message.md R193: `WriteValue(Instruction, 0x01)`, and at its return `Wait(1640)`; a pin that is not owned raises
`PinNotOwned` of that pin (60_exceptions.md R234). -/
def Obligations.ClearDisplayWritesAndWaits : Prop :=
  (∀ (d : Driver) (s : State), s.driver = some d →
    (ownsAll s (openList d.mode) →
      exec .clearDisplay s =
        .next (suspended 40 (.execwait .clear) (afterEvents (writeEvents d.mode .instruction 0x01) s))) ∧
    (∀ pre p, stopsAfter s (writeStrobes d.mode .instruction 0x01) pre p →
      exec .clearDisplay s = .next (afterFault (.pinNotOwned p) (afterEvents pre s)))) ∧
  (∀ (op : Op) (s : State), inSegment op s → (slotGet s.ctxs s.cur).pc = .execwait .clear →
    step s = .next (suspended 1640 (.pos .clearwait) (afterEvents [.wait 1640] s)))

/-- 43_message.md R194: NEWLINE is `WriteValue(Instruction, 0xC0)` with no wait of its own (decision D22); after the
wait of that `WriteValue` it returns to the caller's position with no event and no other change (10_state.md R32). -/
def Obligations.NewLineWritesItsCode : Prop :=
  (∀ (d : Driver) (s : State), s.driver = some d →
    (ownsAll s (openList d.mode) →
      exec .newLine s =
        .next (suspended 40 (.execwait (plainRet (slotGet s.ctxs s.cur).pc))
          (afterEvents (writeEvents d.mode .instruction 0xC0) s))) ∧
    (∀ pre p, stopsAfter s (writeStrobes d.mode .instruction 0xC0) pre p →
      exec .newLine s = .next (afterFault (.pinNotOwned p) (afterEvents pre s)))) ∧
  (∀ (op : Op) (p : Pos) (s : State), inSegment op s → (slotGet s.ctxs s.cur).pc = .execwait (.plain p) →
    step s = .next (withSlot { slotGet s.ctxs s.cur with pc := .pos p } s))

/-- 43_message.md R196: NL sends NEWLINE, and at its return increments `lines` and clears `lineChars`; no warning test
and no wait of a character. -/
def Obligations.NlSendsNewLineAndCounts : Prop :=
  (∀ (d : Driver) (s : State), s.driver = some d →
    (ownsAll s (openList d.mode) →
      exec .nl s =
        .next (suspended 40 (.execwait .nl) (afterEvents (writeEvents d.mode .instruction 0xC0) s))) ∧
    (∀ pre p, stopsAfter s (writeStrobes d.mode .instruction 0xC0) pre p →
      exec .nl s = .next (afterFault (.pinNotOwned p) (afterEvents pre s)))) ∧
  (∀ (op : Op) (s : State), inSegment op s → (slotGet s.ctxs s.cur).pc = .execwait .nl →
    step s = .next (withSlot { slotGet s.ctxs s.cur with
      lines := (slotGet s.ctxs s.cur).lines + 1, lineChars := 0, pc := .pos .fetch } s))

/-- 43_message.md R197 to R199, 60_exceptions.md R239, R240: the warnings of a CHAR (equality for overrun, strict
comparison for overflow; their order is decision D21) come before its transfer, which they do not change; at the return
`lineChars` is incremented and `Wait(1000)` follows; a fault keeps the warnings already made. -/
def Obligations.CharWarnsWritesAndCounts : Prop :=
  (∀ (ch : Byte) (d : Driver) (s : State) (warnings : List Event), s.driver = some d →
    warnings = (if (slotGet s.ctxs s.cur).lineChars = d.width then [Event.evt .overrun] else [])
      ++ (if d.height < (slotGet s.ctxs s.cur).lines then [Event.evt .overflow] else []) →
    (ownsAll s (openList d.mode) →
      exec (.char ch) s =
        .next (suspended 40 (.execwait .char) (afterEvents (warnings ++ writeEvents d.mode .data ch) s))) ∧
    (∀ pre p, stopsAfter s (writeStrobes d.mode .data ch) pre p →
      exec (.char ch) s = .next (afterFault (.pinNotOwned p) (afterEvents (warnings ++ pre) s)))) ∧
  (∀ (op : Op) (s : State), inSegment op s → (slotGet s.ctxs s.cur).pc = .execwait .char →
    step s = .next (suspended 1000 (.pos .charwait)
      (withSlot { slotGet s.ctxs s.cur with
          lineChars := (slotGet s.ctxs s.cur).lineChars + 1, pc := .pos .charwait }
        (afterEvents [.wait 1000] s))))

/-- 40_pinbank.md R125, 43_message.md R205, 44_dispose.md R222, R223 (decision D15): on an Absent driver, which owns no
pin, every instruction that writes a pin (SETLEVEL, STROBE of four and of eight bits, WRITEVALUE, CLEARDISPLAY, NEWLINE,
NL, CHAR, INITSEQ and its ten steps, DISPOSE) faults at its first pin write, and the fault names that pin, `E` but for
SETLEVEL (60_exceptions.md R234): no pin event, no wait. A CHAR after a racing
DISPOSE makes no warning either: `width` and `height` have no value then, and R40 makes their read the fault (log 8). -/
def Obligations.AbsentDriverFaultsAtFirstPinWrite : Prop :=
  ∀ (s : State), s.driver = none → (∀ p, s.own.get p = false) →
    (∀ (p : Pin) (l : Level), exec (.setLevel p l) s = .next (afterFault (.pinNotOwned p) s)) ∧
    (∀ (reg : Register) (v : StrobeValue), exec (.strobe reg v) s = .next (afterFault (.pinNotOwned .e) s)) ∧
    (∀ (reg : Register) (v : Byte), exec (.writeValue reg v) s = .next (afterFault (.pinNotOwned .e) s)) ∧
    exec .clearDisplay s = .next (afterFault (.pinNotOwned .e) s) ∧
    exec .newLine s = .next (afterFault (.pinNotOwned .e) s) ∧
    exec .nl s = .next (afterFault (.pinNotOwned .e) s) ∧
    (∀ ch, exec (.char ch) s = .next (afterFault (.pinNotOwned .e) s)) ∧
    exec .initseq s = .next (afterFault (.pinNotOwned .e) s) ∧
    (∀ k, exec (initInstr k) s = .next (afterFault (.pinNotOwned .e) s)) ∧
    exec .dispose s = .next (afterFault (.pinNotOwned .e)
      (withSlot { Ctx.idle with op := some .dispose, pc := .pos .clear } s))

/-- 43_message.md R204, R205: a WRMSG on an Absent driver makes `Lock`, `Evt(PinNotOwned(E))`, `Unlock`,
`Fail(WRMSG, PinNotOwned(E))` and nothing else, in one segment; the lock is free again and the flag is set. -/
def Obligations.WrmsgOnAbsentDriverFails : Prop :=
  ∀ (s : State), slotsWf s.ctxs → inSegment .wrmsg s → (slotGet s.ctxs s.cur).pc = .pos .acq →
    s.lock = .free → s.driver = none → (∀ p, s.own.get p = false) →
    ∃ t, Sys2Proof.core.run 2 s = .next t ∧
      t.trace = s.trace ++ [(s.cur, .lock s.cur), (s.cur, .evt (.pinNotOwned .e)), (s.cur, .unlock s.cur),
        (s.cur, .fail .wrmsg (.pinNotOwned .e))] ∧
      t.lock = .free ∧ t.faulted = true ∧ slotGet t.ctxs t.cur = Ctx.idle ∧ t.midSegment = false ∧
      t.lvl = s.lvl ∧ t.own = s.own ∧ t.driver = none

/-- 43_message.md R195: the iteration reads element `idx` and increments `idx`; the element is NL or CHAR; at `idx = len`
the iteration ends and `Unlock` follows. -/
def Obligations.FetchReadsElementsInOrder : Prop :=
  ∀ (op : Op) (s : State), inSegment op s → (slotGet s.ctxs s.cur).pc = .pos .fetch →
    (∀ c, (slotGet s.ctxs s.cur).msg[(slotGet s.ctxs s.cur).idx]? = some c →
      step s = exec (if c = 0x0A then .nl else .char c)
        (withSlot { slotGet s.ctxs s.cur with idx := (slotGet s.ctxs s.cur).idx + 1 } s)) ∧
    ((slotGet s.ctxs s.cur).msg.length ≤ (slotGet s.ctxs s.cur).idx →
      step s = .next (withSlot { slotGet s.ctxs s.cur with pc := .pos .unlock } s))

/-! ## Initialization -/

/-- 41_initialize.md R143: the three-way rule over the ten presence bits, every value covered: 1 gives EightBit, 15
FourBit, 1008 none; in FourBit mode `Data_0..Data_3` are not opened and no strobe of `WriteValue` or INITSEQ drives
them. That the four pins are `Data_4..Data_7` in this order is 10_state.md R27, the spec's decision D8 (log 25). -/
def Obligations.ModeResolutionCoversAllRoleSets : Prop :=
  (∀ present : BitVec 10,
    let base := [0, 1, 6, 7, 8, 9].all (fun i => present.getLsbD i)
    let low := [2, 3, 4, 5].all (fun i => present.getLsbD i)
    resolveMode present =
      if base && low then some .eightBit else if base then some .fourBit else none) ∧
  ((List.range 1024).filter (fun n => resolveMode (BitVec.ofNat 10 n) == some .eightBit)).length = 1 ∧
  ((List.range 1024).filter (fun n => resolveMode (BitVec.ofNat 10 n) == some .fourBit)).length = 15 ∧
  ((List.range 1024).filter (fun n => resolveMode (BitVec.ofNat 10 n) == none)).length = 1008 ∧
  openList .fourBit = [.rs, .e, .d4, .d5, .d6, .d7] ∧
  ∀ b, strobePins (some .fourBit) (.four b) = some [.d4, .d5, .d6, .d7]

/-- 41_initialize.md R147, 60_exceptions.md R243 (decision D17): INIT on a Present driver completes with the refusal
code and changes nothing else. -/
def Obligations.InitRefusedWhilePresent : Prop :=
  ∀ (cfg : Cfg) (s : State), s.driver.isSome = true →
    exec (.init cfg) s = .next (afterCompletion [.fail .init .initWhilePresent] s)

/-- 41_initialize.md R141, 60_exceptions.md R236: a configuration error is one event, then normal completion; no pin is
opened and the driver stays Absent. -/
def Obligations.ConfigErrorIsAbsorbed : Prop :=
  ∀ (cfg : Cfg) (s : State), s.driver = none → cfg.err = true →
    exec (.init cfg) s = .next (afterCompletion [.evt .configError, .done .init] s)

/-- 41_initialize.md R144: a role set without a mode "completes without raising, opens zero pins, leaves driver state
absent", with no event on the event channel. -/
def Obligations.MalformedRolesAreASilentNoOp : Prop :=
  ∀ (cfg : Cfg) (s : State), s.driver = none → cfg.err = false → resolveMode cfg.present = none →
    exec (.init cfg) s = .next (afterCompletion [.done .init] s)

/-- 41_initialize.md R145, 60_exceptions.md R237, R238, R247: a failed `Open` is one event for the first bad pin of the
open list, then normal completion; nothing is owned, in EightBit mode too. -/
def Obligations.OpenFailureIsAbsorbed : Prop :=
  ∀ (cfg : Cfg) (m : Mode) (pre : List Pin) (p : Pin) (post : List Pin) (s : State),
    s.driver = none → cfg.err = false → resolveMode cfg.present = some m → openList m = pre ++ p :: post →
    (∀ q ∈ pre, pinBit s.platform.invalid q = false ∧ pinBit s.platform.unavail q = false) →
    (pinBit s.platform.invalid p = true →
      exec (.init cfg) s = .next { afterCompletion [.evt .pinConfigInvalid, .done .init] s with
        openAnswer := some .invalid }) ∧
    (pinBit s.platform.invalid p = false → pinBit s.platform.unavail p = true →
      exec (.init cfg) s = .next { afterCompletion [.evt .pinUnavailable, .done .init] s with
        openAnswer := some .unavailable })

/-- 41_initialize.md R140, R146: INIT in FourBit mode acquires the six pins in order, creates the DriverState with the
configured geometry, and stands at step 1 of INITSEQ with its segment in progress. -/
def Obligations.InitCreatesTheFourBitDriver : Prop :=
  ∀ (cfg : Cfg) (s : State), s.driver = none → (∀ p, s.own.get p = false) → cfg.err = false →
    resolveMode cfg.present = some .fourBit →
    (∀ p ∈ openList .fourBit, pinBit s.platform.invalid p = false ∧ pinBit s.platform.unavail p = false) →
    ∃ t, exec (.init cfg) s = .next t ∧
      (∀ p, t.own.get p = ownedIn .fourBit p) ∧
      (∀ q, q ∉ openList .fourBit → t.lvl.get q = s.lvl.get q) ∧
      t = { s with
        driver := some ⟨.fourBit, cfg.width, cfg.height⟩
        own := t.own, lvl := t.lvl, openAnswer := none
        trace := s.trace ++ (ownEvents [.rs, .e, .d4, .d5, .d6, .d7]).map (fun ev => (s.cur, ev))
        ctxs := slotSet s.ctxs s.cur
          { Ctx.idle with op := some .init, cfg := cfg, pc := .pos (.seq .k1) } }

/-- 41_initialize.md R148, 60_exceptions.md R244: INIT in EightBit mode fails visibly after `Open`, with no pin write
and no wait, under both values of `P_EIGHTBIT_STATE` (decision D14): `keep` leaves the driver Present with ten pins,
`drop` releases them in order and leaves it Absent. -/
def Obligations.EightBitInitFailsVisibly : Prop :=
  ∀ (cfg : Cfg) (s : State), s.driver = none → (∀ p, s.own.get p = false) → cfg.err = false →
    resolveMode cfg.present = some .eightBit →
    (∀ p, pinBit s.platform.invalid p = false ∧ pinBit s.platform.unavail p = false) →
    ∃ t, exec (.init cfg) s = .next t ∧
      (s.params.eightBitState = .keep →
        (∀ p, t.own.get p = true) ∧
        t = { afterCompletion (ownEvents (openList .eightBit) ++ [.fail .init .unsupportedMode]) s with
          driver := some ⟨.eightBit, cfg.width, cfg.height⟩, own := t.own, lvl := t.lvl
          openAnswer := none }) ∧
      (s.params.eightBitState = .drop →
        (∀ p, t.own.get p = false) ∧
        t = { afterCompletion (ownEvents (openList .eightBit) ++ disownEvents (openList .eightBit)
            ++ [.fail .init .unsupportedMode]) s with
          own := t.own, lvl := t.lvl, openAnswer := none })

/-- 41_initialize.md R149, R152, 30_encoding.md R97: each step of INITSEQ is one four-bit instruction strobe of its
nibble and its wait, with no wait of a `WriteValue`. That exec of INITSEQ is its first step, from whose position the
sequencer goes on, is read from R149 and R32 (log 28); INITSEQ exists only for FourBit mode (R104), and that a step in
EightBit mode, placed there or resumed there after a DISPOSE and an INIT that leaves an EightBit driver, uses
`Data_0..Data_3` is the model's choice (log 15). -/
def Obligations.InitStepsStrobeAndWait : Prop :=
  ∀ (i : Instr) (k : InitStep) (nib : Nibble) (us : Nat) (pins : List Pin) (s : State),
    (i, k, nib, us) ∈
      [(Instr.initseq1, InitStep.k1, (0x3 : Nibble), 15000), (.initseq2, .k2, 0x3, 4100),
       (.initseq3, .k3, 0x3, 4100), (.initseq4, .k4, 0x2, 4100), (.initseq5, .k5, 0x2, 400),
       (.initseq6, .k6, 0x8, 400), (.initseq7, .k7, 0x0, 400), (.initseq8, .k8, 0xC, 400),
       (.initseq9, .k9, 0x0, 400), (.initseq10, .k10, 0x6, 400), (.initseq, .k1, 0x3, 15000)] →
    strobePins s.mode (.four nib) = some pins →
    (ownsAll s (.e :: .rs :: pins) →
      exec i s = .next (suspended us (.pos (.seqwait k))
        (afterEvents (strobeEvents .instruction pins (bitLevels (.four nib)) ++ [.wait us]) s))) ∧
    (∀ pre p, stopsAfter s (strobeEvents .instruction pins (bitLevels (.four nib))) pre p →
      exec i s = .next (afterFault (.pinNotOwned p) (afterEvents pre s)))

/-! ## Disposal -/

/-- 44_dispose.md R220: DISPOSE begins with CLEARDISPLAY, whatever the lock, the flag and earlier messages left (R224). -/
def Obligations.DisposeBeginsWithClear : Prop :=
  ∀ (d : Driver) (s : State), s.driver = some d → ownsAll s (openList d.mode) →
    exec .dispose s =
      .next (suspended 40 (.execwait .clear)
        (withSlot { Ctx.idle with op := some .dispose, pc := .pos .clear }
          (afterEvents (writeEvents d.mode .instruction 0x01) s)))

/-- 44_dispose.md R220, R223 (decisions D13, D16): the release segment releases every pin of the mode once in list
order, leaves the driver Absent and completes, in one step; where another DISPOSE was first, it raises `DoubleRelease`
on `RS` and writes nothing of the driver. That a released latch keeps its level, which has no meaning (40_pinbank.md
R127), is the model's choice (log 23). -/
def Obligations.DisposeReleasesEveryPinOnce : Prop :=
  ∀ (s : State), inSegment .dispose s → (slotGet s.ctxs s.cur).pc = .pos .release →
    (∀ d, s.driver = some d → (∀ p, s.own.get p = ownedIn d.mode p) →
      ∃ t, step s = .next t ∧ (∀ p, t.own.get p = false) ∧
        t = { afterCompletion (disownEvents (openList d.mode) ++ [.done .dispose]) s with
          driver := none, own := t.own }) ∧
    (s.own.get .rs = false → step s = .next (afterFault (.doubleRelease .rs) s))

/-! ## The step -/

/-- A step runs the decoded instruction: bytes placed for the current context that decode to an instruction are run by
`exec`, with nothing added but that the placed bytes are used up and a segment is in progress (log 13); bytes that do
not decode are refused by name. -/
def Obligations.StepRunsThePlacedInstruction : Prop :=
  ∀ (s : State) (f : Format) (bs : List Byte), s.issued = some ⟨f, bs⟩ →
    (∀ i rest, decode f bs = .ok (i, rest) →
      step s = exec i { s with issued := none, midSegment := true }) ∧
    (∀ e, decode f bs = .error e → step s = .refused (.undecodable e))

/-- 10_state.md R32: at each position that names an instruction, a step of the running context runs that instruction,
with the sequencer moved on as the operation's rule says. -/
def Obligations.StepRunsTheInstructionOfThePosition : Prop :=
  ∀ (op : Op) (s : State), inSegment op s →
    ((slotGet s.ctxs s.cur).pc = .pos .cfg → step s = exec (.init (slotGet s.ctxs s.cur).cfg) s) ∧
    (∀ k, (slotGet s.ctxs s.cur).pc = .pos (.seq k) → step s = exec (initInstr k) s) ∧
    (∀ k k', (slotGet s.ctxs s.cur).pc = .pos (.seqwait k) → nextInitStep k = some k' →
      step s = exec (initInstr k') (withSlot { slotGet s.ctxs s.cur with pc := .pos (.seq k') } s)) ∧
    ((slotGet s.ctxs s.cur).pc = .pos .acq → step s = exec .acquire s) ∧
    ((slotGet s.ctxs s.cur).pc = .pos .clear → op = .wrmsg → step s = exec .clearDisplay s) ∧
    ((slotGet s.ctxs s.cur).pc = .pos .clear → op = .dispose → step s = exec .dispose s) ∧
    ((slotGet s.ctxs s.cur).pc = .pos .unlock →
      step s = exec .unlock (withSlot { slotGet s.ctxs s.cur with pc := .pos .finish } s))

/-- 10_state.md R32, R33, 43_message.md R190, 41_initialize.md R140: at `clearwait`, `charwait` and `seqwait(10)` the
sequencer moves on, and sets the counters when the iteration begins; at `end` it completes the operation; and at `open`,
which no step leaves a slot at (log 19), it does what is left of INIT, the same as INIT does from its start once it has
come there. -/
def Obligations.SequencerMovesOn : Prop :=
  ∀ (op : Op) (s : State), inSegment op s →
    ((slotGet s.ctxs s.cur).pc = .pos .clearwait → op = .wrmsg →
      step s = .next (withSlot { slotGet s.ctxs s.cur with
        lines := 1, lineChars := 0, idx := 0, pc := .pos .fetch } s)) ∧
    ((slotGet s.ctxs s.cur).pc = .pos .clearwait → op = .dispose →
      step s = .next (withSlot { slotGet s.ctxs s.cur with pc := .pos .release } s)) ∧
    ((slotGet s.ctxs s.cur).pc = .pos .charwait →
      step s = .next (withSlot { slotGet s.ctxs s.cur with pc := .pos .fetch } s)) ∧
    ((slotGet s.ctxs s.cur).pc = .pos (.seqwait .k10) →
      step s = .next (withSlot { slotGet s.ctxs s.cur with pc := .pos .finish } s)) ∧
    ((slotGet s.ctxs s.cur).pc = .pos .finish →
      step s = .next (afterCompletion [.done op] s)) ∧
    (∀ cfg : Cfg, slotsWf s.ctxs → s.driver = none → cfg.err = false →
      slotGet s.ctxs s.cur = { Ctx.idle with op := some .init, cfg := cfg, pc := .pos .opening } →
      step s = exec (.init cfg) s)

/-- 20_memory.md R72: inside a segment no other agent moves: the agenda is not touched, every new event is the running
context's, the other slots keep their registers, and the running context stays the same. -/
def Obligations.SegmentIsNotInterleaved : Prop :=
  ∀ (op : Op) (s t : State), slotsWf s.ctxs → inSegment op s → step s = .next t →
    t.agenda = s.agenda ∧ t.cur = s.cur ∧ (∀ c, c ≠ s.cur → slotGet t.ctxs c = slotGet s.ctxs c) ∧
    ∃ evs : List Event, t.trace = s.trace ++ evs.map (fun ev => (s.cur, ev))

/-! ## Whole-machine rules -/

/-- 10_state.md R36, 00_scope.md R5: every step keeps the trace it found and adds to it, and no step changes a
parameter. -/
def Obligations.TraceOnlyGrowsAndParametersStay : Prop :=
  ∀ s t : State, step s = .next t → s.trace <+: t.trace ∧ t.params = s.params

/-- 10_state.md R35 (decision D37), 60_exceptions.md R249: `faulted` is never cleared except by reset, and is set only
with a fault's event, which names a pin. -/
def Obligations.FaultedIsSticky : Prop :=
  ∀ s t : State, step s = .next t →
    (s.faulted = true → t.faulted = true ∨ (∃ rest, s.agenda = .reset :: rest) ∨
      ∃ n rest, s.agenda = .resetWithin n :: rest) ∧
    (s.faulted = false → t.faulted = true →
      ∃ pre c code post, t.trace = s.trace ++ pre ++ (c, Event.evt code) :: post ∧
        ∃ p, code = .pinNotOwned p ∨ code = .doubleRelease p)

/-- 10_state.md R24, R25: "never changes after `initialize`": a step keeps a Present driver's mode and geometry, or
leaves the driver Absent, which only a DISPOSE's release segment and reset do. -/
def Obligations.ModeAndGeometryNeverChange : Prop :=
  ∀ (s t : State) (d : Driver), Inv s → s.driver = some d → step s = .next t →
    t.driver = some d ∨
    (t.driver = none ∧
      (((slotGet s.ctxs s.cur).op = some .dispose ∧ (slotGet s.ctxs s.cur).pc = .pos .release) ∨
        (∃ rest, s.agenda = .reset :: rest) ∨ ∃ n rest, s.agenda = .resetWithin n :: rest))

/-- The invariants hold after reset (10_state.md R40). -/
def Obligations.InvHoldsAtReset : Prop := Inv State.reset ∧ CountersInv State.reset ∧ WaitInv State.reset

/-- 10_state.md R26, R28 to R33, 20_memory.md R61, R78: every step keeps the invariant: the pins owned are those of the
driver's mode, contexts stand at positions of their operation, the lock belongs to exactly the WRMSG between its `Lock`
and its `Unlock`, and the context table keeps its form; and with it that no wait is pending in an Idle slot or in the
context whose segment runs (R34, R40). -/
def Obligations.StepKeepsTheInvariant : Prop :=
  (∀ s t : State, Inv s → step s = .next t → Inv t) ∧
  ∀ s t : State, Inv s → WaitInv s → step s = .next t → WaitInv t

/-- 60_exceptions.md R230, R246, R248: nothing stops the engine: every instruction answers a next state in every state,
and so does every step unless bytes were placed from outside (log 13); so in every state of the invariant. -/
def Obligations.EveryInstructionAndStepGoesOn : Prop :=
  (∀ (i : Instr) (s : State), ∃ t, exec i s = .next t) ∧
  (∀ s : State, s.issued = none → ∃ t, step s = .next t) ∧
  ∀ s : State, Inv s → ∃ t, step s = .next t

/-- 43_message.md R200 (derived there): the counters of a message are the rule's function of the elements handled, in
every state that steps reach from one where they are. -/
def Obligations.CountersFollowTheMessage : Prop :=
  ∀ s t : State, Inv s → CountersInv s → step s = .next t → CountersInv t

/-- 20_memory.md R78, 43_message.md R203: while the lock is held, no step of another WRMSG context makes an event. -/
def Obligations.HolderExcludesOtherMessages : Prop :=
  ∀ (s t : State) (h : Nat), Inv s → s.lock = .held h → inSegment .wrmsg s → s.cur ≠ h →
    step s = .next t → t.trace = s.trace ∧ t.lock = s.lock

/-- 60_exceptions.md R246: an operation that runs either goes on with no completion, or its slot becomes Idle and its
last event is its one completion. -/
def Obligations.EveryOperationCompletesOnce : Prop :=
  ∀ (s t : State) (op : Op), Inv s → inSegment op s → step s = .next t →
    ∃ evs : List Event, t.trace = s.trace ++ evs.map (fun ev => (s.cur, ev)) ∧
      (((slotGet t.ctxs s.cur).op = some op ∧
          ∀ ev ∈ evs, ev ≠ .done op ∧ ∀ code, ev ≠ .fail op code) ∨
        ((slotGet t.ctxs s.cur).op = none ∧ t.midSegment = false ∧ ∃ pre last, evs = pre ++ [last] ∧
          (last = .done op ∨ ∃ code, last = .fail op code) ∧
          ∀ ev ∈ pre, ev ≠ .done op ∧ ∀ code, ev ≠ .fail op code))

/-! ## Whole operations -/

/-- 41_initialize.md R140, R149, R150, 70_reset_and_hazards.md R276: an INIT that resolves to FourBit and runs alone
makes exactly its six `Own` events, the ten strobes with their waits, and `Done(INIT)`, and leaves the driver Present
and the slot Idle. -/
def Obligations.InitRunsItsWholeSequence : Prop :=
  ∀ (s : State) (c : Nat) (cfg : Cfg) (rest : List Move), Inv s → s.midSegment = false →
    s.agenda = initMoves c ++ rest → (∀ n r, rest ≠ .resetWithin n :: r) → s.driver = none →
    slotGet s.ctxs c = { Ctx.idle with op := some .init, cfg := cfg, pc := .pos .cfg } →
    cfg.err = false → resolveMode cfg.present = some .fourBit →
    (∀ p ∈ openList .fourBit, pinBit s.platform.invalid p = false ∧ pinBit s.platform.unavail p = false) →
    ∃ t, Sys2Proof.core.run 44 s = .next t ∧
      t.trace = s.trace ++ (ownEvents (openList .fourBit) ++ initSeqEvents ++ [Event.done .init]).map
        (fun ev => (c, ev)) ∧
      t.driver = some ⟨.fourBit, cfg.width, cfg.height⟩ ∧ (∀ p, t.own.get p = ownedIn .fourBit p) ∧
      t.lvl.get .e = .low ∧ t.lvl.get .rs = .low ∧ t.lvl.get .d4 = .low ∧ t.lvl.get .d5 = .high ∧
      t.lvl.get .d6 = .high ∧ t.lvl.get .d7 = .low ∧
      slotGet t.ctxs c = Ctx.idle ∧ t.midSegment = false ∧ t.agenda = rest ∧ t.lock = s.lock ∧
      t.faulted = s.faulted

/-- 43_message.md R190 to R200: for every message, a WRMSG that runs alone on a Present driver makes exactly the rule's
trace: `Lock`, the clear, each element's warnings, transfer and waits, `Unlock`, `Done(WRMSG)`; the lock is free again,
the slot Idle, and the driver and the flag are as before. -/
def Obligations.WrmsgRunsItsWholeMessage : Prop :=
  ∀ (s : State) (c : Nat) (msg : List Byte) (d : Driver) (rest : List Move), Inv s → s.midSegment = false →
    s.agenda = messageMoves c msg ++ rest → (∀ n r, rest ≠ .resetWithin n :: r) →
    s.driver = some d → s.lock = .free →
    slotGet s.ctxs c = { Ctx.idle with op := some .wrmsg, msg := msg, pc := .pos .acq } →
    ∃ t, Sys2Proof.core.run (messageSteps msg) s = .next t ∧
      t.trace = s.trace ++ (messageEvents d c msg).map (fun ev => (c, ev)) ∧
      t.lvl = latchAfter (messageEvents d c msg) s.lvl ∧
      t.lock = .free ∧ slotGet t.ctxs c = Ctx.idle ∧ t.midSegment = false ∧ t.agenda = rest ∧
      t.driver = some d ∧ t.own = s.own ∧ t.faulted = s.faulted

/-- 43_message.md R206 (derived there), R198 and 95_test_vectors.md section 10 property 6: the sizes of a message's trace,
for every message of `nc` characters and `nn` newlines that runs alone: pin events, waits by length, and no more
`Evt(Overrun)` than lines. And line by line: the events of a line's characters stand in the trace after those of the
elements before the line, and hold exactly one `Evt(Overrun)` if the line is longer than `width`, else none; so they do
for every beginning of a line. -/
def Obligations.WrmsgTraceHasTheRuleSize : Prop :=
  ∀ (s : State) (c : Nat) (msg : List Byte) (d : Driver) (rest : List Move) (nc nn : Nat), Inv s →
    s.midSegment = false → s.agenda = messageMoves c msg ++ rest → (∀ n r, rest ≠ .resetWithin n :: r) →
    s.driver = some d → s.lock = .free →
    slotGet s.ctxs c = { Ctx.idle with op := some .wrmsg, msg := msg, pc := .pos .acq } →
    nn = msg.count 0x0A → nc = msg.length - nn →
    ∃ t, Sys2Proof.core.run (messageSteps msg) s = .next t ∧
      ∃ evs : List Event, t.trace = s.trace ++ evs.map (fun ev => (c, ev)) ∧
        (evs.filter (fun e => match e with | .pin _ _ => true | _ => false)).length =
          (if d.mode = .fourBit then 16 else 12) * (1 + nc + nn) ∧
        evs.count (.wait 40) = 1 + nc + nn ∧ evs.count (.wait 1640) = 1 ∧ evs.count (.wait 1000) = nc ∧
        evs.count (.evt .overrun) ≤ 1 + nn ∧
        (∀ before line after : List Byte, msg = before ++ line ++ after → (0x0A : Byte) ∉ line →
          (before = [] ∨ before.getLast? = some 0x0A) →
          ∃ post, evs = [Event.lock c] ++ clearEvents d.mode ++ elementsEvents d 1 0 before
              ++ elementsEvents d (linesOf before) 0 line ++ post ∧
            (elementsEvents d (linesOf before) 0 line).count (.evt .overrun) =
              if d.width < line.length then 1 else 0)

/-- 44_dispose.md R220, R224: a DISPOSE that runs alone on a Present driver makes the clear with its 1640 microsecond
wait before any release, then every release in order and `Done(DISPOSE)`, whatever the lock and the flag are; the driver
is Absent and nothing is owned. -/
def Obligations.DisposeRunsClearThenRelease : Prop :=
  ∀ (s : State) (c : Nat) (d : Driver) (rest : List Move), Inv s → s.midSegment = false →
    s.agenda = disposeMoves c ++ rest → (∀ n r, rest ≠ .resetWithin n :: r) → s.driver = some d →
    slotGet s.ctxs c = { Ctx.idle with op := some .dispose, pc := .pos .clear } →
    ∃ t, Sys2Proof.core.run 11 s = .next t ∧
      t.trace = s.trace ++ (clearEvents d.mode ++ disownEvents (openList d.mode) ++ [Event.done .dispose]).map
        (fun ev => (c, ev)) ∧
      t.driver = none ∧ (∀ p, t.own.get p = false) ∧ slotGet t.ctxs c = Ctx.idle ∧ t.midSegment = false ∧
      t.agenda = rest ∧ t.lock = s.lock ∧ t.faulted = s.faulted
end

