-- ==== Sys2Proof/Laws/Codec.lean ====
section
/-! SUPPORT. Encoding and decoding of operands, both ways. -/

namespace Sys2Proof.Laws.Codec

open Sys2Proof

theorem byte_of_toNat {b : Byte} {n : Nat} (h : b.toNat = n) : b = BitVec.ofNat 8 n := by
  rw [← h]; simp

theorem decodePin_encodePin (p : Pin) : decodePin (encodePin p) = .ok p := by cases p <;> rfl

theorem encodePin_decodePin (b : Byte) (p : Pin) (h : decodePin b = .ok p) : encodePin p = b := by
  unfold decodePin at h
  split at h <;> first | (next hb => cases h; exact (byte_of_toNat hb).symm) | cases h

theorem decodePins_encodePins (ps : List Pin) (rest : List Byte) : decodePins (encodePins ps ++ rest) = .ok (ps, rest) := by
  induction ps with
  | nil => rfl
  | cons p ps ih =>
    have : encodePin p + 1 ≠ 0 := by cases p <;> decide
    simp only [encodePins, List.cons_append, decodePins, if_neg this]
    have h2 : encodePin p + 1 - 1 = encodePin p := by cases p <;> rfl
    rw [h2, decodePin_encodePin, ih]

theorem encodePins_decodePins (bs ps rest) (h : decodePins bs = .ok (ps, rest)) : encodePins ps ++ rest = bs := by
  induction bs generalizing ps with
  | nil => cases h
  | cons b bs ih =>
    simp only [decodePins] at h
    split at h
    · next hb => cases h; simp [encodePins, hb]
    · split at h
      · cases h
      · next p hp =>
        split at h
        · cases h
        · next q r hq =>
          cases h
          have := ih _ hq
          simp only [encodePins, List.cons_append, this, encodePin_decodePin _ _ hp]
          congr 1
          exact BitVec.sub_add_cancel b 1

theorem decodeMessage_encodeMessage (m rest : List Byte) : decodeMessage (encodeMessage m ++ rest) = .ok (m, rest) := by
  induction m with
  | nil => cases rest <;> simp [encodeMessage, decodeMessage]
  | cons c m ih => simp [encodeMessage, decodeMessage, ih]

theorem encodeMessage_decodeMessage (bs : List Byte) : ∀ m rest, decodeMessage bs = .ok (m, rest) → encodeMessage m ++ rest = bs := by
  fun_induction decodeMessage bs with
  | case1 => intro m rest h; cases h
  | case2 => intro m rest h; cases h; simp [encodeMessage, *]
  | case3 => intro m rest h; cases h
  | case4 => intro m rest h; cases h
  | case5 => intro m rest h; cases h; simp [encodeMessage, *]
  | case6 => intro m rest h; simp_all
  | case7 =>
    intro m' rest h
    simp_all
    obtain ⟨rfl, rfl⟩ := h
    simp_all [encodeMessage]
  | case8 => intro m rest h; cases h

theorem config_high_byte (e : Bool) (x : BitVec 2) : (BitVec.zeroExtend 8 (BitVec.ofBool e ++ x)).extractLsb' 0 2 = x ∧ (BitVec.zeroExtend 8 (BitVec.ofBool e ++ x)).getLsbD 2 = e ∧ (BitVec.zeroExtend 8 (BitVec.ofBool e ++ x)).toNat < 8 := by
  revert x e; decide

theorem config_split (x : BitVec 2) (b : Byte) : (x ++ b).extractLsb' 0 8 = b ∧ (x ++ b).extractLsb' 8 2 = x := by
  revert x b; decide

theorem config_present (p : BitVec 10) : p.extractLsb' 8 2 ++ p.extractLsb' 0 8 = p := by revert p; decide

theorem config_high_byte_back (b : Byte) (h : b.toNat < 8) : BitVec.zeroExtend 8 (BitVec.ofBool (b.getLsbD 2) ++ b.extractLsb' 0 2) = b := by revert h; revert b; decide

theorem decodeCfg_encodeCfg (c : Cfg) (hw : c.width < 256) (hh : c.height < 256) (rest) : decodeCfg (encodeCfg c ++ rest) = .ok (c, rest) := by
  obtain ⟨p, e, w, h⟩ := c
  simp only [encodeCfg, decodeCfg, List.cons_append, List.nil_append]
  obtain ⟨e0, e2, h1⟩ := config_high_byte e (BitVec.extractLsb' 8 2 p)
  rw [if_pos h1]
  have e1 := config_present p
  rw [e0, e2, e1]
  simp only at hw hh
  simp [Nat.mod_eq_of_lt hw, Nat.mod_eq_of_lt hh]

theorem encodeCfg_decodeCfg (bs c rest) (h : decodeCfg bs = .ok (c, rest)) : encodeCfg c ++ rest = bs ∧ c.width < 256 ∧ c.height < 256 := by
  unfold decodeCfg at h
  split at h
  · next b0 b1 w hh r =>
    split at h
    · next hb =>
      cases h
      refine ⟨?_, w.isLt, hh.isLt⟩
      simp only [encodeCfg, List.cons_append, List.nil_append]
      rw [(config_split _ _).1, (config_split _ _).2, config_high_byte_back _ hb]; simp
    · cases h
  · cases h

theorem decodeStrobeValue_encodeStrobeValue (v : StrobeValue) : ∃ a b, encodeStrobeValue v = [a, b] ∧ decodeStrobeValue a b = .ok v := by
  cases v with
  | four b => exact ⟨0, _, rfl, by revert b; decide⟩
  | eight b => exact ⟨1, b, rfl, rfl⟩

theorem encodeStrobeValue_decodeStrobeValue (a b v) (h : decodeStrobeValue a b = .ok v) : encodeStrobeValue v = [a, b] := by
  unfold decodeStrobeValue at h
  split at h
  · split at h
    · next h0 hb => cases h; simp only [encodeStrobeValue, h0]; congr 2; clear h0; revert hb; revert b; decide
    · cases h
  · split at h
    · next h1 => cases h; simp [encodeStrobeValue, h1]
    · cases h

theorem decodeRegister_encodeRegister (r) : decodeRegister (encodeRegister r) = .ok r := by cases r <;> rfl

theorem encodeRegister_decodeRegister (b r) (h : decodeRegister b = .ok r) : encodeRegister r = b := by
  unfold decodeRegister at h; split at h
  · next e => cases h; rw [e]; rfl
  · split at h
    · next e => cases h; rw [e]; rfl
    · cases h

theorem decodeLevel_encodeLevel (r) : decodeLevel (encodeLevel r) = .ok r := by cases r <;> rfl

theorem encodeLevel_decodeLevel (b r) (h : decodeLevel b = .ok r) : encodeLevel r = b := by
  unfold decodeLevel at h; split at h
  · next e => cases h; rw [e]; rfl
  · split at h
    · next e => cases h; rw [e]; rfl
    · cases h

theorem decodeWaitTime_encodeWaitTime (r) : decodeWaitTime (encodeWaitTime r) = .ok r := by cases r <;> rfl

theorem encodeWaitTime_decodeWaitTime (b r) (h : decodeWaitTime b = .ok r) : encodeWaitTime r = b := by
  unfold decodeWaitTime at h
  split at h <;> first | (next hb => cases h; exact (byte_of_toNat hb).symm) | cases h

end Sys2Proof.Laws.Codec
end

