-- ==== Sys2Proof/Laws/State.lean ====
section
/-! SUPPORT. One lemma for each field of State under each update, true by rfl, so that no proof unfolds a record
update. -/

namespace Sys2Proof.Laws.State

open Sys2Proof Sys2Proof.Machine Sys2Proof.Safety

@[simp] theorem emit_driver (ev : Event) (s : State) : (emit ev s).driver = s.driver := rfl
@[simp] theorem emit_own (ev : Event) (s : State) : (emit ev s).own = s.own := rfl
@[simp] theorem emit_lvl (ev : Event) (s : State) : (emit ev s).lvl = s.lvl := rfl
@[simp] theorem emit_lock (ev : Event) (s : State) : (emit ev s).lock = s.lock := rfl
@[simp] theorem emit_waiters (ev : Event) (s : State) : (emit ev s).waiters = s.waiters := rfl
@[simp] theorem emit_faulted (ev : Event) (s : State) : (emit ev s).faulted = s.faulted := rfl
@[simp] theorem emit_ctxs (ev : Event) (s : State) : (emit ev s).ctxs = s.ctxs := rfl
@[simp] theorem emit_trace (ev : Event) (s : State) : (emit ev s).trace = s.trace ++ [(s.cur, ev)] := rfl
@[simp] theorem emit_openAnswer (ev : Event) (s : State) : (emit ev s).openAnswer = s.openAnswer := rfl
@[simp] theorem emit_cur (ev : Event) (s : State) : (emit ev s).cur = s.cur := rfl
@[simp] theorem emit_midSegment (ev : Event) (s : State) : (emit ev s).midSegment = s.midSegment := rfl
@[simp] theorem emit_agenda (ev : Event) (s : State) : (emit ev s).agenda = s.agenda := rfl
@[simp] theorem emit_issued (ev : Event) (s : State) : (emit ev s).issued = s.issued := rfl
@[simp] theorem emit_platform (ev : Event) (s : State) : (emit ev s).platform = s.platform := rfl
@[simp] theorem emit_params (ev : Event) (s : State) : (emit ev s).params = s.params := rfl

@[simp] theorem emitAll_driver (evs : List Event) (s : State) : (emitAll evs s).driver = s.driver := rfl
@[simp] theorem emitAll_own (evs : List Event) (s : State) : (emitAll evs s).own = s.own := rfl
@[simp] theorem emitAll_lvl (evs : List Event) (s : State) : (emitAll evs s).lvl = s.lvl := rfl
@[simp] theorem emitAll_lock (evs : List Event) (s : State) : (emitAll evs s).lock = s.lock := rfl
@[simp] theorem emitAll_waiters (evs : List Event) (s : State) : (emitAll evs s).waiters = s.waiters := rfl
@[simp] theorem emitAll_faulted (evs : List Event) (s : State) : (emitAll evs s).faulted = s.faulted := rfl
@[simp] theorem emitAll_ctxs (evs : List Event) (s : State) : (emitAll evs s).ctxs = s.ctxs := rfl
@[simp] theorem emitAll_trace (evs : List Event) (s : State) : (emitAll evs s).trace = s.trace ++ evs.map (fun ev => (s.cur, ev)) := rfl
@[simp] theorem emitAll_openAnswer (evs : List Event) (s : State) : (emitAll evs s).openAnswer = s.openAnswer := rfl
@[simp] theorem emitAll_cur (evs : List Event) (s : State) : (emitAll evs s).cur = s.cur := rfl
@[simp] theorem emitAll_midSegment (evs : List Event) (s : State) : (emitAll evs s).midSegment = s.midSegment := rfl
@[simp] theorem emitAll_agenda (evs : List Event) (s : State) : (emitAll evs s).agenda = s.agenda := rfl
@[simp] theorem emitAll_issued (evs : List Event) (s : State) : (emitAll evs s).issued = s.issued := rfl
@[simp] theorem emitAll_platform (evs : List Event) (s : State) : (emitAll evs s).platform = s.platform := rfl
@[simp] theorem emitAll_params (evs : List Event) (s : State) : (emitAll evs s).params = s.params := rfl

@[simp] theorem setCtx_driver (s : State) (c : Nat) (x : Ctx) : (s.setCtx c x).driver = s.driver := rfl
@[simp] theorem setCtx_own (s : State) (c : Nat) (x : Ctx) : (s.setCtx c x).own = s.own := rfl
@[simp] theorem setCtx_lvl (s : State) (c : Nat) (x : Ctx) : (s.setCtx c x).lvl = s.lvl := rfl
@[simp] theorem setCtx_lock (s : State) (c : Nat) (x : Ctx) : (s.setCtx c x).lock = s.lock := rfl
@[simp] theorem setCtx_waiters (s : State) (c : Nat) (x : Ctx) : (s.setCtx c x).waiters = s.waiters := rfl
@[simp] theorem setCtx_faulted (s : State) (c : Nat) (x : Ctx) : (s.setCtx c x).faulted = s.faulted := rfl
@[simp] theorem setCtx_ctxs (s : State) (c : Nat) (x : Ctx) : (s.setCtx c x).ctxs = slotSet s.ctxs c x := rfl
@[simp] theorem setCtx_trace (s : State) (c : Nat) (x : Ctx) : (s.setCtx c x).trace = s.trace := rfl
@[simp] theorem setCtx_openAnswer (s : State) (c : Nat) (x : Ctx) : (s.setCtx c x).openAnswer = s.openAnswer := rfl
@[simp] theorem setCtx_cur (s : State) (c : Nat) (x : Ctx) : (s.setCtx c x).cur = s.cur := rfl
@[simp] theorem setCtx_midSegment (s : State) (c : Nat) (x : Ctx) : (s.setCtx c x).midSegment = s.midSegment := rfl
@[simp] theorem setCtx_agenda (s : State) (c : Nat) (x : Ctx) : (s.setCtx c x).agenda = s.agenda := rfl
@[simp] theorem setCtx_issued (s : State) (c : Nat) (x : Ctx) : (s.setCtx c x).issued = s.issued := rfl
@[simp] theorem setCtx_platform (s : State) (c : Nat) (x : Ctx) : (s.setCtx c x).platform = s.platform := rfl
@[simp] theorem setCtx_params (s : State) (c : Nat) (x : Ctx) : (s.setCtx c x).params = s.params := rfl

@[simp] theorem setMe_driver (s : State) (x : Ctx) : (s.setMe x).driver = s.driver := rfl
@[simp] theorem setMe_own (s : State) (x : Ctx) : (s.setMe x).own = s.own := rfl
@[simp] theorem setMe_lvl (s : State) (x : Ctx) : (s.setMe x).lvl = s.lvl := rfl
@[simp] theorem setMe_lock (s : State) (x : Ctx) : (s.setMe x).lock = s.lock := rfl
@[simp] theorem setMe_waiters (s : State) (x : Ctx) : (s.setMe x).waiters = s.waiters := rfl
@[simp] theorem setMe_faulted (s : State) (x : Ctx) : (s.setMe x).faulted = s.faulted := rfl
@[simp] theorem setMe_ctxs (s : State) (x : Ctx) : (s.setMe x).ctxs = slotSet s.ctxs s.cur x := rfl
@[simp] theorem setMe_trace (s : State) (x : Ctx) : (s.setMe x).trace = s.trace := rfl
@[simp] theorem setMe_openAnswer (s : State) (x : Ctx) : (s.setMe x).openAnswer = s.openAnswer := rfl
@[simp] theorem setMe_cur (s : State) (x : Ctx) : (s.setMe x).cur = s.cur := rfl
@[simp] theorem setMe_midSegment (s : State) (x : Ctx) : (s.setMe x).midSegment = s.midSegment := rfl
@[simp] theorem setMe_agenda (s : State) (x : Ctx) : (s.setMe x).agenda = s.agenda := rfl
@[simp] theorem setMe_issued (s : State) (x : Ctx) : (s.setMe x).issued = s.issued := rfl
@[simp] theorem setMe_platform (s : State) (x : Ctx) : (s.setMe x).platform = s.platform := rfl
@[simp] theorem setMe_params (s : State) (x : Ctx) : (s.setMe x).params = s.params := rfl

@[simp] theorem setPc_driver (s : State) (pc : Pc) : (s.setPc pc).driver = s.driver := rfl
@[simp] theorem setPc_own (s : State) (pc : Pc) : (s.setPc pc).own = s.own := rfl
@[simp] theorem setPc_lvl (s : State) (pc : Pc) : (s.setPc pc).lvl = s.lvl := rfl
@[simp] theorem setPc_lock (s : State) (pc : Pc) : (s.setPc pc).lock = s.lock := rfl
@[simp] theorem setPc_waiters (s : State) (pc : Pc) : (s.setPc pc).waiters = s.waiters := rfl
@[simp] theorem setPc_faulted (s : State) (pc : Pc) : (s.setPc pc).faulted = s.faulted := rfl
@[simp] theorem setPc_ctxs (s : State) (pc : Pc) : (s.setPc pc).ctxs = slotSet s.ctxs s.cur { slotGet s.ctxs s.cur with pc := pc } := rfl
@[simp] theorem setPc_trace (s : State) (pc : Pc) : (s.setPc pc).trace = s.trace := rfl
@[simp] theorem setPc_openAnswer (s : State) (pc : Pc) : (s.setPc pc).openAnswer = s.openAnswer := rfl
@[simp] theorem setPc_cur (s : State) (pc : Pc) : (s.setPc pc).cur = s.cur := rfl
@[simp] theorem setPc_midSegment (s : State) (pc : Pc) : (s.setPc pc).midSegment = s.midSegment := rfl
@[simp] theorem setPc_agenda (s : State) (pc : Pc) : (s.setPc pc).agenda = s.agenda := rfl
@[simp] theorem setPc_issued (s : State) (pc : Pc) : (s.setPc pc).issued = s.issued := rfl
@[simp] theorem setPc_platform (s : State) (pc : Pc) : (s.setPc pc).platform = s.platform := rfl
@[simp] theorem setPc_params (s : State) (pc : Pc) : (s.setPc pc).params = s.params := rfl

@[simp] theorem endSegment_driver (s : State) : (endSegment s).driver = s.driver := rfl
@[simp] theorem endSegment_own (s : State) : (endSegment s).own = s.own := rfl
@[simp] theorem endSegment_lvl (s : State) : (endSegment s).lvl = s.lvl := rfl
@[simp] theorem endSegment_lock (s : State) : (endSegment s).lock = s.lock := rfl
@[simp] theorem endSegment_waiters (s : State) : (endSegment s).waiters = s.waiters := rfl
@[simp] theorem endSegment_faulted (s : State) : (endSegment s).faulted = s.faulted := rfl
@[simp] theorem endSegment_ctxs (s : State) : (endSegment s).ctxs = s.ctxs := rfl
@[simp] theorem endSegment_trace (s : State) : (endSegment s).trace = s.trace := rfl
@[simp] theorem endSegment_openAnswer (s : State) : (endSegment s).openAnswer = s.openAnswer := rfl
@[simp] theorem endSegment_cur (s : State) : (endSegment s).cur = s.cur := rfl
@[simp] theorem endSegment_midSegment (s : State) : (endSegment s).midSegment = false := rfl
@[simp] theorem endSegment_agenda (s : State) : (endSegment s).agenda = s.agenda := rfl
@[simp] theorem endSegment_issued (s : State) : (endSegment s).issued = s.issued := rfl
@[simp] theorem endSegment_platform (s : State) : (endSegment s).platform = s.platform := rfl
@[simp] theorem endSegment_params (s : State) : (endSegment s).params = s.params := rfl

@[simp] theorem becomeIdle_driver (s : State) : (becomeIdle s).driver = s.driver := rfl
@[simp] theorem becomeIdle_own (s : State) : (becomeIdle s).own = s.own := rfl
@[simp] theorem becomeIdle_lvl (s : State) : (becomeIdle s).lvl = s.lvl := rfl
@[simp] theorem becomeIdle_lock (s : State) : (becomeIdle s).lock = s.lock := rfl
@[simp] theorem becomeIdle_waiters (s : State) : (becomeIdle s).waiters = s.waiters := rfl
@[simp] theorem becomeIdle_faulted (s : State) : (becomeIdle s).faulted = s.faulted := rfl
@[simp] theorem becomeIdle_ctxs (s : State) : (becomeIdle s).ctxs = slotSet s.ctxs s.cur Ctx.idle := rfl
@[simp] theorem becomeIdle_trace (s : State) : (becomeIdle s).trace = s.trace := rfl
@[simp] theorem becomeIdle_openAnswer (s : State) : (becomeIdle s).openAnswer = s.openAnswer := rfl
@[simp] theorem becomeIdle_cur (s : State) : (becomeIdle s).cur = s.cur := rfl
@[simp] theorem becomeIdle_midSegment (s : State) : (becomeIdle s).midSegment = false := rfl
@[simp] theorem becomeIdle_agenda (s : State) : (becomeIdle s).agenda = s.agenda := rfl
@[simp] theorem becomeIdle_issued (s : State) : (becomeIdle s).issued = s.issued := rfl
@[simp] theorem becomeIdle_platform (s : State) : (becomeIdle s).platform = s.platform := rfl
@[simp] theorem becomeIdle_params (s : State) : (becomeIdle s).params = s.params := rfl

@[simp] theorem releaseLock_driver (s : State) : (releaseLock s).driver = s.driver := rfl
@[simp] theorem releaseLock_own (s : State) : (releaseLock s).own = s.own := rfl
@[simp] theorem releaseLock_lvl (s : State) : (releaseLock s).lvl = s.lvl := rfl
@[simp] theorem releaseLock_lock (s : State) : (releaseLock s).lock = .free := rfl
@[simp] theorem releaseLock_waiters (s : State) : (releaseLock s).waiters = s.waiters := rfl
@[simp] theorem releaseLock_faulted (s : State) : (releaseLock s).faulted = s.faulted := rfl
@[simp] theorem releaseLock_ctxs (s : State) : (releaseLock s).ctxs = s.ctxs := rfl
@[simp] theorem releaseLock_trace (s : State) : (releaseLock s).trace = s.trace ++ [(s.cur, .unlock s.cur)] := rfl
@[simp] theorem releaseLock_openAnswer (s : State) : (releaseLock s).openAnswer = s.openAnswer := rfl
@[simp] theorem releaseLock_cur (s : State) : (releaseLock s).cur = s.cur := rfl
@[simp] theorem releaseLock_midSegment (s : State) : (releaseLock s).midSegment = s.midSegment := rfl
@[simp] theorem releaseLock_agenda (s : State) : (releaseLock s).agenda = s.agenda := rfl
@[simp] theorem releaseLock_issued (s : State) : (releaseLock s).issued = s.issued := rfl
@[simp] theorem releaseLock_platform (s : State) : (releaseLock s).platform = s.platform := rfl
@[simp] theorem releaseLock_params (s : State) : (releaseLock s).params = s.params := rfl

@[simp] theorem afterEvents_driver (evs : List Event) (s : State) : (afterEvents evs s).driver = s.driver := rfl
@[simp] theorem afterEvents_own (evs : List Event) (s : State) : (afterEvents evs s).own = s.own := rfl
@[simp] theorem afterEvents_lvl (evs : List Event) (s : State) : (afterEvents evs s).lvl = latchAfter evs s.lvl := rfl
@[simp] theorem afterEvents_lock (evs : List Event) (s : State) : (afterEvents evs s).lock = s.lock := rfl
@[simp] theorem afterEvents_waiters (evs : List Event) (s : State) : (afterEvents evs s).waiters = s.waiters := rfl
@[simp] theorem afterEvents_faulted (evs : List Event) (s : State) : (afterEvents evs s).faulted = s.faulted := rfl
@[simp] theorem afterEvents_ctxs (evs : List Event) (s : State) : (afterEvents evs s).ctxs = s.ctxs := rfl
@[simp] theorem afterEvents_trace (evs : List Event) (s : State) : (afterEvents evs s).trace = s.trace ++ evs.map (fun ev => (s.cur, ev)) := rfl
@[simp] theorem afterEvents_openAnswer (evs : List Event) (s : State) : (afterEvents evs s).openAnswer = s.openAnswer := rfl
@[simp] theorem afterEvents_cur (evs : List Event) (s : State) : (afterEvents evs s).cur = s.cur := rfl
@[simp] theorem afterEvents_midSegment (evs : List Event) (s : State) : (afterEvents evs s).midSegment = s.midSegment := rfl
@[simp] theorem afterEvents_agenda (evs : List Event) (s : State) : (afterEvents evs s).agenda = s.agenda := rfl
@[simp] theorem afterEvents_issued (evs : List Event) (s : State) : (afterEvents evs s).issued = s.issued := rfl
@[simp] theorem afterEvents_platform (evs : List Event) (s : State) : (afterEvents evs s).platform = s.platform := rfl
@[simp] theorem afterEvents_params (evs : List Event) (s : State) : (afterEvents evs s).params = s.params := rfl

@[simp] theorem suspended_driver (us : Nat) (pc : Pc) (s : State) : (suspended us pc s).driver = s.driver := rfl
@[simp] theorem suspended_own (us : Nat) (pc : Pc) (s : State) : (suspended us pc s).own = s.own := rfl
@[simp] theorem suspended_lvl (us : Nat) (pc : Pc) (s : State) : (suspended us pc s).lvl = s.lvl := rfl
@[simp] theorem suspended_lock (us : Nat) (pc : Pc) (s : State) : (suspended us pc s).lock = s.lock := rfl
@[simp] theorem suspended_waiters (us : Nat) (pc : Pc) (s : State) : (suspended us pc s).waiters = s.waiters := rfl
@[simp] theorem suspended_faulted (us : Nat) (pc : Pc) (s : State) : (suspended us pc s).faulted = s.faulted := rfl
@[simp] theorem suspended_ctxs (us : Nat) (pc : Pc) (s : State) : (suspended us pc s).ctxs = slotSet s.ctxs s.cur { slotGet s.ctxs s.cur with pc := pc, wait := some us } := rfl
@[simp] theorem suspended_trace (us : Nat) (pc : Pc) (s : State) : (suspended us pc s).trace = s.trace := rfl
@[simp] theorem suspended_openAnswer (us : Nat) (pc : Pc) (s : State) : (suspended us pc s).openAnswer = s.openAnswer := rfl
@[simp] theorem suspended_cur (us : Nat) (pc : Pc) (s : State) : (suspended us pc s).cur = s.cur := rfl
@[simp] theorem suspended_midSegment (us : Nat) (pc : Pc) (s : State) : (suspended us pc s).midSegment = false := rfl
@[simp] theorem suspended_agenda (us : Nat) (pc : Pc) (s : State) : (suspended us pc s).agenda = s.agenda := rfl
@[simp] theorem suspended_issued (us : Nat) (pc : Pc) (s : State) : (suspended us pc s).issued = s.issued := rfl
@[simp] theorem suspended_platform (us : Nat) (pc : Pc) (s : State) : (suspended us pc s).platform = s.platform := rfl
@[simp] theorem suspended_params (us : Nat) (pc : Pc) (s : State) : (suspended us pc s).params = s.params := rfl

@[simp] theorem withSlot_driver (x : Ctx) (s : State) : (withSlot x s).driver = s.driver := rfl
@[simp] theorem withSlot_own (x : Ctx) (s : State) : (withSlot x s).own = s.own := rfl
@[simp] theorem withSlot_lvl (x : Ctx) (s : State) : (withSlot x s).lvl = s.lvl := rfl
@[simp] theorem withSlot_lock (x : Ctx) (s : State) : (withSlot x s).lock = s.lock := rfl
@[simp] theorem withSlot_waiters (x : Ctx) (s : State) : (withSlot x s).waiters = s.waiters := rfl
@[simp] theorem withSlot_faulted (x : Ctx) (s : State) : (withSlot x s).faulted = s.faulted := rfl
@[simp] theorem withSlot_ctxs (x : Ctx) (s : State) : (withSlot x s).ctxs = slotSet s.ctxs s.cur x := rfl
@[simp] theorem withSlot_trace (x : Ctx) (s : State) : (withSlot x s).trace = s.trace := rfl
@[simp] theorem withSlot_openAnswer (x : Ctx) (s : State) : (withSlot x s).openAnswer = s.openAnswer := rfl
@[simp] theorem withSlot_cur (x : Ctx) (s : State) : (withSlot x s).cur = s.cur := rfl
@[simp] theorem withSlot_midSegment (x : Ctx) (s : State) : (withSlot x s).midSegment = s.midSegment := rfl
@[simp] theorem withSlot_agenda (x : Ctx) (s : State) : (withSlot x s).agenda = s.agenda := rfl
@[simp] theorem withSlot_issued (x : Ctx) (s : State) : (withSlot x s).issued = s.issued := rfl
@[simp] theorem withSlot_platform (x : Ctx) (s : State) : (withSlot x s).platform = s.platform := rfl
@[simp] theorem withSlot_params (x : Ctx) (s : State) : (withSlot x s).params = s.params := rfl

@[simp] theorem ctx_eq (s : State) (c : Nat) : s.ctx c = slotGet s.ctxs c := rfl
@[simp] theorem me_eq (s : State) : s.me = slotGet s.ctxs s.cur := rfl
@[simp] theorem mode_none (s : State) (h : s.driver = none) : s.mode = none := by simp [State.mode, h]
@[simp] theorem mode_some (s : State) (d : Driver) (h : s.driver = some d) : s.mode = some d.mode := by
  simp [State.mode, h]

end Sys2Proof.Laws.State
end

