-- ==== Sys2Proof/Laws/Slots.lean ====
section
/-! SUPPORT. The laws of the context table: read after write, and that every operation keeps its canonical form. -/

namespace Sys2Proof.Laws.Slots

open Sys2Proof Sys2Proof.Machine

/-- What is read back after a write of a slot that is not Idle, in any table. -/
theorem get_set_same {x : Ctx} (hx : x ≠ Ctx.idle) (l : List (Nat × Ctx)) (c : Nat) :
    slotGet (slotSet l c x) c = x := by
  induction l with
  | nil => simp [slotSet, slotCons, hx, slotGet]
  | cons p rest ih =>
    obtain ⟨k, y⟩ := p
    simp only [slotSet]
    split
    · simp [slotCons, hx, slotGet]
    · split
      · simp [slotCons, hx, slotGet]
      · next h1 h2 => simp [slotGet, h1, h2, ih]

/-- A second write of the same slot replaces the first. -/
theorem set_set {x : Ctx} (hx : x ≠ Ctx.idle) (l : List (Nat × Ctx)) (c : Nat) (y : Ctx) :
    slotSet (slotSet l c x) c y = slotSet l c y := by
  induction l with
  | nil => simp [slotSet, slotCons, hx]
  | cons p rest ih =>
    obtain ⟨k, z⟩ := p
    simp only [slotSet]
    split
    · simp [slotCons, hx, slotSet]
    · split
      · simp [slotCons, hx, slotSet]
      · next h1 h2 => simp [slotSet, h1, h2, ih]

/-- Every slot number listed in a canonical table is above a bound that the first one is above. -/
theorem get_below {l : List (Nat × Ctx)} {c : Nat} (h : ∀ p ∈ l, c < p.1) : slotGet l c = Ctx.idle := by
  cases l with
  | nil => rfl
  | cons p rest =>
    obtain ⟨k, y⟩ := p
    have hk : c < k := h (k, y) (by simp)
    simp [slotGet, hk, Nat.ne_of_lt hk]

theorem wf_tail {p : Nat × Ctx} {l : List (Nat × Ctx)} (h : slotsWf (p :: l)) : slotsWf l :=
  ⟨(List.pairwise_cons.1 h.1).2, fun q hq => h.2 q (List.mem_cons_of_mem _ hq)⟩

theorem wf_head {p : Nat × Ctx} {l : List (Nat × Ctx)} (h : slotsWf (p :: l)) : ∀ q ∈ l, p.1 < q.1 :=
  (List.pairwise_cons.1 h.1).1

/-- Read after write in a canonical table. -/
theorem get_set {l : List (Nat × Ctx)} (h : slotsWf l) (c d : Nat) (x : Ctx) :
    slotGet (slotSet l c x) d = if d = c then x else slotGet l d := by
  induction l with
  | nil => by_cases hx : x = Ctx.idle <;> by_cases hd : d = c <;> simp_all [slotSet, slotCons, slotGet]
  | cons p rest ih =>
    obtain ⟨k, y⟩ := p
    have ih := ih (wf_tail h)
    have hk := wf_head h
    simp only [slotSet]
    split
    · next hck =>
      subst hck
      by_cases hx : x = Ctx.idle
      · by_cases hd : d = c
        · subst hd; simp [slotCons, hx, get_below hk]
        · by_cases hlt : d < c
          · have hr : slotGet rest d = Ctx.idle :=
              get_below (fun q hq => Nat.lt_trans hlt (hk q hq))
            simp [slotCons, hx, slotGet, hd, hlt, hr]
          · simp [slotCons, hx, slotGet, hd, hlt]
      · by_cases hd : d = c <;> simp [slotCons, hx, slotGet, hd]
    · next hck =>
      split
      · next hlt =>
        by_cases hx : x = Ctx.idle
        · by_cases hd : d = c
          · subst hd; simp [slotCons, hx, slotGet, hck, hlt]
          · simp [slotCons, hx, hd]
        · by_cases hd : d = c
          · simp [slotCons, hx, slotGet, hd]
          · by_cases hdc : d < c
            · have : d < k := Nat.lt_trans hdc hlt
              simp [slotCons, hx, slotGet, hd, hdc, this, Nat.ne_of_lt this]
            · simp [slotCons, hx, slotGet, hd, hdc]
      · next hlt =>
        by_cases hd : d = c
        · subst hd; simp [slotGet, hck, hlt, ih]
        · by_cases hdk : d = k
          · subst hdk; simp [slotGet, hd]
          · simp [slotGet, hdk, ih, hd]

theorem mem_set {l : List (Nat × Ctx)} {c : Nat} {x : Ctx} {q : Nat × Ctx} (h : q ∈ slotSet l c x) :
    (q = (c, x) ∧ x ≠ Ctx.idle) ∨ q ∈ l := by
  induction l with
  | nil =>
    by_cases hx : x = Ctx.idle <;> simp_all [slotSet, slotCons]
  | cons p rest ih =>
    obtain ⟨k, y⟩ := p
    simp only [slotSet] at h
    split at h
    · by_cases hx : x = Ctx.idle <;> simp_all [slotCons] <;> tauto
    · split at h
      · by_cases hx : x = Ctx.idle <;> simp_all [slotCons]
      · rcases List.mem_cons.1 h with h | h
        · right; simp [h]
        · rcases ih h with h | h
          · exact .inl h
          · right; simp [h]

/-- A write keeps the canonical form. -/
theorem wf_set {l : List (Nat × Ctx)} (h : slotsWf l) (c : Nat) (x : Ctx) : slotsWf (slotSet l c x) := by
  induction l with
  | nil =>
    by_cases hx : x = Ctx.idle <;> simp [slotSet, slotCons, hx, slotsWf]
  | cons p rest ih =>
    obtain ⟨k, y⟩ := p
    have ht := wf_tail h
    have hk := wf_head h
    simp only [slotSet]
    split
    · next hck =>
      subst hck
      by_cases hx : x = Ctx.idle
      · simpa [slotCons, hx] using ht
      · simp only [slotCons, if_neg hx]
        exact ⟨List.pairwise_cons.2 ⟨hk, ht.1⟩, fun q hq => by
          rcases List.mem_cons.1 hq with rfl | hq
          · exact hx
          · exact ht.2 q hq⟩
    · next hck =>
      split
      · next hlt =>
        by_cases hx : x = Ctx.idle
        · simpa [slotCons, hx] using h
        · simp only [slotCons, if_neg hx]
          refine ⟨List.pairwise_cons.2 ⟨fun q hq => ?_, h.1⟩, fun q hq => ?_⟩
          · rcases List.mem_cons.1 hq with rfl | hq
            · exact hlt
            · exact Nat.lt_trans hlt (hk q hq)
          · rcases List.mem_cons.1 hq with rfl | hq
            · exact hx
            · exact h.2 q hq
      · next hlt =>
        have := ih ht
        refine ⟨List.pairwise_cons.2 ⟨fun q hq => ?_, this.1⟩, fun q hq => ?_⟩
        · rcases mem_set hq with ⟨rfl, -⟩ | hq
          · show k < c
            omega
          · exact hk q hq
        · rcases List.mem_cons.1 hq with rfl | hq
          · exact h.2 (k, y) (by simp)
          · exact this.2 q hq

/-- Time passing on one slot's registers. -/
def tickCtx (us : Nat) (x : Ctx) : Ctx := { x with wait := x.wait.map (fun r => r - us) }

theorem tickCtx_idle (us : Nat) (x : Ctx) : tickCtx us x = Ctx.idle ↔ x = Ctx.idle := by
  obtain ⟨op, cfg, msg, pc, idx, lines, lc, w⟩ := x
  cases w <;> simp [tickCtx, Ctx.idle]

/-- Time passes on every slot at once. -/
theorem get_tick (us : Nat) (l : List (Nat × Ctx)) (c : Nat) :
    slotGet (tickSlots us l) c = tickCtx us (slotGet l c) := by
  induction l with
  | nil => rfl
  | cons p rest ih =>
    obtain ⟨k, y⟩ := p
    simp only [tickSlots, List.map_cons, slotGet] at *
    split
    · rfl
    · split
      · rfl
      · exact ih

/-- Time passing keeps the canonical form. -/
theorem wf_tick {l : List (Nat × Ctx)} (h : slotsWf l) (us : Nat) : slotsWf (tickSlots us l) := by
  refine ⟨List.pairwise_map.2 h.1, fun q hq => ?_⟩
  obtain ⟨p, hp, rfl⟩ := List.mem_map.1 hq
  exact fun he => h.2 p hp ((tickCtx_idle us p.2).1 he)

theorem reset_wf : slotsWf State.reset.ctxs := ⟨List.Pairwise.nil, by simp [State.reset]⟩

end Sys2Proof.Laws.Slots
end

