-- ==== Sys2Proof/Laws/Events.lean ====
section
/-! SUPPORT. What the shared operations of Machine/Ops.lean do, once each: pin writes, releases, completion and taking
a fault, in the words of Safety.lean. -/

namespace Sys2Proof.Laws.Events

open Sys2Proof Sys2Proof.Machine Sys2Proof.Safety

/-! ## Pins -/

@[simp] theorem get_set_same {α : Type} (b : PerPin α) (p : Pin) (x : α) : (b.set p x).get p = x := by
  cases p <;> rfl

theorem get_set_other {α : Type} (b : PerPin α) {p q : Pin} (x : α) (h : q ≠ p) :
    (b.set p x).get q = b.get q := by
  cases p <;> cases q <;> first | rfl | exact absurd rfl h

theorem get_set {α : Type} (b : PerPin α) (p q : Pin) (x : α) :
    (b.set p x).get q = if q = p then x else b.get q := by
  split
  · next h => subst h; exact get_set_same b q x
  · next h => exact get_set_other b x h

theorem perPin_ext {α : Type} {a b : PerPin α} (h : ∀ p, a.get p = b.get p) : a = b := by
  have h1 := h .rs; have h2 := h .e; have h3 := h .d0; have h4 := h .d1; have h5 := h .d2
  have h6 := h .d3; have h7 := h .d4; have h8 := h .d5; have h9 := h .d6; have h10 := h .d7
  cases a; cases b
  simp only [PerPin.get] at *
  simp_all

/-! ## Events -/

@[simp] theorem afterEvents_nil (s : State) : afterEvents [] s = s := by simp [afterEvents, latchAfter]

theorem afterEvents_append (a b : List Event) (s : State) :
    afterEvents (a ++ b) s = afterEvents b (afterEvents a s) := by
  simp [afterEvents, latchAfter, List.foldl_append]

/-- An event that is no pin write changes no latch. -/
theorem emit_eq {ev : Event} (h : ∀ p l, ev ≠ .pin p l) (s : State) : emit ev s = afterEvents [ev] s := by
  cases ev <;> first | rfl | exact absurd rfl (h _ _)

/-- Events that are no pin writes change no latch. -/
theorem emitAll_eq {evs : List Event} (h : ∀ p l, Event.pin p l ∉ evs) (s : State) :
    emitAll evs s = afterEvents evs s := by
  have hl : ∀ lvl, latchAfter evs lvl = lvl := by
    induction evs with
    | nil => intro lvl; rfl
    | cons ev rest ih =>
      intro lvl
      have hev : latchEvent lvl ev = lvl := by
        cases ev <;> first | rfl | exact absurd (List.mem_cons_self ..) (h _ _)
      show latchAfter rest (latchEvent lvl ev) = lvl
      rw [hev]
      exact ih (fun p l hp => h p l (List.mem_cons_of_mem _ hp)) lvl
  simp [emitAll, afterEvents, hl]

/-! ## Pin writes -/

theorem setPinLevel_owned {p : Pin} {s : State} (h : s.own.get p = true) (l : Level) :
    setPinLevel p l s = .ok (afterEvents [.pin p l] s) := by
  simp [setPinLevel, h, emit, afterEvents, latchAfter, latchEvent]

theorem setPinLevel_unowned {p : Pin} {s : State} (h : s.own.get p = false) (l : Level) :
    setPinLevel p l s = .raised (.pinNotOwned p) s := by
  simp [setPinLevel, h]

/-- The events of a list of pin writes. -/
def pinEvents (ws : List (Pin × Level)) : List Event := ws.map (fun w => .pin w.1 w.2)

/-- On owned pins every write is made, in order. -/
theorem setPinLevels_owned (ws : List (Pin × Level)) (s : State) (h : ∀ w ∈ ws, s.own.get w.1 = true) :
    setPinLevels ws s = .ok (afterEvents (pinEvents ws) s) := by
  induction ws generalizing s with
  | nil => simp [setPinLevels, pinEvents]
  | cons w rest ih =>
    obtain ⟨p, l⟩ := w
    have hp : s.own.get p = true := h (p, l) (by simp)
    rw [setPinLevels, setPinLevel_owned hp, Res.andThen,
      ih (afterEvents [.pin p l] s) (fun w hw => h w (List.mem_cons_of_mem _ hw)), ← afterEvents_append]
    rfl

/-- The writes stop at the first pin that is not owned. -/
theorem setPinLevels_stops (pre : List (Pin × Level)) (p : Pin) (l : Level) (post : List (Pin × Level)) (s : State)
    (h : ∀ w ∈ pre, s.own.get w.1 = true) (hp : s.own.get p = false) :
    setPinLevels (pre ++ (p, l) :: post) s = .raised (.pinNotOwned p) (afterEvents (pinEvents pre) s) := by
  induction pre generalizing s with
  | nil => simp [setPinLevels, setPinLevel_unowned hp, Res.andThen, pinEvents]
  | cons w rest ih =>
    obtain ⟨q, l'⟩ := w
    have hq : s.own.get q = true := h (q, l') (by simp)
    rw [List.cons_append, setPinLevels, setPinLevel_owned hq, Res.andThen,
      ih (afterEvents [.pin q l'] s) (fun w hw => h w (List.mem_cons_of_mem _ hw)) hp, ← afterEvents_append]
    rfl

/-- Everything a list of pin writes can do. -/
theorem setPinLevels_cases (ws : List (Pin × Level)) (s : State) :
    setPinLevels ws s = .ok (afterEvents (pinEvents ws) s) ∨
    ∃ pre p l post, ws = pre ++ (p, l) :: post ∧ (∀ w ∈ pre, s.own.get w.1 = true) ∧ s.own.get p = false ∧
      setPinLevels ws s = .raised (.pinNotOwned p) (afterEvents (pinEvents pre) s) := by
  induction ws generalizing s with
  | nil => left; simp [setPinLevels, pinEvents]
  | cons w rest ih =>
    obtain ⟨p, l⟩ := w
    by_cases hp : s.own.get p = true
    · rcases ih (afterEvents [.pin p l] s) with h | ⟨pre, q, l', post, rfl, hpre, hq, h⟩
      · left
        rw [setPinLevels, setPinLevel_owned hp, Res.andThen, h, ← afterEvents_append]
        rfl
      · right
        refine ⟨(p, l) :: pre, q, l', post, rfl, ?_, hq, ?_⟩
        · intro w hw
          rcases List.mem_cons.1 hw with rfl | hw
          · exact hp
          · exact hpre w hw
        · rw [setPinLevels, setPinLevel_owned hp, Res.andThen, h, ← afterEvents_append]
          rfl
    · have hp : s.own.get p = false := by simpa using hp
      exact .inr ⟨[], p, l, rest, rfl, by simp, hp, by
        simp [setPinLevels, setPinLevel_unowned hp, Res.andThen, pinEvents]⟩

/-! ## Releases -/

/-- Ownership after a list of pins is released. -/
def disown (pins : List Pin) (own : PerPin Bool) : PerPin Bool := pins.foldl (fun o p => o.set p false) own

theorem disown_get (pins : List Pin) (own : PerPin Bool) (q : Pin) :
    (disown pins own).get q = (own.get q && !pins.contains q) := by
  induction pins generalizing own with
  | nil => simp [disown]
  | cons p rest ih =>
    show (disown rest (own.set p false)).get q = _
    rw [ih, get_set]
    by_cases h : q = p <;> simp [h, beq_iff_eq]

/-- Releasing owned pins without repeats makes one event each. -/
theorem releasePins_owned (pins : List Pin) (s : State) (hn : pins.Nodup) (h : ∀ p ∈ pins, s.own.get p = true) :
    releasePins pins s = .ok (emitAll (disownEvents pins) { s with own := disown pins s.own }) := by
  induction pins generalizing s with
  | nil => simp [releasePins, emitAll, disownEvents, disown]
  | cons p rest ih =>
    have hp : s.own.get p = true := h p (by simp)
    have hn' := List.nodup_cons.1 hn
    rw [releasePins, releasePin, if_pos hp, Res.andThen, ih _ hn'.2 (fun q hq => by
      have hqp : q ≠ p := fun e => hn'.1 (e ▸ hq)
      simpa [get_set_other _ _ hqp] using h q (List.mem_cons_of_mem _ hq))]
    simp [emitAll, emit, disownEvents, disown, List.append_assoc]

/-! ## Completion and faults -/

theorem complete_eq (op : Op) (s : State) : complete op s = afterCompletion [.done op] s := rfl

theorem completeFail_eq (op : Op) (code : Condition) (s : State) :
    completeFail op code s = afterCompletion [.fail op code] s := rfl

theorem afterCompletion_append (a b : List Event) (s : State) :
    afterCompletion b (afterEvents a s) = afterCompletion (a ++ b) s := by
  simp [afterCompletion, afterEvents_append]

/-- Taking a fault, in the words of Safety.lean. -/
theorem raiseFault_eq (r : Raise) (s : State) : raiseFault r s = afterFault (raiseCondition r) s := by
  unfold raiseFault unlockOnFault afterFault
  by_cases h : (slotGet s.ctxs s.cur).op = some .wrmsg ∧ s.lock = .held s.cur
  · obtain ⟨h1, h2⟩ := h
    simp [emit, releaseLock, completeFail, becomeIdle, endSegment, State.setMe, State.setCtx, State.me,
      State.ctx, h1, h2]
  · have hb : ((slotGet s.ctxs s.cur).op == some Op.wrmsg && s.lock == .held s.cur) = false := by
      rw [Bool.eq_false_iff]
      simpa [beq_iff_eq] using h
    cases ho : (slotGet s.ctxs s.cur).op with
    | none =>
      simp [emit, endSegment, State.me, State.ctx, ho]
    | some op =>
      have h' : ¬ (op = .wrmsg ∧ s.lock = .held s.cur) := by simpa [ho] using h
      rw [ho] at hb
      simp only [hb]
      simp [emit, completeFail, becomeIdle, endSegment, State.setMe, State.setCtx, State.me, State.ctx, ho, h']

theorem outcome_raised (r : Raise) (s : State) :
    (Res.raised r s).outcome = .next (afterFault (raiseCondition r) s) := by
  simp [Res.outcome, raiseFault_eq]

end Sys2Proof.Laws.Events
end

