-- ==== Sys2Proof/Laws/Transfer.lean ====
section
/-! SUPPORT. What `Strobe`, `Wait`, `WriteValue`, a step of INITSEQ and `Open` do, once each. -/

namespace Sys2Proof.Laws.Transfer

open Sys2Proof Sys2Proof.Machine Sys2Proof.Safety Sys2Proof.Laws.Events Sys2Proof.Laws.State

/-! ## Strobe -/

/-- The pin writes of a strobe. -/
def strobeWrites (reg : Register) (pins : List Pin) (levels : List Level) : List (Pin × Level) :=
  (.e, .high) :: (.rs, rsLevel reg) :: pins.zip levels ++ [(.e, .low), (.rs, rsLevel reg)]

theorem pinEvents_zip (pins : List Pin) (levels : List Level) :
    pinEvents (pins.zip levels) = List.zipWith .pin pins levels := by
  induction pins generalizing levels with
  | nil => rfl
  | cons p rest ih =>
    cases levels with
    | nil => rfl
    | cons l ls => simpa [pinEvents] using ih ls

theorem pinEvents_strobe (reg : Register) (pins : List Pin) (levels : List Level) :
    pinEvents (strobeWrites reg pins levels) = strobeEvents reg pins levels := by
  have := pinEvents_zip pins levels
  simp only [pinEvents] at this
  simp [pinEvents, strobeWrites, strobeEvents, this]

theorem strobeOp_eq {v : StrobeValue} {s : State} {pins : List Pin} (h : strobePins s.mode v = some pins)
    (reg : Register) : strobeOp reg v s = setPinLevels (strobeWrites reg pins (bitLevels v)) s := by
  unfold strobeOp
  rw [h]
  rfl

theorem strobeWrites_pins {reg : Register} {pins : List Pin} {levels : List Level} {w : Pin × Level}
    (h : w ∈ strobeWrites reg pins levels) : w.1 ∈ Pin.e :: .rs :: pins := by
  simp only [strobeWrites, List.cons_append, List.mem_cons, List.mem_append, List.not_mem_nil, or_false] at h
  rcases h with rfl | rfl | h | rfl | rfl
  · simp
  · simp
  · exact List.mem_cons_of_mem _ (List.mem_cons_of_mem _ (List.of_mem_zip h).1)
  · simp
  · simp

theorem strobeOp_owned {v : StrobeValue} {s : State} {pins : List Pin} (h : strobePins s.mode v = some pins)
    (ho : ownsAll s (.e :: .rs :: pins)) (reg : Register) :
    strobeOp reg v s = .ok (afterEvents (strobeEvents reg pins (bitLevels v)) s) := by
  rw [strobeOp_eq h, setPinLevels_owned _ _ (fun w hw => ho _ (strobeWrites_pins hw)), pinEvents_strobe]

/-- Splitting the events of pin writes splits the writes. -/
theorem pinEvents_split {ws : List (Pin × Level)} {pre : List Event} {p : Pin} {l : Level} {post : List Event}
    (h : pinEvents ws = pre ++ .pin p l :: post) :
    ∃ wpre wpost, ws = wpre ++ (p, l) :: wpost ∧ pinEvents wpre = pre ∧ pinEvents wpost = post := by
  obtain ⟨a, b, rfl, ha, hb⟩ := List.map_eq_append_iff.1 h
  obtain ⟨w, c, rfl, hw, hc⟩ := List.map_eq_cons_iff.1 hb
  obtain ⟨q, l'⟩ := w
  simp only [Event.pin.injEq] at hw
  obtain ⟨rfl, rfl⟩ := hw
  exact ⟨a, c, rfl, ha, hc⟩

/-- Pin writes whose events stop at a pin that is not owned. -/
theorem setPinLevels_stopsAfter {ws : List (Pin × Level)} {s : State} {pre : List Event}
    {p : Pin} (h : stopsAfter s (pinEvents ws) pre p) : setPinLevels ws s = .raised (.pinNotOwned p) (afterEvents pre s) := by
  obtain ⟨l, post, he, hpre, hp⟩ := h
  obtain ⟨wpre, wpost, rfl, rfl, rfl⟩ := pinEvents_split he
  exact setPinLevels_stops wpre p l wpost s (fun w hw => hpre w.1 w.2 (List.mem_map.2 ⟨w, hw, rfl⟩)) hp

theorem strobeOp_stops {v : StrobeValue} {s : State} {pins : List Pin} {reg : Register} {pre : List Event}
    {p : Pin} (h : strobePins s.mode v = some pins) (hs : stopsAfter s (strobeEvents reg pins (bitLevels v)) pre p) :
    strobeOp reg v s = .raised (.pinNotOwned p) (afterEvents pre s) := by
  rw [strobeOp_eq h]
  exact setPinLevels_stopsAfter (by rwa [pinEvents_strobe])

/-- A strobe with `E` not owned raises at once, with a mode or without. -/
theorem strobeOp_unowned {s : State} (he : s.own.get .e = false) (reg : Register) (v : StrobeValue) :
    strobeOp reg v s = .raised (.pinNotOwned .e) s := by
  unfold strobeOp
  split <;> simp [setPinLevels, setPinLevel_unowned he, Res.andThen]

/-- The pin a write operation's fault can name: one that is not owned, or, on an Absent driver that owns `E`, any. -/
def faultPin (s : State) (p : Pin) : Prop := s.own.get p = false ∨ s.driver = none ∧ s.own.get .e = true

theorem absentPin_unowned {s : State} (h : s.own.get .e = false) : absentPin s = .e := by simp [absentPin, h]

theorem faultPin_absent {s : State} (h : s.driver = none) : faultPin s (absentPin s) := by
  cases he : s.own.get .e with
  | false => exact .inl (by rw [absentPin_unowned he, he])
  | true => exact .inr ⟨h, he⟩

theorem driver_of_mode {s : State} (h : s.mode = none) : s.driver = none := by simpa [State.mode] using h

/-- Everything a strobe can do. -/
theorem strobeOp_cases (reg : Register) (v : StrobeValue) (s : State) :
    (∃ evs, (∀ ev ∈ evs, ∃ p l, ev = Event.pin p l) ∧ strobeOp reg v s = .ok (afterEvents evs s)) ∨
    (∃ evs p, (∀ ev ∈ evs, ∃ p l, ev = Event.pin p l) ∧ faultPin s p ∧
      strobeOp reg v s = .raised (.pinNotOwned p) (afterEvents evs s)) := by
  have hpin : ∀ ws : List (Pin × Level), ∀ ev ∈ pinEvents ws, ∃ p l, ev = Event.pin p l := by
    intro ws ev hev
    obtain ⟨w, -, rfl⟩ := List.mem_map.1 hev
    exact ⟨w.1, w.2, rfl⟩
  cases h : strobePins s.mode v with
  | some pins =>
    rcases setPinLevels_cases (strobeWrites reg pins (bitLevels v)) s with hc | ⟨pre, p, l, post, -, -, hp, hc⟩
    · exact .inl ⟨_, hpin _, by rw [strobeOp_eq h, hc]⟩
    · exact .inr ⟨pinEvents pre, p, hpin pre, .inl hp, by rw [strobeOp_eq h, hc]⟩
  | none =>
    rcases setPinLevels_cases [(Pin.e, .high), (.rs, rsLevel reg)] s with hc | ⟨pre, p, l, post, hw, hpre, hp, hc⟩
    · have hd : s.driver = none := by
        cases v <;> simp [strobePins] at h
        exact driver_of_mode h
      exact .inr ⟨pinEvents [(Pin.e, .high), (.rs, rsLevel reg)], _, hpin _,
        faultPin_absent (s := afterEvents (pinEvents [(Pin.e, .high), (.rs, rsLevel reg)]) s) hd, by
        unfold strobeOp; rw [h]; simp [hc, Res.andThen, raiseAbsent]⟩
    · exact .inr ⟨pinEvents pre, p, hpin pre, .inl hp, by unfold strobeOp; rw [h]; simp [hc, Res.andThen]⟩

/-- A strobe of four bits without a mode raises at the read of `mode`, after the writes of `E` and `RS`. -/
theorem strobeOp_noMode {s : State} (h : s.mode = none) (ho : ownsAll s [.e, .rs]) (reg : Register) (b : Nibble) :
    strobeOp reg (.four b) s =
      raiseAbsent (afterEvents [.pin .e .high, .pin .rs (rsLevel reg)] s) := by
  have hw := setPinLevels_owned [(Pin.e, .high), (.rs, rsLevel reg)] s (by
    intro w hw
    simp only [List.mem_cons, List.not_mem_nil, or_false] at hw
    rcases hw with rfl | rfl <;> exact ho _ (by simp))
  have hn : strobePins s.mode (.four b) = none := by rw [h]; rfl
  unfold strobeOp
  rw [hn]
  simp only
  rw [hw]
  rfl

/-- ... or before, at `RS`. -/
theorem strobeOp_noMode_rs {s : State} (h : s.mode = none) (he : s.own.get .e = true) (hr : s.own.get .rs = false)
    (reg : Register) (b : Nibble) :
    strobeOp reg (.four b) s = .raised (.pinNotOwned .rs) (afterEvents [.pin .e .high] s) := by
  have h2 := setPinLevel_unowned (p := .rs) (s := afterEvents [.pin .e .high] s) hr (rsLevel reg)
  simp [strobeOp, strobePins, h, setPinLevels, setPinLevel_owned he, Res.andThen, h2]

/-! ## Wait -/

theorem waitOp_eq (t : WaitTime) (s : State) :
    waitOp t s = suspended (waitUs t) (slotGet s.ctxs s.cur).pc (afterEvents [.wait (waitUs t)] s) := rfl

theorem waitOp_setPc (t : WaitTime) {pc : Pc} (h : pc ≠ .pos .finish) (s : State) :
    waitOp t (s.setPc pc) = suspended (waitUs t) pc (afterEvents [.wait (waitUs t)] s) := by
  have hx : ({ slotGet s.ctxs s.cur with pc := pc } : Ctx) ≠ Ctx.idle := by
    intro he
    exact h (congrArg Ctx.pc he)
  simp [waitOp_eq, suspended, afterEvents, Slots.get_set_same hx, Slots.set_set hx, State.setPc, State.setMe,
    State.setCtx, State.me, State.ctx]

/-! ## WriteValue -/

theorem pins_fourBit {s : State} (h : s.mode = some .fourBit) (b : Nibble) :
    strobePins s.mode (.four b) = some [.d4, .d5, .d6, .d7] := by simp [strobePins, h, dataPinsOf]

theorem pins_eightBit (m : Option Mode) (b : Byte) :
    strobePins m (.eight b) = some [.d0, .d1, .d2, .d3, .d4, .d5, .d6, .d7] := rfl

/-- What a `WriteValue` does once its strobes are made. -/
def writeTail (ret : Ret) (s : State) : State := waitOp .exec (s.setPc (.execwait ret))

theorem writeTail_eq (ret : Ret) (s : State) :
    writeTail ret s = suspended 40 (.execwait ret) (afterEvents [.wait 40] s) := waitOp_setPc .exec (by simp) s

theorem writeValueOp_owned {s : State} {m : Mode} (h : s.mode = some m) (ho : ownsAll s (openList m))
    (reg : Register) (v : Byte) (ret : Ret) :
    writeValueOp reg v ret s = .ok (suspended 40 (.execwait ret) (afterEvents (writeEvents m reg v) s)) := by
  unfold writeValueOp writeStrobesOp
  cases m with
  | fourBit =>
    have ho' : ∀ t : State, t.own = s.own → ownsAll t (.e :: .rs :: [.d4, .d5, .d6, .d7]) := by
      intro t ht p hp
      rw [ht]
      refine ho p ?_
      revert hp
      cases p <;> simp [openList, dataPinsOf]
    rw [h]
    simp only
    rw [strobeOp_owned (pins_fourBit h _) (ho' s rfl), Res.andThen]
    have h2 := strobeOp_owned (s := afterEvents (strobeEvents reg [Pin.d4, .d5, .d6, .d7]
      (bitLevels (.four (hiNibble v)))) s) (v := .four (loNibble v))
      (pins_fourBit (s := afterEvents _ s) h _) (ho' _ rfl) reg
    rw [h2, Res.andThen, waitOp_setPc .exec (by simp), ← afterEvents_append, ← afterEvents_append]
    rfl
  | eightBit =>
    have ho' : ownsAll s (.e :: .rs :: [.d0, .d1, .d2, .d3, .d4, .d5, .d6, .d7]) := by
      intro p hp
      refine ho p ?_
      cases p <;> simp [openList, dataPinsOf]
    rw [h]
    simp only
    rw [strobeOp_owned (pins_eightBit _ _) ho', Res.andThen, waitOp_setPc .exec (by simp), ← afterEvents_append]
    rfl

theorem stopsAfter_append {s : State} {a b pre : List Event} {p : Pin} (h : stopsAfter s (a ++ b) pre p) :
    stopsAfter s a pre p ∨ ∃ pre', pre = a ++ pre' ∧ stopsAfter s b pre' p ∧
      ∀ q l, Event.pin q l ∈ a → s.own.get q = true := by
  obtain ⟨l, post, he, hpre, hp⟩ := h
  rcases List.append_eq_append_iff.1 he with ⟨a', rfl, hb⟩ | ⟨c', ha, hb⟩
  · exact .inr ⟨a', rfl, ⟨l, post, hb, fun q l' hq => hpre q l' (List.mem_append_right _ hq), hp⟩,
      fun q l' hq => hpre q l' (List.mem_append_left _ hq)⟩
  · cases c' with
    | nil =>
      refine .inr ⟨[], by simpa using ha.symm, ⟨l, post, by simpa using hb.symm, by simp, hp⟩, ?_⟩
      intro q l' hq
      exact hpre q l' (by simpa [ha] using hq)
    | cons ev rest =>
      simp only [List.cons_append, List.cons.injEq] at hb
      obtain ⟨rfl, -⟩ := hb
      exact .inl ⟨l, rest, ha, hpre, hp⟩

/-- A four-bit strobe writes each of its pins. -/
theorem fourBit_pin_written (reg : Register) (b : Nibble) {p : Pin} (h : p ∈ [Pin.e, .rs, .d4, .d5, .d6, .d7]) :
    ∃ l, Event.pin p l ∈ strobeEvents reg [.d4, .d5, .d6, .d7] (bitLevels (.four b)) := by
  simp only [List.mem_cons, List.not_mem_nil, or_false] at h
  rcases h with rfl | rfl | rfl | rfl | rfl | rfl
  · exact ⟨.high, by simp [strobeEvents]⟩
  · exact ⟨rsLevel reg, by simp [strobeEvents]⟩
  · exact ⟨levelOf (b.getLsbD 0), by simp [strobeEvents, bitLevels]⟩
  · exact ⟨levelOf (b.getLsbD 1), by simp [strobeEvents, bitLevels]⟩
  · exact ⟨levelOf (b.getLsbD 2), by simp [strobeEvents, bitLevels]⟩
  · exact ⟨levelOf (b.getLsbD 3), by simp [strobeEvents, bitLevels]⟩

theorem writeValueOp_stops {s : State} {m : Mode} {reg : Register} {v : Byte} {pre : List Event} {p : Pin}
    (h : s.mode = some m) (hs : stopsAfter s (writeStrobes m reg v) pre p) (ret : Ret) :
    writeValueOp reg v ret s = .raised (.pinNotOwned p) (afterEvents pre s) := by
  unfold writeValueOp writeStrobesOp
  cases m with
  | fourBit =>
    rw [h]
    simp only
    rcases stopsAfter_append hs with hs1 | ⟨pre', rfl, hs2, hown⟩
    · rw [strobeOp_stops (pins_fourBit h (hiNibble v)) hs1]
      rfl
    · have ho : ownsAll s (.e :: .rs :: [.d4, .d5, .d6, .d7]) := by
        intro p hp
        obtain ⟨l, hl⟩ := fourBit_pin_written reg (hiNibble v) hp
        exact hown p l hl
      rw [strobeOp_owned (pins_fourBit h _) ho, Res.andThen]
      have hp : ∀ t : State, t.mode = s.mode → t.own = s.own →
          strobeOp reg (.four (loNibble v)) t = .raised (.pinNotOwned p) (afterEvents pre' t) := fun t hm ht =>
        strobeOp_stops (pins_fourBit (hm.trans h) (loNibble v)) (by unfold stopsAfter; rw [ht]; exact hs2)
      rw [hp (afterEvents _ s) rfl rfl, Res.andThen, ← afterEvents_append]
      rfl
  | eightBit =>
    rw [h]
    simp only
    rw [strobeOp_stops (pins_eightBit s.mode v) hs]
    rfl

/-- Without a mode a `WriteValue` raises at its read of `mode`: no pin is written. -/
theorem writeValueOp_noMode {s : State} (h : s.mode = none) (reg : Register) (v : Byte) (ret : Ret) :
    writeValueOp reg v ret s = raiseAbsent s := by
  unfold writeValueOp writeStrobesOp; rw [h]; rfl

/-- Everything the strobes of a `WriteValue` can do. -/
theorem writeStrobesOp_cases (reg : Register) (v : Byte) (s : State) :
    (∃ evs, (∀ ev ∈ evs, ∃ p l, ev = Event.pin p l) ∧ writeStrobesOp reg v s = .ok (afterEvents evs s)) ∨
    (∃ evs p, (∀ ev ∈ evs, ∃ p l, ev = Event.pin p l) ∧ faultPin s p ∧
      writeStrobesOp reg v s = .raised (.pinNotOwned p) (afterEvents evs s)) := by
  unfold writeStrobesOp
  split
  · rcases strobeOp_cases reg (.four (hiNibble v)) s with ⟨e1, h1, hc⟩ | ⟨e1, p, h1, hr, hc⟩
    · rw [hc, Res.andThen]
      rcases strobeOp_cases reg (.four (loNibble v)) (afterEvents e1 s) with ⟨e2, h2, hc2⟩ | ⟨e2, p, h2, hr, hc2⟩ <;>
        rw [hc2, ← afterEvents_append]
      · exact .inl ⟨_, fun ev hev => (List.mem_append.1 hev).elim (h1 ev) (h2 ev), rfl⟩
      · exact .inr ⟨_, p, fun ev hev => (List.mem_append.1 hev).elim (h1 ev) (h2 ev), hr, rfl⟩
    · exact .inr ⟨e1, p, h1, hr, by rw [hc]; rfl⟩
  · exact strobeOp_cases reg (.eight v) s
  · next hm => exact .inr ⟨[], absentPin s, by simp, faultPin_absent (driver_of_mode hm), by simp [raiseAbsent]⟩

/-- Everything a `WriteValue` can do. -/
theorem writeValueOp_cases (reg : Register) (v : Byte) (ret : Ret) (s : State) :
    (∃ evs, (∀ ev ∈ evs, ∃ p l, ev = Event.pin p l) ∧
      writeValueOp reg v ret s = .ok (suspended 40 (.execwait ret) (afterEvents (evs ++ [.wait 40]) s))) ∨
    (∃ evs p, (∀ ev ∈ evs, ∃ p l, ev = Event.pin p l) ∧ faultPin s p ∧
      writeValueOp reg v ret s = .raised (.pinNotOwned p) (afterEvents evs s)) := by
  unfold writeValueOp
  rcases writeStrobesOp_cases reg v s with ⟨e, h, hc⟩ | ⟨e, r, h, hr, hc⟩ <;> rw [hc, Res.andThen]
  · exact .inl ⟨e, h, by rw [waitOp_setPc .exec (by simp), ← afterEvents_append]; rfl⟩
  · exact .inr ⟨e, r, h, hr, rfl⟩

/-! ## A step of INITSEQ -/

theorem initStepOp_owned {s : State} {k : InitStep} {pins : List Pin}
    (h : strobePins s.mode (.four (initNibble k)) = some pins) (ho : ownsAll s (.e :: .rs :: pins)) :
    initStepOp k s = .ok (suspended (waitUs (initWait k)) (.pos (.seqwait k))
      (afterEvents (strobeEvents .instruction pins (bitLevels (.four (initNibble k)))
        ++ [.wait (waitUs (initWait k))]) s)) := by
  rw [initStepOp, strobeOp_owned h ho, Res.andThen, waitOp_setPc _ (by simp), ← afterEvents_append]

theorem initStepOp_stops {s : State} {k : InitStep} {pins : List Pin} {pre : List Event}
    (h : strobePins s.mode (.four (initNibble k)) = some pins)
    {p : Pin} (hs : stopsAfter s (strobeEvents .instruction pins (bitLevels (.four (initNibble k)))) pre p) :
    initStepOp k s = .raised (.pinNotOwned p) (afterEvents pre s) := by
  rw [initStepOp, strobeOp_stops h hs]
  rfl

theorem initStepOp_unowned {s : State} (he : s.own.get .e = false) (k : InitStep) :
    initStepOp k s = .raised (.pinNotOwned .e) s := by
  rw [initStepOp, strobeOp_unowned he]
  rfl

/-- Everything a step of INITSEQ can do. -/
theorem initStepOp_cases (k : InitStep) (s : State) :
    (∃ evs, (∀ ev ∈ evs, ∃ p l, ev = Event.pin p l) ∧
      initStepOp k s = .ok (suspended (waitUs (initWait k)) (.pos (.seqwait k))
        (afterEvents (evs ++ [.wait (waitUs (initWait k))]) s))) ∨
    (∃ evs p, (∀ ev ∈ evs, ∃ p l, ev = Event.pin p l) ∧ faultPin s p ∧
      initStepOp k s = .raised (.pinNotOwned p) (afterEvents evs s)) := by
  unfold initStepOp
  rcases strobeOp_cases .instruction (.four (initNibble k)) s with ⟨e, h, hc⟩ | ⟨e, r, h, hr, hc⟩
  · exact .inl ⟨e, h, by rw [hc, Res.andThen, waitOp_setPc _ (by simp), ← afterEvents_append]⟩
  · exact .inr ⟨e, r, h, hr, by rw [hc]; rfl⟩

/-! ## Open -/

theorem firstBadPin_none {pl : Platform} {pins : List Pin}
    (h : ∀ p ∈ pins, pinBit pl.invalid p = false ∧ pinBit pl.unavail p = false) : firstBadPin pl pins = none := by
  induction pins with
  | nil => rfl
  | cons p rest ih =>
    obtain ⟨h1, h2⟩ := h p (by simp)
    simp [firstBadPin, h1, h2, ih (fun q hq => h q (List.mem_cons_of_mem _ hq))]

theorem firstBadPin_skip {pl : Platform} (pre rest : List Pin)
    (h : ∀ p ∈ pre, pinBit pl.invalid p = false ∧ pinBit pl.unavail p = false) :
    firstBadPin pl (pre ++ rest) = firstBadPin pl rest := by
  induction pre with
  | nil => rfl
  | cons p pre ih =>
    obtain ⟨h1, h2⟩ := h p (by simp)
    simp [firstBadPin, h1, h2, ih (fun q hq => h q (List.mem_cons_of_mem _ hq))]

/-- Ownership and levels after a list of pins is acquired. -/
def ownAfter (pins : List Pin) (own : PerPin Bool) : PerPin Bool := pins.foldl (fun o p => o.set p true) own
def padAfter (pad : BitVec 10) (pins : List Pin) (lvl : PerPin Level) : PerPin Level :=
  pins.foldl (fun l p => l.set p (levelOf (pinBit pad p))) lvl

theorem ownAfter_get (pins : List Pin) (own : PerPin Bool) (q : Pin) :
    (ownAfter pins own).get q = (own.get q || pins.contains q) := by
  induction pins generalizing own with
  | nil => simp [ownAfter]
  | cons p rest ih =>
    show (ownAfter rest (own.set p true)).get q = _
    rw [ih, get_set]
    by_cases h : q = p <;> simp [h]

theorem padAfter_get_other (pad : BitVec 10) {pins : List Pin} (lvl : PerPin Level) {q : Pin} (h : q ∉ pins) :
    (padAfter pad pins lvl).get q = lvl.get q := by
  induction pins generalizing lvl with
  | nil => rfl
  | cons p rest ih =>
    simp only [List.mem_cons, not_or] at h
    show (padAfter pad rest (lvl.set p _)).get q = _
    rw [ih _ h.2, get_set_other _ _ h.1]

theorem padAfter_get_mem (pad : BitVec 10) {pins : List Pin} (lvl : PerPin Level) {q : Pin} (h : q ∈ pins) :
    (padAfter pad pins lvl).get q = levelOf (pinBit pad q) := by
  induction pins generalizing lvl with
  | nil => simp at h
  | cons p rest ih =>
    show (padAfter pad rest (lvl.set p _)).get q = _
    by_cases hq : q ∈ rest
    · exact ih _ hq
    · rw [padAfter_get_other _ _ hq]
      rcases List.mem_cons.1 h with rfl | h
      · simp
      · exact absurd h hq

theorem acquireAll_eq (pins : List Pin) (s : State) :
    pins.foldl acquirePin s = { s with
      own := ownAfter pins s.own, lvl := padAfter s.platform.padLevel pins s.lvl
      trace := s.trace ++ pins.map (fun p => (s.cur, Event.own p)) } := by
  induction pins generalizing s with
  | nil => simp [ownAfter, padAfter]
  | cons p rest ih =>
    rw [List.foldl_cons, ih]
    simp [acquirePin, emit, ownAfter, padAfter]

theorem openPins_ok {pins : List Pin} {s : State} (h : firstBadPin s.platform pins = none) :
    openPins pins s = { s with
      own := ownAfter pins s.own, lvl := padAfter s.platform.padLevel pins s.lvl, openAnswer := none
      trace := s.trace ++ pins.map (fun p => (s.cur, Event.own p)) } := by
  rw [openPins, h]
  exact acquireAll_eq pins { s with openAnswer := none }

theorem openPins_bad {pins : List Pin} {s : State} {x : OpenFailure} (h : firstBadPin s.platform pins = some x) :
    openPins pins s = { s with openAnswer := some x } := by
  rw [openPins, h]

end Sys2Proof.Laws.Transfer
end

