-- ==== Sys2Proof/Laws/Steps.lean ====
section
/-! SUPPORT. What a step inside a segment is, and the words of Safety.lean for the sequencer's own writes. -/

namespace Sys2Proof.Laws.Steps

open Sys2Proof Sys2Proof.Machine Sys2Proof.Safety Sys2Proof.Laws Sys2Proof.Laws.State Sys2Proof.Laws.Events Sys2Proof.Laws.Transfer

/-- A part that raises `PinNotOwned` ends in taking that fault. -/
theorem outcome_pinNotOwned {r : Res} {p : Pin} {s : State} (h : r = .raised (.pinNotOwned p) s) :
   r.outcome = .next (afterFault (.pinNotOwned p) s) := by rw [h, outcome_raised]; rfl

/-- A read of `mode`, `width` or `height` of an Absent driver ends in taking the fault at `absentPin`. -/
theorem outcome_absent {r : Res} {s : State} (h : r = raiseAbsent s) :
   r.outcome = .next (afterFault (.pinNotOwned (absentPin s)) s) := outcome_pinNotOwned h

/-- ... which is `E`, where `E` is not owned. -/
theorem outcome_absent_e {r : Res} {s : State} (he : s.own.get .e = false) (h : r = raiseAbsent s) :
   r.outcome = .next (afterFault (.pinNotOwned .e) s) := by rw [outcome_absent h, absentPin_unowned he]

/-- The mode of a Present driver. -/
theorem mode_of_driver {s : State} {d : Driver} (h : s.driver = some d) : s.mode = some d.mode := by simp [State.mode, h]

/-- An Absent driver has no mode. -/
theorem mode_of_absent {s : State} (h : s.driver = none) : s.mode = none := by simp [State.mode, h]

/-- The waiters after one more. -/
theorem mem_insertWaiter (c d : Nat) (l : List Nat) : d ∈ insertWaiter c l ↔ d = c ∨ d ∈ l := by
  induction l with
  | nil => simp [insertWaiter]
  | cons k rest ih =>
    simp only [insertWaiter]; split
    · next h => subst h; simp
    · split
      · simp
      · simp [ih]; tauto

/-- One more waiter keeps the list rising. -/
theorem insertWaiter_rising (c : Nat) (l : List Nat) (h : l.Pairwise (· < ·)) : (insertWaiter c l).Pairwise (· < ·) := by
  induction l with
  | nil => simp [insertWaiter]
  | cons k rest ih =>
    have h1 := List.pairwise_cons.1 h
    simp only [insertWaiter]; split
    · exact h
    · split
      · next hlt => exact List.pairwise_cons.2 ⟨by intro a ha; rcases List.mem_cons.1 ha with rfl | ha; exact hlt; exact Nat.lt_trans hlt (h1.1 a ha), h⟩
      · refine List.pairwise_cons.2 ⟨?_, ih h1.2⟩
        intro a ha; rw [mem_insertWaiter] at ha; rcases ha with rfl | ha
        · omega
        · exact h1.1 a ha

/-- A step inside a segment is what the running context does next. -/
theorem step_inSegment {op : Op} {s : State} (h : inSegment op s) : step s = runAction (nextAction s) := by
  obtain ⟨hi, hm, ha, ho⟩ := h
  simp only [step, hi, hm, if_true, segmentStep]

/-- What the running context does next is said by its position. -/
theorem nextAction_op {op : Op} {s : State} (h : (slotGet s.ctxs s.cur).op = some op) : nextAction s = (match s.me.pc with
    | .execwait r => returnAction r s
    | .pos p => positionAction op p s) := by
  have ho : s.me.op = some op := h
  (simp only [nextAction, ho]) <;> rfl

/-- ... and that is said by its position. -/
theorem step_atPosition {op : Op} {s : State} (h : inSegment op s) : step s = runAction (match s.me.pc with
    | .execwait r => returnAction r s
    | .pos p => positionAction op p s) := by
  rw [step_inSegment h, nextAction_op h.2.2.2]

/-- Writing the running slot, in the words of Safety.lean. -/
theorem setMe_eq (x : Ctx) (s : State) : s.setMe x = withSlot x s := rfl

/-- Setting the position, in the words of Safety.lean. -/
theorem setPc_eq (pc : Pc) (s : State) : s.setPc pc = withSlot { slotGet s.ctxs s.cur with pc := pc } s := rfl

/-- A slot that runs an operation is not Idle. -/
theorem ne_idle_of_op {x : Ctx} {op} (h : x.op = some op) : x ≠ Ctx.idle := by rintro rfl; simp [Ctx.idle] at h

/-- Reading back the running slot. -/
theorem get_withSlot {x : Ctx} (hx : x ≠ Ctx.idle) (s : State) : slotGet (withSlot x s).ctxs (withSlot x s).cur = x := Slots.get_set_same hx _ _

/-- Reading back the running slot after events. -/
theorem get_withSlot_events {x : Ctx} (hx : x ≠ Ctx.idle) (s : State) (evs) : slotGet (afterEvents evs (withSlot x s)).ctxs (afterEvents evs (withSlot x s)).cur = x := Slots.get_set_same hx _ _

/-- The instruction of a step of INITSEQ. -/
theorem exec_initInstr (k : InitStep) (s : State) : exec (initInstr k) s = (initStepOp k s).outcome := by cases k <;> rfl

/-- The warnings of a CHAR on a Present driver, as events. -/
theorem charWarnings_events (s : State) (d : Driver) :
  (charWarnings s.me.lineChars d.width s.me.lines d.height).map Event.evt = (if (slotGet s.ctxs s.cur).lineChars = d.width then [Event.evt .overrun] else [])
      ++ (if d.height < (slotGet s.ctxs s.cur).lines then [Event.evt .overflow] else []) := by
  simp only [charWarnings, overrunTest, overflowTest, State.me, State.ctx, beq_iff_eq, decide_eq_true_eq, List.map_append]
  by_cases h1 : (slotGet s.ctxs s.cur).lineChars = d.width <;>
    by_cases h2 : d.height < (slotGet s.ctxs s.cur).lines <;> simp [h1, h2]

/-- Warnings write no pin. -/
theorem charWarnings_no_pin (a b c d : Nat) (p l) : Event.pin p l ∉ (charWarnings a b c d).map Event.evt := by simp

/-- A CHAR on a Present driver: its warnings, then its `WriteValue`. -/
theorem charOp_present {s : State} {d : Driver} (hd : s.driver = some d) (ch : Byte) :
  charOp ch s = writeValueOp .data ch .char (afterEvents ((charWarnings s.me.lineChars d.width s.me.lines d.height).map .evt) s) := by
  unfold charOp; rw [hd]; simp only; rw [emitAll_eq (charWarnings_no_pin _ _ _ _)]

/-- A CHAR on an Absent driver raises at its read of `width`. -/
theorem charOp_absent {s : State} (hd : s.driver = none) (ch : Byte) : charOp ch s = raiseAbsent s := by
  unfold charOp; rw [hd]

/-- Everything a CHAR can do up to its suspension. -/
theorem charOp_cases (ch : Byte) (s : State) :
    (∃ evs, (∀ ev ∈ evs, (∃ p l, ev = Event.pin p l) ∨ ev = .wait 40 ∨ ∃ c, ev = .evt c) ∧
      charOp ch s = .ok (suspended 40 (.execwait .char) (afterEvents evs s))) ∨
    (∃ evs p, (∀ ev ∈ evs, (∃ p l, ev = Event.pin p l) ∨ ev = .wait 40 ∨ ∃ c, ev = .evt c) ∧ faultPin s p ∧
      charOp ch s = .raised (.pinNotOwned p) (afterEvents evs s)) := by
  cases hd : s.driver with
  | none => exact .inr ⟨[], absentPin s, by simp, faultPin_absent hd, by rw [charOp_absent hd]; simp [raiseAbsent]⟩
  | some d =>
    rw [charOp_present hd]
    have hw : ∀ ev ∈ (charWarnings s.me.lineChars d.width s.me.lines d.height).map Event.evt, ∃ c, ev = .evt c := by
      intro ev hev; obtain ⟨c, -, rfl⟩ := List.mem_map.1 hev; exact ⟨c, rfl⟩
    generalize (charWarnings s.me.lineChars d.width s.me.lines d.height).map Event.evt = ws at *
    rcases writeValueOp_cases .data ch .char (afterEvents ws s) with ⟨e, h, hc⟩ | ⟨e, r, h, hr, hc⟩ <;>
      rw [hc, ← afterEvents_append]
    · refine .inl ⟨_, ?_, rfl⟩
      intro ev hev; simp only [List.mem_append, List.mem_singleton] at hev
      rcases hev with hev | hev | hev
      · exact .inr (.inr (hw ev hev))
      · exact .inl (h ev hev)
      · exact .inr (.inl hev)
    · refine .inr ⟨_, r, ?_, hr, rfl⟩
      intro ev hev; simp only [List.mem_append] at hev
      rcases hev with hev | hev
      · exact .inr (.inr (hw ev hev))
      · exact .inl (h ev hev)

/-- What the release segment of DISPOSE does. -/
theorem disposeRelease_outcome (s : State) : (∀ d, s.driver = some d → (∀ p, s.own.get p = ownedIn d.mode p) →
      ∃ t, (disposeRelease s).outcome = .next t ∧ (∀ p, t.own.get p = false) ∧
        t = { afterCompletion (disownEvents (openList d.mode) ++ [.done .dispose]) s with
          driver := none, own := t.own }) ∧
    (s.own.get .rs = false → (disposeRelease s).outcome = .next (afterFault (.doubleRelease .rs) s)) := by
  refine ⟨fun d hd ho => ?_, fun ho => ?_⟩
  · simp only [disposeRelease, mode_of_driver hd]
    rw [releasePins_owned]
    · refine ⟨_, rfl, ?_, ?_⟩
      · intro p; simp [complete_eq, afterCompletion, disown_get, ho, openList]; cases d.mode <;> cases p <;> simp [ownedIn, dataPinsOf]
      · simp [complete_eq, afterCompletion, afterEvents, emitAll]
        cases hm : d.mode <;> simp [disownEvents, openList, dataPinsOf, latchAfter, latchEvent]
    · cases d.mode <;> decide
    · intro p hp; rw [ho]; revert hp; cases d.mode <;> cases p <;> simp [openList, dataPinsOf, ownedIn]
  · unfold disposeRelease
    split <;> simp [openList, releasePins, releasePin, ho, PerPin.get, Res.andThen, outcome_raised, raiseCondition] <;> simp_all [PerPin.get, Res.andThen, outcome_raised, raiseCondition]

/-- The slot of an INIT that has come to `Open`. -/
theorem init_at_opening (cfg : Cfg) (s : State) : (s.setMe (initCtx cfg)).setPc (.pos .opening) = withSlot { initCtx cfg with pc := .pos .opening } s := by
  have hx : initCtx cfg ≠ Ctx.idle := by intro he; simpa [Ctx.idle, initCtx] using congrArg Ctx.pc he
  simp [setMe_eq, setPc_eq, withSlot, Slots.set_set hx, Slots.get_set_same hx]

/-- An INIT that reaches `Open`. -/
theorem init_opens {cfg : Cfg} {m : Mode} {s : State} (h : s.driver = none) (he : cfg.err = false) (hr : resolveMode cfg.present = some m) :
   exec (.init cfg) s = (initOpenOp cfg m (withSlot { initCtx cfg with pc := .pos .opening } s)).outcome := by
  simp [exec, execInit, initOp, h, he, hr, init_at_opening]

/-- A slot at `Open` is not Idle. -/
theorem opening_ne_idle (cfg : Cfg) : ({ initCtx cfg with pc := .pos .opening } : Ctx) ≠ Ctx.idle := by
  intro he; simpa [Ctx.idle] using congrArg Ctx.pc he

/-- An INIT whose `Open` fails. -/
theorem initOpenOp_bad {cfg : Cfg} {m : Mode} {s : State} {x} (h : firstBadPin s.platform (openList m) = some x) (y : Ctx) (hy : y ≠ Ctx.idle) :
    (initOpenOp cfg m (withSlot y s)).outcome = .next { afterCompletion [.evt (openCondition x), .done .init] s with openAnswer := some x } := by
  simp only [initOpenOp, openPins_bad (s := withSlot y s) h]
  simp [Res.outcome, complete_eq, afterCompletion, afterEvents, withSlot, Slots.set_set hy, latchAfter, latchEvent]

/-- An INIT whose `Open` succeeds in FourBit mode. -/
theorem initOpenOp_fourBit (cfg : Cfg) (s : State) (hp : ∀ p ∈ openList .fourBit, pinBit s.platform.invalid p = false ∧ pinBit s.platform.unavail p = false) (y : Ctx) (hy : y ≠ Ctx.idle) :
   (initOpenOp cfg .fourBit (withSlot y s)).outcome = .next { s with
        driver := some ⟨.fourBit, cfg.width, cfg.height⟩
        own := ownAfter (openList .fourBit) s.own, lvl := padAfter s.platform.padLevel (openList .fourBit) s.lvl, openAnswer := none
        trace := s.trace ++ (ownEvents [.rs, .e, .d4, .d5, .d6, .d7]).map (fun ev => (s.cur, ev))
        ctxs := slotSet s.ctxs s.cur
          { y with pc := .pos (.seq .k1) } } := by
  unfold initOpenOp; rw [openPins_ok (s := withSlot _ s) (firstBadPin_none hp)]
  simp [Res.outcome, setPc_eq, withSlot, Slots.set_set hy, Slots.get_set_same hy, driverOf, ownEvents, openList, dataPinsOf]

end Sys2Proof.Laws.Steps
end

