-- ==== Sys2Proof/Laws/Invariant.lean ====
section
/-! SUPPORT. The invariant under each kind of change, once each. -/

namespace Sys2Proof.Laws.Invariant

open Sys2Proof Sys2Proof.Machine Sys2Proof.Safety Sys2Proof.Laws Sys2Proof.Laws.State Sys2Proof.Laws.Events Sys2Proof.Laws.Transfer Sys2Proof.Laws.Steps

/-- When a context stands between its `Lock` and its `Unlock`. -/
theorem holdsLock_eq (x : Ctx) : holdsLock x = decide (x.op = some .wrmsg ∧ x.pc ≠ .pos .acq ∧ x.pc ≠ .pos .finish) := by
  simp only [holdsLock, bne, beq_eq_decide, Bool.decide_and, decide_not, Bool.and_assoc]

/-- Writing a slot with what it holds changes nothing. -/
theorem set_get_self {l : List (Nat × Ctx)} (h : slotsWf l) {c : Nat} (hx : slotGet l c ≠ Ctx.idle) : slotSet l c (slotGet l c) = l := by
  induction l with
  | nil => simp [slotGet] at hx
  | cons p rest ih =>
    obtain ⟨k, y⟩ := p
    have ht := Slots.wf_tail h
    simp only [slotGet, slotSet] at hx ⊢
    by_cases h1 : c = k
    · simp [h1] at *; simp [slotCons, hx]
    · by_cases h2 : c < k
      · simp [h1, h2] at hx
      · simp [h1, h2] at hx ⊢; exact ih ht hx

/-- The lock stays, and so does the running context's part in it. -/
theorem lock_unchanged {s t : State} {x : Ctx} (h : Inv s) (hl : t.lock = s.lock) (hx : holdsLock x = holdsLock (slotGet s.ctxs s.cur)) :
  ∀ c, t.lock = .held c ↔ if c = s.cur then holdsLock x = true else holdsLock (slotGet s.ctxs c) = true := by
  intro c; rw [hl, h.lock]; split
  · next e => rw [hx, e]
  · rfl

/-- The waiters stay, where the running context is none of them. -/
theorem waiters_unchanged {s t : State} {x : Ctx} (h : Inv s) (hl : t.waiters = s.waiters) (hx : (slotGet s.ctxs s.cur).pc ≠ .pos .acq) :
  ∀ c ∈ t.waiters, if c = s.cur then x.op = some .wrmsg ∧ x.pc = .pos .acq else c ∈ s.waiters := by
  intro c hc; rw [hl] at hc; split
  · next e => exact absurd (e ▸ (h.waiters c hc).2) hx
  · exact hc

/-- A running context is one of the NCTX slots. -/
theorem cur_bounded {s : State} {op : Op} (h : Inv s) (ho : (slotGet s.ctxs s.cur).op = some op) : s.cur < s.params.nctx :=
  h.bounded _ (by simp [ho])

/-- The invariant after any change of the running slot and of the shared registers. -/
theorem inv_update {s t : State} {x : Ctx} (h : Inv s) (hm : s.midSegment = true) (hcur : s.cur < s.params.nctx)
    (hc : t.ctxs = slotSet s.ctxs s.cur x) (hi : t.issued = none) (hp : t.params = s.params) (hcu : t.cur = s.cur)
    (hpins : ∀ p, t.own.get p = match t.driver with | some d => ownedIn d.mode p | none => false)
    (hpos : ∀ op, x.op = some op → positionOk op x.pc = true)
    (hlock : ∀ c, t.lock = .held c ↔ if c = s.cur then holdsLock x = true else holdsLock (slotGet s.ctxs c) = true)
    (hw : ∀ c ∈ t.waiters, if c = s.cur then x.op = some .wrmsg ∧ x.pc = .pos .acq else c ∈ s.waiters)
    (hwr : t.waiters.Pairwise (· < ·))
    (hend : ∀ op, x.op = some op → x.pc = .pos .finish → t.midSegment = true ∧ (op = .wrmsg → t.lock = .free))
    (hidx : x.idx ≤ x.msg.length) : Inv t := by
  have hg : ∀ d, slotGet t.ctxs d = if d = s.cur then x else slotGet s.ctxs d := by
    intro d; rw [hc, Slots.get_set h.slots]
  constructor
  · rw [hc]; exact Slots.wf_set h.slots _ _
  · exact hi
  · intro c; rw [hg, hp]; split
    · next e => intro _; rw [e]; exact hcur
    · exact h.bounded c
  · exact hpins
  · intro c op; rw [hg]; split
    · exact hpos op
    · exact h.positions c op
  · intro c; rw [hlock, hg]; split <;> rfl
  · intro c hcw; have := hw c hcw; rw [hg]; split
    · next e => simpa [e] using this
    · next e => simp [e] at this; exact h.waiters c this
  · exact hwr
  · intro c op; rw [hg, hcu]; split
    · next e => intro a b; obtain ⟨h1, h2⟩ := hend op a b; exact ⟨h1, e.symm, h2⟩
    · next e => intro a b; exact absurd (h.ending c op a b).2.1.symm e
  · intro c; rw [hg]; split
    · exact hidx
    · exact h.index c

/-- The invariant after a change of the running slot only. -/
theorem inv_slot {s t : State} {x : Ctx} {op : Op} (h : Inv s) (hm : s.midSegment = true) (ho : (slotGet s.ctxs s.cur).op = some op)
    (hacq : (slotGet s.ctxs s.cur).pc ≠ .pos .acq)
    (hc : t.ctxs = slotSet s.ctxs s.cur x) (hi : t.issued = none) (hp : t.params = s.params) (hcu : t.cur = s.cur)
    (h1 : t.own = s.own) (h2 : t.driver = s.driver) (h3 : t.lock = s.lock) (h4 : t.waiters = s.waiters)
    (hpos : positionOk op x.pc = true) (hxo : x.op = some op) (hl : holdsLock x = holdsLock (slotGet s.ctxs s.cur))
    (hend : x.pc = .pos .finish → t.midSegment = true ∧ (op = .wrmsg → t.lock = .free))
    (hidx : x.idx ≤ x.msg.length) : Inv t := by
  refine inv_update h hm (cur_bounded h ho) hc hi hp hcu ?_ ?_ (lock_unchanged h h3 hl) (waiters_unchanged h h4 hacq) (h4 ▸ h.waitersRising) ?_ hidx
  · intro p; rw [h1, h2]; exact h.pins p
  · intro o hxo'; rw [hxo] at hxo'; cases hxo'; exact hpos
  · intro o hxo'; rw [hxo] at hxo'; cases hxo'; exact hend

/-- The invariant after a suspension. -/
theorem inv_suspended {s : State} {op : Op} (h : Inv s) (hm : s.midSegment = true) (ho : (slotGet s.ctxs s.cur).op = some op)
    (hacq : (slotGet s.ctxs s.cur).pc ≠ .pos .acq) (us : Nat) (pc : Pc) (evs : List Event)
    (hpos : positionOk op pc = true) (hl : holdsLock { slotGet s.ctxs s.cur with pc := pc } = holdsLock (slotGet s.ctxs s.cur)) (hf : pc ≠ .pos .finish) :
    Inv (suspended us pc (afterEvents evs s)) :=
  inv_slot (x := { slotGet s.ctxs s.cur with pc := pc, wait := some us }) h hm ho hacq rfl h.notIssued rfl rfl rfl rfl rfl rfl hpos ho hl (fun e => absurd e hf) (h.index s.cur)

/-- The invariant after the running slot becomes Idle. -/
theorem inv_idle {s t : State} {op : Op} (h : Inv s) (hm : s.midSegment = true) (ho : (slotGet s.ctxs s.cur).op = some op)
    (hc : t.ctxs = slotSet s.ctxs s.cur Ctx.idle) (hi : t.issued = none) (hp : t.params = s.params) (hcu : t.cur = s.cur)
    (hpins : ∀ p, t.own.get p = match t.driver with | some d => ownedIn d.mode p | none => false)
    (hlock : t.lock = if s.lock = .held s.cur then .free else s.lock) (hw : t.waiters = s.waiters)
    (hacq : (slotGet s.ctxs s.cur).pc ≠ .pos .acq) : Inv t := by
  refine inv_update h hm (cur_bounded h ho) hc hi hp hcu hpins (by simp [Ctx.idle]) ?_ (waiters_unchanged h hw hacq) (hw ▸ h.waitersRising) (by simp [Ctx.idle]) (by simp [Ctx.idle])
  intro c
  rw [hlock]
  by_cases e : s.lock = .held s.cur
  · rw [if_pos e]; split
    · simp [holdsLock_eq, Ctx.idle]
    · next ne =>
      rw [← h.lock c, e]; simp; exact fun a => ne a.symm
  · rw [if_neg e, h.lock c]; split
    · next ce => rw [ce, ← h.lock, ]; simp [e, holdsLock, Ctx.idle]
    · rfl

/-- The invariant after taking a fault. -/
theorem inv_afterFault {s : State} {op : Op} (h : Inv s) (hm : s.midSegment = true) (ho : (slotGet s.ctxs s.cur).op = some op)
    (hacq : (slotGet s.ctxs s.cur).pc ≠ .pos .acq) (code : Condition) (evs : List Event) : Inv (afterFault code (afterEvents evs s)) := by
  refine inv_idle h hm ho (t := afterFault code (afterEvents evs s)) ?_ h.notIssued rfl rfl h.pins ?_ rfl hacq
  · simp [afterFault, ho]
  · simp only [afterFault, afterEvents_ctxs, afterEvents_cur, afterEvents_lock, ho]
    by_cases e : s.lock = .held s.cur
    · have := (h.lock s.cur).1 e
      simp [holdsLock_eq, ho] at this
      simp [e, this.1]
    · simp [e]

/-- Only a WRMSG holds the lock. -/
theorem not_holder {s : State} (h : Inv s) {op} (ho : (slotGet s.ctxs s.cur).op = some op) (hne : op ≠ .wrmsg) : s.lock ≠ .held s.cur := by
  intro e; have := (h.lock s.cur).1 e; simp [holdsLock_eq, ho] at this; exact hne this.1

/-- The invariant after a completion. -/
theorem inv_afterCompletion {s : State} {op : Op} (h : Inv s) (hm : s.midSegment = true) (ho : (slotGet s.ctxs s.cur).op = some op)
    (hacq : (slotGet s.ctxs s.cur).pc ≠ .pos .acq) (hl : s.lock ≠ .held s.cur) (evs : List Event) : Inv (afterCompletion evs s) :=
  inv_idle h hm ho rfl h.notIssued rfl rfl h.pins (by simp [hl, afterCompletion]) rfl hacq

/-- The invariant after the sequencer moves on. -/
theorem inv_withSlot {s : State} {x : Ctx} {op : Op} (h : Inv s) (hm : s.midSegment = true) (ho : (slotGet s.ctxs s.cur).op = some op)
    (hacq : (slotGet s.ctxs s.cur).pc ≠ .pos .acq) 
    (hpos : positionOk op x.pc = true) (hxo : x.op = some op) (hl : holdsLock x = holdsLock (slotGet s.ctxs s.cur))
    (hend : x.pc = .pos .finish → (op = .wrmsg → s.lock = .free))
    (hidx : x.idx ≤ x.msg.length) : Inv (withSlot x s) :=
  inv_slot h hm ho hacq rfl h.notIssued rfl rfl rfl rfl rfl rfl hpos hxo hl (fun e => ⟨hm, hend e⟩) hidx

/-- Ownership after `Open` on an Absent driver. -/
theorem own_after_open (s : State) (m : Mode) (h : Inv s) (hd : s.driver = none) (p : Pin) : (ownAfter (openList m) s.own).get p = ownedIn m p := by
  have := h.pins p; rw [hd] at this
  rw [ownAfter_get, this]; cases m <;> cases p <;> rfl

/-- The invariant after reset in any state. -/
theorem inv_resetTo (s : State) : Inv (resetTo s) := by
  constructor
  · exact Slots.reset_wf
  · rfl
  · intro c; simp [resetTo, State.reset, slotGet, Ctx.idle]
  · intro p; cases p <;> rfl
  · intro c op; simp [resetTo, State.reset, slotGet, Ctx.idle]
  · intro c; simp [resetTo, State.reset, slotGet, holdsLock_eq, Ctx.idle]
  · intro c; simp [resetTo, State.reset]
  · exact List.Pairwise.nil
  · intro c op; simp [resetTo, State.reset, slotGet, Ctx.idle]
  · intro c; simp [resetTo, State.reset, slotGet, Ctx.idle]

/-- The invariant does not depend on the agenda. -/
theorem inv_agenda {s : State} (h : Inv s) (a : List Move) : Inv { s with agenda := a } := by
  obtain ⟨a,b,c,d,e,f,g,i,j,k⟩ := h
  exact ⟨a,b,c,d,e,f,g,i,j,k⟩

/-- Between segments no context stands at `end`. -/
theorem not_at_finish {s : State} (h : Inv s) (hm : s.midSegment = false) (c op) (ho : (slotGet s.ctxs c).op = some op) : (slotGet s.ctxs c).pc ≠ .pos .finish := by
  intro e; have := (h.ending c op ho e).1; simp [hm] at this

/-- What a request can put into a slot. -/
theorem requested_cases {s : State} {bytes x} (h : requested s bytes = some x) :
   (∃ cfg, x = initCtx cfg) ∨ (∃ msg, x = wrmsgCtx msg) ∨ x = disposeCtx := by
  unfold requested at h
  split at h
  · next i _ _ =>
    cases i <;> simp [requestCtx] at h
    · exact .inl ⟨_, h.symm⟩
    · exact .inr (.inl ⟨_, h.2.symm⟩)
    · exact .inr (.inr h.symm)
  · cases h

end Sys2Proof.Laws.Invariant
end

