-- ==== Sys2Proof/Laws/Message.lean ====
section
/-! SUPPORT. The events of a message in parts, and the overruns of one line. -/

namespace Sys2Proof.Laws.Message

open Sys2Proof Sys2Proof.Machine Sys2Proof.Safety

/-- The events of a message in two parts. -/
theorem elementsEvents_append (d : Driver) (l k : Nat) (a b : List Byte) :
   elementsEvents d l k (a ++ b) = elementsEvents d l k a ++ elementsEvents d (a.foldl linesAfter l) (a.foldl lineCharsAfter k) b := by
  induction a generalizing l k with
  | nil => rfl
  | cons c a ih => simp [elementsEvents, ih]

/-- `lines` after some elements. -/
theorem linesAfter_foldl (l : Nat) (a : List Byte) : a.foldl linesAfter l = l + a.count 0x0A := by
  induction a generalizing l with
  | nil => rfl
  | cons c a ih =>
    simp only [List.foldl_cons, ih, linesAfter, List.count_cons]
    simp only [beq_iff_eq]; split <;> omega

/-- `lineChars` at the beginning of a line. -/
theorem lineCharsAfter_foldl_newline (k : Nat) (a : List Byte) (h : a = [] ∨ a.getLast? = some 0x0A) (hk : a = [] → k = 0) : a.foldl lineCharsAfter k = 0 := by
  rcases h with rfl | h
  · exact hk rfl
  · obtain ⟨b, rfl⟩ := List.getLast?_eq_some_iff.1 h
    simp [lineCharsAfter]

/-- A `WriteValue` makes no overrun. -/
theorem writeEvents_overruns (m : Mode) (reg v) : (writeEvents m reg v).count (.evt .overrun) = 0 := by
  cases m <;> cases reg <;> simp [writeEvents, writeStrobes, strobeEvents, bitLevels, List.count_cons]

/-- The overruns of the characters of one line. -/
theorem elementsEvents_overruns (d : Driver) (l k : Nat) (line : List Byte) (h : (0x0A : Byte) ∉ line) :
   (elementsEvents d l k line).count (.evt .overrun) = if k ≤ d.width ∧ d.width < k + line.length then 1 else 0 := by
  induction line generalizing l k with
  | nil => simp [elementsEvents]
  | cons c line ih =>
    have hc : c ≠ 0x0A := fun e => h (e ▸ List.mem_cons_self ..)
    have hl : (0x0A : Byte) ∉ line := fun e => h (List.mem_cons_of_mem _ e)
    have h0 : ((if d.height < l then [Event.evt .overflow] else []).count (Event.evt .overrun)) = 0 := by split <;> simp
    have h1 : ((if k = d.width then [Event.evt .overrun] else []).count (Event.evt .overrun)) = if k = d.width then 1 else 0 := by split <;> simp
    have h2 : [Event.wait 1000].count (Event.evt .overrun) = 0 := by simp
    simp only [elementsEvents, elementEvents, hc, if_false, List.count_append, writeEvents_overruns, ih _ _ hl, lineCharsAfter, List.length_cons, h0, h1, h2]
    split <;> split <;> split <;> omega

end Sys2Proof.Laws.Message
end

