-- ==== Sys2Proof/Laws/PerInstr.lean ====
section
/-! SUPPORT. One lemma for each instruction: its bytes begin with the word of its row (30_encoding.md R107). -/

namespace Sys2Proof.Laws.EncodeHead

open Sys2Proof

/-- The fixed word of an instruction's row in spec/opcode_table.json; CHAR's is its element. -/
def rowWord : Instr → Byte
  | .init _ => 0x00
  | .wrmsg _ => 0x01
  | .dispose => 0x02
  | .nl => 0x0A
  | .char ch => ch
  | .clearDisplay => 0x01
  | .newLine => 0xC0
  | .initseq1 => 0x01
  | .initseq2 => 0x02
  | .initseq3 => 0x03
  | .initseq4 => 0x04
  | .initseq5 => 0x05
  | .initseq6 => 0x06
  | .initseq7 => 0x07
  | .initseq8 => 0x08
  | .initseq9 => 0x09
  | .initseq10 => 0x0A
  | .openOutputs _ => 0x00
  | .setLevel _ _ => 0x01
  | .release _ => 0x02
  | .strobe _ _ => 0x03
  | .writeValue _ _ => 0x04
  | .wait _ => 0x05
  | .acquire => 0x06
  | .unlock => 0x07
  | .initseq => 0x08

/-- An instruction's bytes begin with its row's word. -/
def Statement (i : Instr) : Prop := ∃ operands, encode i = rowWord i :: operands

theorem init (cfg : Cfg) : Statement (.init cfg) := ⟨_, rfl⟩
theorem wrmsg (msg : List Byte) : Statement (.wrmsg msg) := ⟨_, rfl⟩
theorem dispose : Statement .dispose := ⟨_, rfl⟩
theorem nl : Statement .nl := ⟨_, rfl⟩
theorem char (ch : Byte) : Statement (.char ch) := ⟨_, rfl⟩
theorem clearDisplay : Statement .clearDisplay := ⟨_, rfl⟩
theorem newLine : Statement .newLine := ⟨_, rfl⟩
theorem initseq1 : Statement .initseq1 := ⟨_, rfl⟩
theorem initseq2 : Statement .initseq2 := ⟨_, rfl⟩
theorem initseq3 : Statement .initseq3 := ⟨_, rfl⟩
theorem initseq4 : Statement .initseq4 := ⟨_, rfl⟩
theorem initseq5 : Statement .initseq5 := ⟨_, rfl⟩
theorem initseq6 : Statement .initseq6 := ⟨_, rfl⟩
theorem initseq7 : Statement .initseq7 := ⟨_, rfl⟩
theorem initseq8 : Statement .initseq8 := ⟨_, rfl⟩
theorem initseq9 : Statement .initseq9 := ⟨_, rfl⟩
theorem initseq10 : Statement .initseq10 := ⟨_, rfl⟩
theorem openOutputs (pins : List Pin) : Statement (.openOutputs pins) := ⟨_, rfl⟩
theorem setLevel (p : Pin) (l : Level) : Statement (.setLevel p l) := ⟨_, rfl⟩
theorem release (p : Pin) : Statement (.release p) := ⟨_, rfl⟩
theorem strobe (reg : Register) (v : StrobeValue) : Statement (.strobe reg v) := ⟨_, rfl⟩
theorem writeValue (reg : Register) (v : Byte) : Statement (.writeValue reg v) := ⟨_, rfl⟩
theorem wait (t : WaitTime) : Statement (.wait t) := ⟨_, rfl⟩
theorem acquire : Statement .acquire := ⟨_, rfl⟩
theorem unlock : Statement .unlock := ⟨_, rfl⟩
theorem initseq : Statement .initseq := ⟨_, rfl⟩

end Sys2Proof.Laws.EncodeHead
end

