-- ==== Sys2Proof/Laws/Running.lean ====
section
/-! SUPPORT. The frame of every instruction and of every step of the running context; and what moves do to the history. -/

namespace Sys2Proof.Laws.Running

open Sys2Proof Sys2Proof.Machine Sys2Proof.Safety Sys2Proof.Laws Sys2Proof.Laws.State Sys2Proof.Laws.Events Sys2Proof.Laws.Transfer Sys2Proof.Laws.Steps

/-- What running the current context can change: its own slot, the shared registers, and the trace by events of its own; the flag only with a fault's event. -/
structure Ran (s t : State) : Prop where
  agenda : t.agenda = s.agenda
  cur : t.cur = s.cur
  issued : t.issued = s.issued
  params : t.params = s.params
  platform : t.platform = s.platform
  slots : slotsWf s.ctxs → slotsWf t.ctxs ∧ ∀ c, c ≠ s.cur → slotGet t.ctxs c = slotGet s.ctxs c
  trace : ∃ evs : List Event, t.trace = s.trace ++ evs.map (fun ev => (s.cur, ev)) ∧
    (t.faulted = s.faulted ∨ t.faulted = true ∧ ∃ p, Event.evt (.pinNotOwned p) ∈ evs ∨ Event.evt (.doubleRelease p) ∈ evs)

theorem Ran.refl (s : State) : Ran s s := ⟨rfl, rfl, rfl, rfl, rfl, fun h => ⟨h, fun _ _ => rfl⟩, [], by simp, .inl rfl⟩

theorem Ran.trans {s t u : State} (h : Ran s t) (k : Ran t u) : Ran s u := by
  obtain ⟨a1, a2, a3, a4, a5, a6, e1, b1, c1⟩ := h
  obtain ⟨d1, d2, d3, d4, d5, d6, e2, f1, g1⟩ := k
  refine ⟨d1.trans a1, d2.trans a2, d3.trans a3, d4.trans a4, d5.trans a5, fun hw => ?_, e1 ++ e2, ?_, ?_⟩
  · obtain ⟨h1, h2⟩ := a6 hw
    obtain ⟨h3, h4⟩ := d6 h1
    exact ⟨h3, fun c hc => (h4 c (by rwa [a2])).trans (h2 c hc)⟩
  · rw [f1, b1, a2]; simp
  · rcases g1 with g | ⟨g, hg⟩
    · rcases c1 with c | ⟨c, p, hc⟩
      · exact .inl (g.trans c)
      · exact .inr ⟨g.trans c, p, hc.imp (List.mem_append_left _) (List.mem_append_left _)⟩
    · obtain ⟨p, hg⟩ := hg
      exact .inr ⟨g, p, hg.imp (List.mem_append_right _) (List.mem_append_right _)⟩

theorem running_events (evs : List Event) (s : State) : Ran s (afterEvents evs s) :=
  ⟨rfl, rfl, rfl, rfl, rfl, fun h => ⟨h, fun _ _ => rfl⟩, evs, rfl, .inl rfl⟩

theorem running_slots {s t : State} (x : Ctx) (h : t = { s with ctxs := slotSet s.ctxs s.cur x, midSegment := t.midSegment }) : Ran s t := by
  rw [h]
  exact ⟨rfl, rfl, rfl, rfl, rfl, fun h => ⟨Slots.wf_set h _ _, fun c hc => by simp [Slots.get_set h, hc]⟩, [], by simp, .inl rfl⟩

theorem running_suspended (us pc) (s : State) : Ran s (suspended us pc s) := running_slots _ rfl

theorem running_withSlot (x) (s : State) : Ran s (withSlot x s) := running_slots x rfl

theorem running_completion (evs) (s : State) : Ran s (afterCompletion evs s) :=
  (running_events evs s).trans (running_slots Ctx.idle rfl)

theorem running_fault {code : Condition} (hc : ∃ p, code = .pinNotOwned p ∨ code = .doubleRelease p) (s : State) : Ran s (afterFault code s) := by
  refine ⟨rfl, rfl, rfl, rfl, rfl, fun h => ?_, ?_⟩
  · unfold afterFault; simp only; split
    · exact ⟨Slots.wf_set h _ _, fun c hc => by simp [Slots.get_set h, hc]⟩
    · exact ⟨h, fun _ _ => rfl⟩
  · refine ⟨[.evt code] ++ (if (slotGet s.ctxs s.cur).op == some .wrmsg && s.lock == .held s.cur then [Event.unlock s.cur] else []) ++ (match (slotGet s.ctxs s.cur).op with
          | some op => [Event.fail op code]
          | none => []), ?_, .inr ⟨rfl, ?_⟩⟩
    · simp only [afterFault, List.map_append, List.map_cons, List.map_nil, List.append_assoc]
      congr 2
      split <;> cases (slotGet s.ctxs s.cur).op <;> rfl
    · obtain ⟨p, rfl | rfl⟩ := hc <;> exact ⟨p, by simp⟩

theorem running_raised {r : Raise} {s t} (h : (Res.raised r s).outcome = .next t) : Ran s t := by
  rw [outcome_raised] at h; cases h; exact running_fault (by cases r <;> simp [raiseCondition]) s

theorem running_writeValue {reg v ret} {s t : State} (h : (writeValueOp reg v ret s).outcome = .next t) : Ran s t := by
  rcases writeValueOp_cases reg v ret s with ⟨evs, -, e⟩ | ⟨evs, r, -, -, e⟩ <;> rw [e] at h
  · cases h; exact (running_events _ s).trans (running_suspended _ _ _)
  · exact (running_events _ s).trans (running_raised h)

theorem running_initStep {k} {s t : State} (h : (initStepOp k s).outcome = .next t) : Ran s t := by
  rcases initStepOp_cases k s with ⟨evs, -, e⟩ | ⟨evs, r, -, -, e⟩ <;> rw [e] at h
  · cases h; exact (running_events _ s).trans (running_suspended _ _ _)
  · exact (running_events _ s).trans (running_raised h)

theorem running_strobe {reg v} {s t : State} (h : (strobeOp reg v s).outcome = .next t) : Ran s t := by
  rcases strobeOp_cases reg v s with ⟨evs, -, e⟩ | ⟨evs, r, -, -, e⟩ <;> rw [e] at h
  · cases h; exact (running_events _ s)
  · exact (running_events _ s).trans (running_raised h)

theorem running_emit (ev) (s : State) : Ran s (emit ev s) := ⟨rfl, rfl, rfl, rfl, rfl, fun h => ⟨h, fun _ _ => rfl⟩, [ev], rfl, .inl rfl⟩

theorem running_registers {s t : State} (h : t = { s with driver := t.driver, own := t.own, lvl := t.lvl, lock := t.lock, waiters := t.waiters, openAnswer := t.openAnswer, midSegment := t.midSegment }) : Ran s t := by
  rw [h]; exact ⟨rfl, rfl, rfl, rfl, rfl, fun h => ⟨h, fun _ _ => rfl⟩, [], by simp, .inl rfl⟩

theorem running_release (p : Pin) (s : State) : (∃ t, releasePin p s = .ok t ∧ Ran s t) ∨ releasePin p s = .raised (.doubleRelease p) s := by
  unfold releasePin; split
  · exact .inl ⟨_, rfl, (running_registers (t := { s with own := s.own.set p false }) rfl).trans (running_emit _ _)⟩
  · exact .inr rfl

theorem running_releases (pins : List Pin) (s : State) : (∃ t, releasePins pins s = .ok t ∧ Ran s t) ∨ ∃ p t, releasePins pins s = .raised (.doubleRelease p) t ∧ Ran s t := by
  induction pins generalizing s with
  | nil => exact .inl ⟨s, rfl, Ran.refl s⟩
  | cons p rest ih =>
    rw [releasePins]
    rcases running_release p s with ⟨t, e, h⟩ | e
    · rw [e, Res.andThen]
      rcases ih t with ⟨u, e2, h2⟩ | ⟨q, u, e2, h2⟩
      · exact .inl ⟨u, e2, h.trans h2⟩
      · exact .inr ⟨q, u, e2, h.trans h2⟩
    · exact .inr ⟨p, s, by rw [e]; rfl, Ran.refl s⟩

theorem running_open (pins : List Pin) (s : State) : Ran s (openPins pins s) := by
  cases h : firstBadPin s.platform pins with
  | some x => rw [openPins_bad h]; exact running_registers rfl
  | none =>
    rw [openPins_ok h]
    exact ⟨rfl, rfl, rfl, rfl, rfl, fun h => ⟨h, fun _ _ => rfl⟩, pins.map .own, by simp, .inl rfl⟩

theorem running_complete (op) (s : State) : Ran s (complete op s) := complete_eq op s ▸ running_completion _ s

theorem running_completeFail (op c) (s : State) : Ran s (completeFail op c s) := completeFail_eq op c s ▸ running_completion _ s

theorem running_initOpen {cfg m} {s t : State} (h : (initOpenOp cfg m s).outcome = .next t) : Ran s t := by
  unfold initOpenOp at h
  refine (running_open (openList m) s).trans ?_
  generalize openPins (openList m) s = u at *
  simp only at h
  split at h
  · cases h; exact (running_emit _ _).trans (running_complete _ _)
  · split at h
    · unfold initEightBit at h
      split at h
      · cases h; exact (running_registers (t := { u with driver := some (driverOf .eightBit cfg) }) rfl).trans (running_completeFail _ _ _)
      · rcases running_releases (openList .eightBit) u with ⟨v, e, hv⟩ | ⟨p, v, e, hv⟩ <;> rw [e] at h
        · cases h; exact hv.trans (running_completeFail _ _ _)
        · exact hv.trans (running_raised h)
    · cases h; exact (running_registers (t := { u with driver := some (driverOf .fourBit cfg) }) rfl).trans (running_slots _ rfl)

/-- No instruction changes more than `Ran` allows. -/
theorem running_exec {i : Instr} {s t : State} (h : exec i s = .next t) : Ran s t := by
  cases i with
  | init cfg =>
    refine (running_withSlot (initCtx cfg) s).trans ?_
    replace h : (initOp cfg (withSlot (initCtx cfg) s)).outcome = .next t := h
    generalize withSlot (initCtx cfg) s = u at *
    unfold initOp at h
    split at h
    · cases h; exact running_completeFail _ _ _
    · split at h
      · cases h; exact (running_emit _ _).trans (running_complete _ _)
      · split at h
        · cases h; exact running_complete _ _
        · exact (running_slots (t := u.setPc (.pos .opening)) _ rfl).trans (running_initOpen h)
  | wrmsg msg => cases h; exact running_slots _ rfl
  | dispose => exact (running_withSlot disposeCtx s).trans (running_writeValue (s := withSlot disposeCtx s) h)
  | nl => exact running_writeValue h
  | char ch =>
    simp only [exec, execChar] at h
    rcases charOp_cases ch s with ⟨evs, -, e⟩ | ⟨evs, r, -, -, e⟩ <;> rw [e] at h
    · cases h; exact (running_events _ s).trans (running_suspended _ _ _)
    · exact (running_events _ s).trans (running_raised h)
  | clearDisplay => exact running_writeValue h
  | newLine => exact running_writeValue h
  | openOutputs pins => cases h; exact running_open pins s
  | setLevel p l =>
    simp only [exec, execSetLevel, setPinLevel] at h
    split at h
    · cases h; exact (running_registers (t := { s with lvl := s.lvl.set p l }) rfl).trans (running_emit _ _)
    · exact running_raised h
  | release p =>
    simp only [exec, execRelease] at h
    rcases running_release p s with ⟨u, e, hu⟩ | e <;> rw [e] at h
    · cases h; exact hu
    · exact running_raised h
  | strobe r v => exact running_strobe h
  | writeValue r v => exact running_writeValue h
  | wait w => cases h; rw [waitOp_eq]; exact (running_events _ s).trans (running_suspended _ _ _)
  | acquire =>
    simp only [exec, execAcquire] at h
    split at h <;> cases h
    · exact ((running_registers (t := { s with lock := .held s.cur, waiters := s.waiters.filter (fun c => c != s.cur) }) rfl).trans (running_emit _ _)).trans (running_slots _ rfl)
    · exact running_registers (t := endSegment _) rfl
  | unlock => cases h; exact (running_registers (t := { s with lock := .free }) rfl).trans (running_emit _ _)
  | _ => exact running_initStep h

theorem running_setMe (x) (s : State) : Ran s (s.setMe x) := running_withSlot x s

theorem running_action {a : Action} {s t : State} (ha : ∀ u i, a = .instr u i → Ran s u) (hb : ∀ r, a = .own r → ∀ t, r.outcome = .next t → Ran s t) (h : runAction a = .next t) : Ran s t := by
  cases a with
  | instr u i => exact (ha u i rfl).trans (running_exec h)
  | own r => exact hb r rfl t h

theorem running_disposeRelease {s t : State} (h : (disposeRelease s).outcome = .next t) : Ran s t := by
  unfold disposeRelease at h
  split at h
  · next m _ =>
    rcases running_releases (openList m) s with ⟨v, e, hv⟩ | ⟨p, v, e, hv⟩ <;> rw [e] at h
    · cases h; exact (hv.trans (running_registers (t := { v with driver := none }) rfl)).trans (running_complete _ _)
    · exact hv.trans (running_raised h)
  · rcases running_releases [.rs, .e] s with ⟨v, e, hv⟩ | ⟨p, v, e, hv⟩ <;> rw [e] at h <;> exact hv.trans (running_raised h)

/-- No step of the running context changes more than `Ran` allows. -/
theorem running_next {s t : State} (h : runAction (nextAction s) = .next t) : Ran s t := by
  refine running_action ?_ ?_ h
  · intro u i e
    unfold nextAction at e
    split at e
    · cases e
    · split at e
      · next r _ => cases r <;> simp only [returnAction] at e <;> cases e <;> exact running_setMe _ _
      · next p _ =>
        cases p <;> simp only [positionAction] at e
        all_goals try (split at e)
        all_goals try (cases e; done)
        all_goals try (cases e; first | exact Ran.refl _ | exact running_setMe _ _)
        all_goals try (unfold fetchAction at e; split at e <;> cases e; exact running_setMe _ _)
  · intro r e t h
    unfold nextAction at e
    split at e
    · cases e; cases h; exact running_registers (t := endSegment s) rfl
    · split at e
      · next r _ => cases r <;> simp only [returnAction] at e <;> cases e <;> cases h <;> exact running_setMe _ _
      · next op _ p _ =>
        cases p <;> simp only [positionAction] at e
        all_goals try (split at e)
        all_goals try (cases e; done)
        next => cases e; exact running_initOpen h
        next => cases e; cases h; exact running_complete _ _
        next => cases e; cases h; exact running_setMe _ _
        next => cases e; cases h; unfold afterClear; split <;> exact running_setMe _ _
        next => unfold fetchAction at e; split at e <;> cases e; cases h; exact running_setMe _ _
        next => cases e; cases h; exact running_setMe _ _
        next => cases e; exact running_disposeRelease h
        next => cases e; cases h; exact running_complete _ _

/-- The flag under `Ran`. -/
theorem running_faulted {s t : State} (h : Ran s t) : (s.faulted = true → t.faulted = true) ∧ (s.faulted = false → t.faulted = true →
      ∃ pre c code post, t.trace = s.trace ++ pre ++ (c, Event.evt code) :: post ∧
        ∃ p, code = .pinNotOwned p ∨ code = .doubleRelease p) := by
  obtain ⟨a1, a2, a3, a4, a5, a6, e1, b1, c1⟩ := h
  refine ⟨fun h => ?_, fun h h2 => ?_⟩
  · rcases c1 with c | c
    · rw [c, h]
    · exact c.1
  · rcases c1 with c | ⟨c, hc⟩
    · rw [c, h] at h2; cases h2
    · have : ∃ code, (∃ p, code = .pinNotOwned p ∨ code = .doubleRelease p) ∧ Event.evt code ∈ e1 := by
        obtain ⟨p, hc | hc⟩ := hc
        · exact ⟨_, ⟨p, .inl rfl⟩, hc⟩
        · exact ⟨_, ⟨p, .inr rfl⟩, hc⟩
      obtain ⟨code, hcode, hm⟩ := this
      obtain ⟨a, b, rfl⟩ := List.append_of_mem hm
      exact ⟨a.map (fun ev => (s.cur, ev)), s.cur, code, b.map (fun ev => (s.cur, ev)), by rw [b1]; simp, hcode⟩

/-- A move makes no event. -/
theorem moveEffect_history (m : Move) (s : State) : (moveEffect m s).trace = s.trace ∧ (moveEffect m s).params = s.params ∧ ((moveEffect m s).faulted = s.faulted ∨ m = .reset ∨ ∃ n, m = .resetWithin n) := by
  cases m <;> simp only [moveEffect]
  case request b => split <;> simp
  case run => split <;> simp
  case tick => simp
  case elapse => unfold elapse; split <;> simp
  case platform => simp
  case reset => simp [resetTo]
  case resetWithin => simp [resetTo]

/-- The default move is no reset and no request. -/
theorem defaultMove_kinds {s m} (h : defaultMove s = some m) : m ≠ .reset ∧ (∀ n, m ≠ .resetWithin n) ∧ ∀ b, m ≠ .request b := by
  unfold defaultMove at h
  split at h
  · cases h; simp
  · split at h
    · split at h
      · cases h; simp
      · next x _ _ =>
        cases hw : x.wait <;> simp [hw] at h
        subst h; simp
    · cases h

theorem idleMove_history (s : State) : (idleMove s).trace = s.trace ∧ (idleMove s).params = s.params ∧ (idleMove s).faulted = s.faulted := by
  unfold idleMove; split
  · next m h =>
    have := defaultMove_kinds h
    obtain ⟨a, b, c⟩ := moveEffect_history m s
    exact ⟨a, b, c.resolve_right (by rintro (h | ⟨n, h⟩); exact this.1 h; exact this.2.1 n h)⟩
  · simp

/-- The default move leaves the agenda. -/
theorem idleMove_agenda (s : State) : (idleMove s).agenda = s.agenda := by
  unfold idleMove; split
  · next m h =>
    have hk := defaultMove_kinds h
    cases m <;> simp only [moveEffect]
    case request b => exact absurd rfl (hk.2.2 b)
    case run => split <;> rfl
    case elapse => unfold elapse; split <;> rfl
    case reset => exact absurd rfl hk.1
    case resetWithin n => exact absurd rfl (hk.2.1 n)
  · rfl

/-- The default move starts and ends no operation. -/
theorem idleMove_ops {s : State} (hw : slotsWf s.ctxs) (c : Nat) : (slotGet (idleMove s).ctxs c).op = (slotGet s.ctxs c).op := by
  unfold idleMove; split
  · next m h =>
    have hk := defaultMove_kinds h
    cases m <;> simp only [moveEffect]
    case request b => exact absurd rfl (hk.2.2 b)
    case run => split <;> rfl
    case tick => rw [Slots.get_tick]; rfl
    case elapse d =>
      unfold elapse; split
      · rw [setCtx_ctxs, Slots.get_set hw]; split
        · next e => rw [e]; rfl
        · rfl
      · rfl
    case reset => exact absurd rfl hk.1
    case resetWithin n => exact absurd rfl (hk.2.1 n)
  · rfl

/-- A step between segments makes no event. -/
theorem nextMove_history (s : State) : (nextMove s).trace = s.trace ∧ (nextMove s).params = s.params ∧ ((nextMove s).faulted = s.faulted ∨ (∃ rest, s.agenda = .reset :: rest) ∨ ∃ n rest, s.agenda = .resetWithin n :: rest) := by
  unfold nextMove; split
  · obtain ⟨a, b, c⟩ := idleMove_history s; exact ⟨a, b, .inl c⟩
  · next m rest ha =>
    split
    · obtain ⟨a, b, c⟩ := idleMove_history s; exact ⟨a, b, .inl c⟩
    · obtain ⟨a, b, c⟩ := moveEffect_history m { s with agenda := rest }
      refine ⟨a, b, ?_⟩
      rcases c with c | rfl | ⟨n, rfl⟩
      · exact .inl c
      · exact .inr (.inl ⟨rest, ha⟩)
      · exact .inr (.inr ⟨n, rest, ha⟩)

/-- A step that a reset inside a segment falls in: it goes on, or it ends in reset. -/
theorem resetCut_cases {n rest} {s t u : State} (h : runAction (nextAction s) = .next u) (e : resetCut n rest s (runAction (nextAction s)) = .next t) :
   (u.midSegment = true ∧ t = { u with agenda := .resetWithin (n - (u.trace.length - s.trace.length)) :: rest }) ∨
   t = resetTo { s with agenda := rest, trace := s.trace ++ (u.trace.drop s.trace.length).take n } := by
  rw [h] at e
  simp only [resetCut] at e
  split at e
  · next hc => cases e; simp at hc; exact .inl ⟨hc.2, rfl⟩
  · cases e; exact .inr rfl

/-- The slot that takes a request exists and is Idle. -/
theorem freeSlot_some {s : State} {c} (h : freeSlot s = some c) : c < s.params.nctx ∧ (slotGet s.ctxs c).op = none := by
  have h1 := List.mem_of_find?_eq_some h
  have h2 := List.find?_some h
  simp only [State.ctx, Option.isNone_iff_eq_none] at h2
  exact ⟨List.mem_range.1 h1, h2⟩

/-- No slot takes a request exactly when all are busy. -/
theorem freeSlot_none {s : State} : freeSlot s = none ↔ ∀ c < s.params.nctx, (slotGet s.ctxs c).op ≠ none := by
  simp [freeSlot, State.ctx]

/-- The lowest Idle slot takes the request. -/
theorem freeSlot_lowest {s : State} {c} (h : (slotGet s.ctxs c).op = none) (hc : c < s.params.nctx) (hd : ∀ d < c, (slotGet s.ctxs d).op ≠ none) : freeSlot s = some c := by
  cases hf : freeSlot s with
  | none => exact absurd h (freeSlot_none.1 hf c hc)
  | some b =>
    obtain ⟨-, h2⟩ := freeSlot_some hf
    obtain ⟨hb, as, bs, hl, has⟩ := List.find?_eq_some_iff_append.1 hf
    congr 1
    rcases Nat.lt_trichotomy b c with hlt | e | hlt
    · exact absurd h2 (hd b hlt)
    · exact e
    · have hs : (List.range s.params.nctx).Pairwise (· < ·) := List.pairwise_lt_range
      rw [hl] at hs
      have hm : c ∈ as := by
        have : c ∈ as ++ b :: bs := hl ▸ List.mem_range.2 hc
        rcases List.mem_append.1 this with h1 | h1
        · exact h1
        · rcases List.mem_cons.1 h1 with h1 | h1
          · omega
          · have := (List.pairwise_cons.1 (List.pairwise_append.1 hs).2.1).1 c h1; omega
      have := has c hm
      simp [State.ctx, h] at this

end Sys2Proof.Laws.Running
end

