-- ==== Sys2Proof/Laws/Timer.lean ====
section
/-! SUPPORT. The wait timer of the hardware realisation (10_state.md R34, 00_scope.md R5), and the bit of a
TransferMode (30_encoding.md R99). -/

namespace Sys2Proof.Laws.Timer

open Sys2Proof Sys2Proof.Machine

/-- The load value is the ceiling of R34: never less than the wait. -/
theorem timerLoad_covers (fClkHz us : Nat) : us * fClkHz ≤ timerLoad fClkHz us * 1000000 := by
  unfold timerLoad; omega

/-- ... and less than one clock more. -/
theorem timerLoad_tight (fClkHz us : Nat) : timerLoad fClkHz us * 1000000 < us * fClkHz + 1000000 := by
  unfold timerLoad; omega

/-- A longer wait never loads less. -/
theorem timerLoad_mono (fClkHz : Nat) {a b : Nat} (h : a ≤ b) : timerLoad fClkHz a ≤ timerLoad fClkHz b := by
  have := Nat.mul_le_mul_right fClkHz h
  unfold timerLoad; omega

/-- No wait is longer than `T_PWR`. -/
theorem waitUs_le_pwr (t : WaitTime) : waitUs t ≤ 15000 := by cases t <;> decide

/-- `timerWidthMin` is the least width that holds the load value of `T_PWR`. -/
theorem timerWidthMin_le_iff (fClkHz w : Nat) : timerWidthMin fClkHz ≤ w ↔ timerLoad fClkHz 15000 < 2 ^ w := by
  simp only [timerWidthMin]
  split
  · next h => simp [h]
  · next h => rw [Nat.add_one_le_iff, Nat.log2_lt h]

/-- With well-formed parameters the timer holds every wait's load value. -/
theorem timerCounter_toNat {p : Params} (h : p.wf) (t : WaitTime) :
    (timerCounter p t).toNat = timerLoad p.fClkHz (waitUs t) := by
  have hm := timerLoad_mono p.fClkHz (waitUs_le_pwr t)
  have hw := (timerWidthMin_le_iff p.fClkHz p.timerW).1 h.2
  simp only [timerCounter, BitVec.toNat_ofNat]
  exact Nat.mod_eq_of_lt (by omega)

/-- The bit of a mode and back. -/
theorem decodeMode_encodeMode (m : Mode) : decodeMode (encodeMode m) = m := by cases m <;> rfl

/-- ... and the other way. -/
theorem encodeMode_decodeMode (b : BitVec 1) : encodeMode (decodeMode b) = b := by revert b; decide

end Sys2Proof.Laws.Timer
end

