-- ==== Sys2Proof/Laws/Waits.lean ====
section
/-! SUPPORT. A pending wait and the running context: what every instruction and every step leaves. -/

namespace Sys2Proof.Laws.Waits

open Sys2Proof Sys2Proof.Machine Sys2Proof.Safety Sys2Proof.Laws Sys2Proof.Laws.State Sys2Proof.Laws.Events Sys2Proof.Laws.Transfer Sys2Proof.Laws.Steps

/-- The running context in its segment, with no wait pending. -/
structure Active (s : State) : Prop where
  wf : slotsWf s.ctxs
  mid : s.midSegment = true
  op : (slotGet s.ctxs s.cur).op ≠ none
  wait : (slotGet s.ctxs s.cur).wait = none

/-- The running context after a step: a wait is pending only where its segment is over and its slot busy. -/
structure Settled (t : State) : Prop where
  running : t.midSegment = true → (slotGet t.ctxs t.cur).wait = none
  idle : (slotGet t.ctxs t.cur).op = none → (slotGet t.ctxs t.cur).wait = none

theorem Active.settled {s} (h : Active s) : Settled s := ⟨fun _ => h.wait, fun _ => h.wait⟩

theorem active_events {s} (h : Active s) (evs) : Active (afterEvents evs s) := ⟨h.wf, h.mid, h.op, h.wait⟩

/-- Changes of the shared registers keep the running context active. -/
theorem active_registers {s t : State} (h : Active s) (e : t.ctxs = s.ctxs := by rfl) (ec : t.cur = s.cur := by rfl) (em : t.midSegment = s.midSegment := by rfl) : Active t := by
  refine ⟨?_, ?_, ?_, ?_⟩
  · rw [e]; exact h.wf
  · rw [em]; exact h.mid
  · rw [e, ec]; exact h.op
  · rw [e, ec]; exact h.wait

theorem active_withSlot {s x} (h : Active s) (ho : x.op ≠ none) (hw : x.wait = none) : Active (withSlot x s) := by
  refine ⟨Slots.wf_set h.wf _ _, h.mid, ?_, ?_⟩ <;> simp [withSlot, Slots.get_set h.wf, ho, hw]

theorem active_setPc {s} (h : Active s) (pc) : Active (s.setPc pc) := active_withSlot h h.op h.wait

theorem active_setMe {s x} (h : Active s) (ho : x.op = s.me.op := by rfl) (hw : x.wait = s.me.wait := by rfl) : Active (s.setMe x) :=
  active_withSlot h (by rw [ho]; exact h.op) (by rw [hw]; exact h.wait)

theorem settled_suspended {s us pc} (h : Active s) : Settled (suspended us pc s) := by
  refine ⟨by simp [suspended], fun ho => ?_⟩
  simp [suspended, Slots.get_set h.wf] at ho; exact absurd ho h.op

theorem settled_idle {s t : State} (h : Active s) (hc : t.ctxs = slotSet s.ctxs s.cur Ctx.idle) (hcu : t.cur = s.cur) (hm : t.midSegment = false) : Settled t := by
  refine ⟨by simp [hm], fun _ => ?_⟩; rw [hc, hcu, Slots.get_set h.wf]; simp [Ctx.idle]

theorem settled_fault {s} (h : Active s) (code) : Settled (afterFault code s) := by
  refine settled_idle h ?_ rfl rfl
  obtain ⟨op, ho⟩ := Option.ne_none_iff_exists'.1 h.op
  simp [afterFault, ho]

theorem settled_raised {r} {s t} (h : Active s) (e : (Res.raised r s).outcome = .next t) : Settled t := by
  rw [outcome_raised] at e; cases e; exact settled_fault h _

theorem settled_writeValue {reg v ret} {s t : State} (ha : Active s) (h : (writeValueOp reg v ret s).outcome = .next t) : Settled t := by
  rcases writeValueOp_cases reg v ret s with ⟨evs, -, e⟩ | ⟨evs, r, -, -, e⟩ <;> rw [e] at h
  · cases h; exact settled_suspended (active_events ha _)
  · exact settled_raised (active_events ha _) h

theorem settled_initStep {k} {s t : State} (ha : Active s) (h : (initStepOp k s).outcome = .next t) : Settled t := by
  rcases initStepOp_cases k s with ⟨evs, -, e⟩ | ⟨evs, r, -, -, e⟩ <;> rw [e] at h
  · cases h; exact settled_suspended (active_events ha _)
  · exact settled_raised (active_events ha _) h

theorem settled_strobe {reg v} {s t : State} (ha : Active s) (h : (strobeOp reg v s).outcome = .next t) : Settled t := by
  rcases strobeOp_cases reg v s with ⟨evs, -, e⟩ | ⟨evs, r, -, -, e⟩ <;> rw [e] at h
  · cases h; exact (active_events ha _).settled
  · exact settled_raised (active_events ha _) h

theorem active_releases (pins : List Pin) {s : State} (ha : Active s) : (∃ t, releasePins pins s = .ok t ∧ Active t) ∨ ∃ p t, releasePins pins s = .raised (.doubleRelease p) t ∧ Active t := by
  induction pins generalizing s with
  | nil => exact .inl ⟨s, rfl, ha⟩
  | cons p rest ih =>
    rw [releasePins]; unfold releasePin; split
    · rw [Res.andThen]; exact ih (active_registers ha)
    · exact .inr ⟨p, s, rfl, ha⟩

theorem active_open (pins) {s : State} (ha : Active s) : Active (openPins pins s) := by
  cases h : firstBadPin s.platform pins with
  | some x => rw [openPins_bad h]; exact active_registers ha
  | none => rw [openPins_ok h]; exact active_registers ha

theorem settled_complete {s} (h : Active s) (op) : Settled (complete op s) := by rw [complete_eq]; exact settled_idle h rfl rfl rfl

theorem settled_completeFail {s} (h : Active s) (op c) : Settled (completeFail op c s) := by rw [completeFail_eq]; exact settled_idle h rfl rfl rfl

theorem settled_initOpen {cfg m} {s t : State} (ha : Active s) (h : (initOpenOp cfg m s).outcome = .next t) : Settled t := by
  unfold initOpenOp at h
  have hu := active_open (openList m) ha
  generalize openPins (openList m) s = u at *
  simp only at h
  split at h
  · cases h; exact settled_complete (active_registers hu) _
  · split at h
    · unfold initEightBit at h
      split at h
      · cases h; exact settled_completeFail (active_registers hu) _ _
      · rcases active_releases (openList .eightBit) hu with ⟨v, e, hv⟩ | ⟨p, v, e, hv⟩ <;> rw [e] at h
        · cases h; exact settled_completeFail hv _ _
        · exact settled_raised hv h
    · cases h; exact (active_setPc (active_registers hu) _).settled

/-- Every instruction leaves an active context settled. -/
theorem settled_exec {i : Instr} {s t : State} (ha : Active s) (h : exec i s = .next t) : Settled t := by
  cases i with
  | init cfg =>
    have ha' : Active (withSlot (initCtx cfg) s) := active_withSlot ha (by simp [initCtx]) (by simp [initCtx, Ctx.idle])
    replace h : (initOp cfg (withSlot (initCtx cfg) s)).outcome = .next t := h
    generalize withSlot (initCtx cfg) s = u at *
    unfold initOp at h
    split at h
    · cases h; exact settled_completeFail ha' _ _
    · split at h
      · cases h; exact settled_complete (active_registers ha') _
      · split at h
        · cases h; exact settled_complete ha' _
        · exact settled_initOpen (active_setPc ha' _) h
  | wrmsg msg =>
    cases h
    refine ⟨fun _ => ?_, fun _ => ?_⟩ <;> simp [endSegment, State.setMe, State.setCtx, Slots.get_set ha.wf, wrmsgCtx, Ctx.idle]
  | dispose => exact settled_writeValue (s := withSlot disposeCtx s) (active_withSlot ha (by simp [disposeCtx]) (by simp [disposeCtx, Ctx.idle])) h
  | nl => exact settled_writeValue ha h
  | char ch =>
    simp only [exec, execChar] at h
    rcases charOp_cases ch s with ⟨evs, -, e⟩ | ⟨evs, r, -, -, e⟩ <;> rw [e] at h
    · cases h; exact settled_suspended (active_events ha _)
    · exact settled_raised (active_events ha _) h
  | clearDisplay => exact settled_writeValue ha h
  | newLine => exact settled_writeValue ha h
  | openOutputs pins => cases h; exact (active_open pins ha).settled
  | setLevel p l =>
    simp only [exec, execSetLevel, setPinLevel] at h
    split at h
    · cases h; exact (active_registers ha).settled
    · exact settled_raised ha h
  | release p =>
    simp only [exec, execRelease, releasePin] at h
    split at h
    · cases h; exact (active_registers ha).settled
    · exact settled_raised ha h
  | strobe r v => exact settled_strobe ha h
  | writeValue r v => exact settled_writeValue ha h
  | wait w => cases h; rw [waitOp_eq]; exact settled_suspended (active_events ha _)
  | acquire =>
    simp only [exec, execAcquire] at h
    split at h <;> cases h
    · exact (active_setPc (active_registers ha) _).settled
    · exact ⟨fun _ => ha.wait, fun _ => ha.wait⟩
  | unlock => cases h; exact (active_registers ha).settled
  | _ => exact settled_initStep ha h

theorem settled_disposeRelease {s t : State} (ha : Active s) (h : (disposeRelease s).outcome = .next t) : Settled t := by
  unfold disposeRelease at h
  split at h
  · next m _ =>
    rcases active_releases (openList m) ha with ⟨v, e, hv⟩ | ⟨p, v, e, hv⟩ <;> rw [e] at h
    · cases h; exact settled_complete (active_registers hv) _
    · exact settled_raised hv h
  · rcases active_releases [.rs, .e] ha with ⟨v, e, hv⟩ | ⟨p, v, e, hv⟩ <;> rw [e] at h <;> exact settled_raised hv h

/-- Every step of an active context leaves it settled. -/
theorem settled_next {s t : State} (ha : Active s) (h : runAction (nextAction s) = .next t) : Settled t := by
  have h1 : ∀ u i, nextAction s = .instr u i → Active u := by
    intro u i e
    unfold nextAction at e
    split at e
    · cases e
    · split at e
      · next r _ => cases r <;> simp only [returnAction] at e <;> cases e <;> exact active_setMe ha
      · next p _ =>
        cases p <;> simp only [positionAction] at e
        all_goals try (split at e)
        all_goals try (cases e; done)
        all_goals try (cases e; first | exact ha | exact active_setMe ha)
        all_goals try (unfold fetchAction at e; split at e <;> cases e; exact active_setMe ha)
  cases hn : nextAction s with
  | instr u i => rw [hn] at h; exact settled_exec (h1 u i hn) h
  | own r =>
    rw [hn] at h
    have e := hn
    simp only [runAction] at h
    unfold nextAction at e
    split at e
    · next ho => exact absurd ho ha.op
    · split at e
      · next r _ => cases r <;> simp only [returnAction] at e <;> cases e <;> cases h <;> exact (active_setMe ha).settled
      · next op _ p _ =>
        cases p <;> simp only [positionAction] at e
        all_goals try (split at e)
        all_goals try (cases e; done)
        next => cases e; exact settled_initOpen ha h
        next => cases e; cases h; exact settled_complete ha _
        next => cases e; cases h; exact (active_setMe ha).settled
        next => cases e; cases h; unfold afterClear; split <;> exact (active_setMe ha).settled
        next => unfold fetchAction at e; split at e <;> cases e; cases h; exact (active_setMe ha).settled
        next => cases e; cases h; exact (active_setMe ha).settled
        next => cases e; exact settled_disposeRelease ha h
        next => cases e; cases h; exact settled_complete ha _

end Sys2Proof.Laws.Waits
end

