-- ==== Sys2Proof/Tests/Slice0.lean ====
section
/-! SUPPORT. Tests. Expected results come from the spec's encodings, examples and vectors (named with each test), never
from the model; and for each statement with hypotheses a witness that meets them. -/

namespace Sys2Proof.Tests.Slice0

open Sys2Proof Sys2Proof.Machine Sys2Proof.Safety Sys2Proof.Laws

/-! ## Small states -/

/-- The pins of a mode owned, and the driver Present. -/
def present (m : Mode) (w h : Nat) : State :=
  { State.reset with
    driver := some ⟨m, w, h⟩
    own := ⟨true, true, ownedIn m .d0, ownedIn m .d1, ownedIn m .d2, ownedIn m .d3, true, true, true, true⟩ }

/-- Context 0 holds these registers. -/
def holding (x : Ctx) (s : State) : State := { s with ctxs := [(0, x)] }

/-- ... and its segment is in progress. -/
def running (x : Ctx) (s : State) : State := { holding x s with midSegment := true }

def wrmsgAt (pc : Pc) (msg : List Byte) (idx lines lineChars : Nat) : Ctx :=
  { Ctx.idle with op := some .wrmsg, msg := msg, pc := pc, idx := idx, lines := lines, lineChars := lineChars }

def initAt (pc : Pc) : Ctx :=
  { Ctx.idle with op := some .init, cfg := ⟨0x3C3, false, 16, 2⟩, pc := pc }

def disposeAt (pc : Pc) : Ctx := { Ctx.idle with op := some .dispose, pc := pc }

/-- `present` without one pin. -/
def lacking (p : Pin) (s : State) : State := { s with own := s.own.set p false }

/-- The events an outcome added to an empty trace, without their context. -/
def eventsOf : Host.Outcome State Fault Refusal → List Event
  | .next s => s.trace.map Prod.snd
  | .fault _ | .refused _ => []

/-- The registers of context 0 after an outcome. -/
def slotOf : Host.Outcome State Fault Refusal → Ctx
  | .next s => slotGet s.ctxs 0
  | .fault _ | .refused _ => Ctx.idle

def isNext : Host.Outcome State Fault Refusal → Bool
  | .next _ => true
  | .fault _ | .refused _ => false

theorem exists_next {o : Host.Outcome State Fault Refusal} (h : isNext o = true) : ∃ t, o = .next t := by
  cases o with
  | next t => exact ⟨t, rfl⟩
  | fault => simp [isNext] at h
  | refused => simp [isNext] at h

/-! ## WellFormed: an ill-formed term for each check -/

theorem test_wf_refuses_wide_geometry : (Instr.init ⟨0x3C3, false, 256, 2⟩).wf = false := by decide
theorem test_wf_refuses_high_geometry : (Instr.init ⟨0x3C3, false, 16, 256⟩).wf = false := by decide
theorem test_wf_refuses_newline_char : (Instr.char 0x0A).wf = false := by decide
theorem test_wf_refuses_repeated_pin : (Instr.openOutputs [.rs, .e, .rs]).wf = false := by decide

/-! ## Decode: words written out bit by bit (30_encoding.md R91 to R98) -/

/-- R91 `cmd_op` 00, R92: present = D7..D4 E RS, no error, 16 by 2. -/
theorem test_decode_init :
    decode .hcmd [0b00, 0b11000011, 0b011, 0b00010000, 0b00000010] = .ok (.init ⟨0b1111000011, false, 16, 2⟩, []) := by
  rfl
/-- R92: `err` is bit 10 of the word. -/
theorem test_decode_init_err : decode .hcmd [0b00, 0, 0b100, 0, 0] = .ok (.init ⟨0, true, 0, 0⟩, []) := by rfl
/-- R91 `cmd_op` 01. -/
theorem test_decode_wrmsg :
    decode .hcmd [0b01, 1, 0b01001000, 1, 0b00001010, 0] = .ok (.wrmsg [0x48, 0x0A], []) := by rfl
/-- R91 `cmd_op` 10. -/
theorem test_decode_dispose : decode .hcmd [0b10] = .ok (.dispose, []) := by rfl
/-- R100. -/
theorem test_decode_reserved : decode .hcmd [0b11] = .error .reservedCommand := by rfl
/-- R93. -/
theorem test_decode_nl : decode .msg8 [0b00001010] = .ok (.nl, []) := by rfl
theorem test_decode_char_below : decode .msg8 [0b00001001] = .ok (.char 0x09, []) := by rfl
theorem test_decode_char_above : decode .msg8 [0b00001011] = .ok (.char 0x0B, []) := by rfl
/-- R94. -/
theorem test_decode_clearDisplay : decode .lcd8 [0b00000001] = .ok (.clearDisplay, []) := by rfl
theorem test_decode_newLine : decode .lcd8 [0b11000000] = .ok (.newLine, []) := by rfl
theorem test_decode_lcd8_unused : decode .lcd8 [0b10000000] = .error .unusedControllerCode := by rfl
/-- R97. -/
theorem test_decode_initrom :
    [0b0001, 0b0010, 0b0011, 0b0100, 0b0101, 0b0110, 0b0111, 0b1000, 0b1001, 0b1010].map
        (fun b => decode .initrom [b]) =
      [.ok (.initseq1, []), .ok (.initseq2, []), .ok (.initseq3, []), .ok (.initseq4, []), .ok (.initseq5, []),
       .ok (.initseq6, []), .ok (.initseq7, []), .ok (.initseq8, []), .ok (.initseq9, []), .ok (.initseq10, [])] := by
  rfl
/-- R98. -/
theorem test_decode_open : decode .uop [0b0000, 1, 2, 0] = .ok (.openOutputs [.rs, .e], []) := by rfl
theorem test_decode_setLevel : decode .uop [0b0001, 1, 1] = .ok (.setLevel .e .high, []) := by rfl
theorem test_decode_release : decode .uop [0b0010, 9] = .ok (.release .d7, []) := by rfl
theorem test_decode_strobe : decode .uop [0b0011, 0, 0, 0b0011] = .ok (.strobe .instruction (.four 3), []) := by rfl
theorem test_decode_strobe_eight :
    decode .uop [0b0011, 1, 1, 0b10110000] = .ok (.strobe .data (.eight 0xB0), []) := by rfl
theorem test_decode_writeValue : decode .uop [0b0100, 1, 0x41] = .ok (.writeValue .data 0x41, []) := by rfl
theorem test_decode_wait : decode .uop [0b0101, 0] = .ok (.wait .pwr, []) := by rfl
theorem test_decode_acquire : decode .uop [0b0110] = .ok (.acquire, []) := by rfl
theorem test_decode_unlock : decode .uop [0b0111] = .ok (.unlock, []) := by rfl
theorem test_decode_initseq : decode .uop [0b1000] = .ok (.initseq, []) := by rfl
theorem test_decode_uop_unused : decode .uop [0b1001] = .error .unusedPrimitive := by rfl

/-! ## One step each -/

/-- R124's example. -/
theorem test_setLevel_example : eventsOf (exec (.setLevel .e .high) (present .fourBit 16 2)) = [.pin .e .high] := by
  decide
/-- R127's example. -/
theorem test_release_example : eventsOf (exec (.release .e) (present .fourBit 16 2)) = [.disown .e] := by decide
/-- R121's example. -/
theorem test_open_example :
    eventsOf (exec (.openOutputs [.rs, .e, .d4, .d5, .d6, .d7]) State.reset) =
      [.own .rs, .own .e, .own .d4, .own .d5, .own .d6, .own .d7] := by decide
/-- R171's example. -/
theorem test_strobe_example :
    eventsOf (exec (.strobe .data (.eight 0b10110000)) (present .eightBit 16 2)) =
      [.pin .e .high, .pin .rs .high, .pin .d0 .low, .pin .d1 .low, .pin .d2 .low, .pin .d3 .low, .pin .d4 .high,
       .pin .d5 .high, .pin .d6 .low, .pin .d7 .high, .pin .e .low, .pin .rs .high] := by decide
/-- R175's example: `Strobe(Data,4,0x4)`, `Strobe(Data,4,0x1)`, `Wait(40)`. -/
theorem test_writeValue_example :
    eventsOf (exec (.writeValue .data 0x41) (present .fourBit 16 2)) =
      [.pin .e .high, .pin .rs .high, .pin .d4 .low, .pin .d5 .low, .pin .d6 .high, .pin .d7 .low, .pin .e .low,
       .pin .rs .high, .pin .e .high, .pin .rs .high, .pin .d4 .high, .pin .d5 .low, .pin .d6 .low, .pin .d7 .low,
       .pin .e .low, .pin .rs .high, .wait 40] := by decide
/-- R149's example of step 1. -/
theorem test_initseq1_example :
    eventsOf (exec .initseq1 (present .fourBit 16 2)) =
      [.pin .e .high, .pin .rs .low, .pin .d4 .high, .pin .d5 .high, .pin .d6 .low, .pin .d7 .low, .pin .e .low,
       .pin .rs .low, .wait 15000] := by decide
/-- R97's row 8: `DP` levels 0,0,1,1 and 400 microseconds. -/
theorem test_initseq8_row :
    eventsOf (exec .initseq8 (present .fourBit 16 2)) =
      [.pin .e .high, .pin .rs .low, .pin .d4 .low, .pin .d5 .low, .pin .d6 .high, .pin .d7 .high, .pin .e .low,
       .pin .rs .low, .wait 400] := by decide
/-- R178's example: the timer. -/
theorem test_wait_pending :
    (slotOf (exec (.wait .pwr) (running (wrmsgAt (.pos .fetch) [] 0 1 0) (present .fourBit 16 2)))).wait = some 15000 := by
  decide
/-- R196's example: `lines = 1, lineChars = 2` gives `lines = 2, lineChars = 0`. -/
theorem test_nl_counts :
    ((slotOf (step (running (wrmsgAt (.execwait .nl) [0x0A] 1 1 2) (present .fourBit 16 2)))).lines,
     (slotOf (step (running (wrmsgAt (.execwait .nl) [0x0A] 1 1 2) (present .fourBit 16 2)))).lineChars) = (2, 0) := by
  decide
/-- R197's example: no warning at `lineChars = 0, width = 2, lines = 1, height = 2`. -/
theorem test_char_no_warning :
    (eventsOf (exec (.char 0x41) (running (wrmsgAt (.pos .fetch) [0x41] 1 1 0) (present .fourBit 2 2)))).head? =
      some (.pin .e .high) := by decide
/-- R198: the third character of a line of width 2; R240: Overflow after Overrun. -/
theorem test_char_warns :
    (eventsOf (exec (.char 0x43) (running (wrmsgAt (.pos .fetch) [0x43] 1 3 2) (present .fourBit 2 2)))).take 3 =
      [.evt .overrun, .evt .overflow, .pin .e .high] := by decide
/-- R222. -/
theorem test_dispose_absent :
    eventsOf (exec .dispose State.reset) = [.evt (.pinNotOwned .e), .fail .dispose (.pinNotOwned .e)] := by decide
/-- R220's example, its release segment. -/
theorem test_dispose_release :
    eventsOf (step (running (disposeAt (.pos .release)) (present .fourBit 16 2))) =
      [.disown .rs, .disown .e, .disown .d4, .disown .d5, .disown .d6, .disown .d7, .done .dispose] := by decide
/-- R144. -/
theorem test_init_malformed : eventsOf (exec (.init ⟨0x3C1, false, 16, 2⟩) State.reset) = [.done .init] := by decide
/-- R247: an EightBit configuration with an unavailable pin reports the pin. -/
theorem test_init_pin_before_mode :
    eventsOf (exec (.init ⟨0x3FF, false, 16, 2⟩)
      { State.reset with platform := { State.reset.platform with unavail := 0x004 } }) =
      [.evt .pinUnavailable, .done .init] := by decide
/-- R191, R192. -/
theorem test_acquire_unlock :
    (eventsOf (exec .acquire State.reset), eventsOf (exec .unlock State.reset)) = ([.lock 0], [.unlock 0]) := by decide
/-- R193's example begins with the nibble 0x0. -/
theorem test_clearDisplay_first_nibble :
    (eventsOf (exec .clearDisplay (present .fourBit 16 2))).take 7 =
      [.pin .e .high, .pin .rs .low, .pin .d4 .low, .pin .d5 .low, .pin .d6 .low, .pin .d7 .low, .pin .e .low] := by
  decide
/-- R194's example begins with the nibble 0xC. -/
theorem test_newLine_first_nibble :
    (eventsOf (exec .newLine (present .fourBit 16 2))).take 7 =
      [.pin .e .high, .pin .rs .low, .pin .d4 .low, .pin .d5 .low, .pin .d6 .high, .pin .d7 .high, .pin .e .low] := by
  decide
/-- A placed table word is what the next step runs: 0x6 is ACQUIRE. -/
theorem test_withFetchWord_acquire : eventsOf (step (State.reset.withFetchWord 8 6)) = [.lock 0] := by decide
/-- ... and 0x0 is INIT, here of an empty role set (R144). -/
theorem test_withFetchWord_init : eventsOf (step (State.reset.withFetchWord 8 0)) = [.done .init] := by decide

/-- 95_test_vectors.md M3: "ABCD" on a line of width 2: one overrun, none on 'D' (43_message.md R198). -/
theorem test_one_overrun_a_line :
    (elementsEvents ⟨.fourBit, 2, 2⟩ 1 0 [0x41, 0x42, 0x43, 0x44]).count (.evt .overrun) = 1 := by decide

/-- 60_exceptions.md R234: a fault names its pin in the model and not on the port; V9: a strobe with no pin owned raises
`PinNotOwned(E)`. -/
theorem test_fault_names_pin :
    (∀ p, evtCode (.evt (.pinNotOwned p)) = some 0x7 ∧ failCode (.fail .dispose (.doubleRelease p)) = some 0x8) ∧
      eventsOf (exec (.strobe .instruction (.four 0x3)) State.reset) = [.evt (.pinNotOwned .e)] :=
  ⟨fun _ => ⟨rfl, rfl⟩, by decide⟩

/-! ## States that meet the invariant -/

/-- The driver Present (or Absent) and one context outside `Acquire`, the lock as the context's position asks. -/
theorem inv_one {s : State} {x : Ctx} (hc : s.ctxs = [(0, x)]) (hi : s.issued = none) (hn : 0 < s.params.nctx)
    (hp : ∀ p, s.own.get p = match s.driver with | some d => ownedIn d.mode p | none => false)
    (hx : x ≠ Ctx.idle) (hpos : ∀ op, x.op = some op → positionOk op x.pc = true)
    (hl : s.lock = if holdsLock x then .held 0 else .free) (hw : s.waiters = [])
    (hf : ∀ op, x.op = some op → x.pc = .pos .finish → s.midSegment = true ∧ s.cur = 0 ∧ (op = .wrmsg → s.lock = .free))
    (hidx : x.idx ≤ x.msg.length) : Inv s := by
  have hg : ∀ c, slotGet s.ctxs c = if c = 0 then x else Ctx.idle := by
    intro c
    rw [hc]
    by_cases h : c = 0 <;> simp [slotGet, h]
  constructor
  · rw [hc]
    exact ⟨by simp, by simpa using hx⟩
  · exact hi
  · intro c
    rw [hg]
    by_cases h : c = 0
    · rw [h]
      exact fun _ => hn
    · simp [h, Ctx.idle]
  · exact hp
  · intro c op
    rw [hg]
    by_cases h : c = 0
    · simpa [h] using hpos op
    · simp [h, Ctx.idle]
  · intro c
    rw [hg, hl]
    by_cases h : c = 0
    · subst h
      rw [if_pos rfl]
      cases holdsLock x <;> simp
    · have h0 : (0 : Nat) ≠ c := fun e => h e.symm
      have hidle : holdsLock Ctx.idle = false := by decide
      rw [if_neg h, hidle]
      cases holdsLock x <;> simp [h0]
  · simp [hw]
  · simp [hw]
  · intro c op
    rw [hg]
    by_cases h : c = 0
    · subst h
      intro ho he
      exact hf op ho he
    · simp [h, Ctx.idle]
  · intro c
    rw [hg]
    by_cases h : c = 0
    · simpa [h] using hidx
    · simp [h, Ctx.idle]

theorem pins_present (m : Mode) (w h : Nat) (p : Pin) : (present m w h).own.get p = ownedIn m p := by
  cases m <;> cases p <;> rfl

theorem inv_reset : Inv State.reset := Invariant.inv_resetTo State.reset

theorem inv_message : Inv (holding (wrmsgAt (.pos .acq) [0x41, 0x0A] 0 1 0) (present .fourBit 0 2)) :=
  inv_one rfl rfl (by decide) (pins_present .fourBit 0 2) (by decide) (by intro op h; cases h; rfl) rfl rfl
    (by intro op h; simp [wrmsgAt]) (by decide)

theorem inv_dispose (m : Mode) : Inv (holding (disposeAt (.pos .clear)) (present m 16 2)) :=
  inv_one rfl rfl (show 0 < 2 by decide) (pins_present m 16 2) (show disposeAt (.pos .clear) ≠ Ctx.idle by decide)
    (by intro op h; cases h; rfl) rfl rfl (by intro op h; simp [disposeAt]) (Nat.zero_le _)

theorem inv_init : Inv (holding (initAt (.pos .cfg)) State.reset) :=
  inv_one rfl rfl (by decide) (by intro p; cases p <;> rfl) (by decide) (by intro op h; cases h; rfl) rfl rfl
    (by intro op h; simp [initAt]) (by decide)

/-- A message in its iteration: the element 'A' is being written. -/
def writing : State :=
  { running (wrmsgAt (.execwait .char) [0x0A, 0x41] 2 2 0) (present .fourBit 16 2) with lock := .held 0 }

theorem inv_writing : Inv writing :=
  inv_one rfl rfl (by decide) (pins_present .fourBit 16 2) (by decide) (by intro op h; cases h; rfl) rfl rfl
    (by intro op h; simp [wrmsgAt]) (by decide)

theorem counters_writing : CountersInv writing := by
  intro c
  by_cases h : c = 0
  · subst h
    exact fun _ => ⟨by decide, by decide, fun _ => ⟨by decide, 0x41, by decide, by decide⟩⟩
  · simp [writing, running, holding, slotGet, h, iterating, Ctx.idle]

/-- Three slots, 0 busy with a DISPOSE, and a request. -/
def requesting (i : Instr) : State :=
  { State.reset with
    ctxs := [(0, disposeAt (.pos .clear))], agenda := [.request (encode i)], params := ⟨3, 2, .keep, 1000000, 14⟩ }

/-- A WRMSG whose `Wait(T_CHAR)` is over, before its next element, and a reset after `n` more events of the segment. -/
def betweenCharacters (n : Nat) : State :=
  { running (wrmsgAt (.pos .charwait) [0x41] 0 1 0) (present .fourBit 16 2) with agenda := [.resetWithin n] }

/-- R271: a reset falls "between the two nibbles of a FourBit `WriteValue`", two steps into the segment. -/
theorem test_reset_between_nibbles :
    eventsOf (Sys2Proof.core.run 2 (betweenCharacters 8)) =
      [.pin .e .high, .pin .rs .high, .pin .d4 .low, .pin .d5 .low, .pin .d6 .high, .pin .d7 .low, .pin .e .low,
       .pin .rs .high] := by decide

/-- 95_test_vectors.md P7 (b): a CHAR after a racing DISPOSE, whatever its counters. -/
theorem test_char_after_dispose :
    eventsOf (exec (.char 0x42) (running (wrmsgAt (.pos .fetch) [0x41, 0x42] 2 9 255)
      { State.reset with lock := .held 0 })) =
      [.evt (.pinNotOwned .e), .unlock 0, .fail .wrmsg (.pinNotOwned .e)] := by decide

/-- R256, R41: a request names no context; with slot 0 busy, slot 1 takes it. -/
theorem test_request_takes_the_idle_slot :
    (match step (requesting .dispose) with
      | .next t => (slotGet t.ctxs 1).op
      | _ => none) = some .dispose := by decide

/-- R178's example: `Wait(15000)` at 1 MHz loads the timer with 15000, which R5's least width holds. -/
theorem test_timer_load : (timerCounter Params.default .pwr).toNat = 15000 ∧ timerWidthMin 1000000 = 14 := by decide

/-! ## Every statement's hypotheses are met -/

theorem witness_DecodeReadsBackEncoded :
    (Instr.init ⟨0x3FF, true, 255, 255⟩).wf = true ∧ (Instr.char 0xFF).wf = true ∧
      (Instr.openOutputs (openList .eightBit)).wf = true := by decide

theorem witness_EncodeWritesBackDecoded : ∃ i rest, decode .uop [0x2, 9, 7] = .ok (i, rest) := ⟨_, _, rfl⟩

theorem witness_ReservedCommandChangesNothing :
    nextMoveIs (.request (0b11 :: [])) [] { State.reset with agenda := [.request [0b11]] } := ⟨rfl, rfl, rfl⟩

theorem witness_RequestFillsAnIdleSlot (i : Instr) (h : i = .init ⟨0x3C3, false, 255, 255⟩ ∨ i = .wrmsg [1, 2] ∨ i = .dispose) :
    (i.wf = true ∧ nextMoveIs (.request (encode i)) [] (requesting i) ∧
      (slotGet (requesting i).ctxs 1).op = none ∧ 1 < (requesting i).params.nctx ∧
      (∀ d < 1, (slotGet (requesting i).ctxs d).op ≠ none) ∧
      [(1 : Byte), 2].length ≤ (requesting i).params.maxLen) ∧
    (nextMoveIs (.request (encode i)) [] { requesting i with params := ⟨1, 2, .keep, 1000000, 14⟩ } ∧
      slotsWf (requesting i).ctxs ∧ ∀ d < 1, (slotGet (requesting i).ctxs d).op ≠ none) := by
  have h0 : ∀ d < 1, (slotGet (requesting i).ctxs d).op ≠ none := by
    intro d hd
    have : d = 0 := by omega
    subst this
    simp [requesting, slotGet, disposeAt]
  refine ⟨⟨?_, ⟨rfl, rfl, rfl⟩, rfl, by simp [requesting], h0, by simp [requesting]⟩, ⟨rfl, rfl, rfl⟩, ?_, h0⟩
  · rcases h with rfl | rfl | rfl <;> rfl
  · simp only [requesting]; decide

theorem witness_ResetDropsEverything :
    nextMoveIs .reset [] { State.reset with agenda := [.reset] } ∧
    (∃ t evs, runAction (nextAction { writing with agenda := [.resetWithin 1] }) = .next t ∧
      t.trace = writing.trace ++ evs ∧ 1 ≤ evs.length ∧ writing.issued = none ∧ writing.midSegment = true) ∧
    (∃ t evs, runAction (nextAction (betweenCharacters 9)) = .next t ∧
      t.trace = (betweenCharacters 9).trace ++ evs ∧ evs.length < 9 ∧ t.midSegment = true ∧
      (betweenCharacters 9).issued = none) :=
  ⟨⟨rfl, rfl, rfl⟩, ⟨_, [(0, .wait 1000)], rfl, rfl, by decide, rfl, rfl⟩, _, [], rfl, rfl, by decide, rfl, rfl⟩

theorem witness_NoEventUntilARequest :
    slotsWf State.reset.ctxs ∧ State.reset.issued = none ∧ State.reset.midSegment = false ∧
      (∀ c, (slotGet State.reset.ctxs c).op = none) ∧ (∀ bytes rest, State.reset.agenda ≠ .request bytes :: rest) :=
  ⟨Slots.reset_wf, rfl, rfl, fun _ => rfl, by simp [State.reset]⟩

theorem witness_SetLevelWritesItsPinOrRaises :
    (present .fourBit 16 2).own.get .d7 = true ∧ (present .fourBit 16 2).own.get .d3 = false := by decide

theorem witness_ReleaseEndsOwnershipOnce :
    (present .fourBit 16 2).own.get .rs = true ∧ State.reset.own.get .rs = false := by decide

theorem witness_OpenAcquiresTheWholeList :
    ∀ p ∈ openList .eightBit,
      pinBit State.reset.platform.invalid p = false ∧ pinBit State.reset.platform.unavail p = false := by decide

/-- A platform on which `E` is unavailable and `Data_4` is both invalid and unavailable. -/
def badPins : Platform := { State.reset.platform with unavail := 0x042, invalid := 0x040 }

theorem witness_OpenFailureAcquiresNothing :
    (∀ q ∈ [Pin.rs], pinBit badPins.invalid q = false ∧ pinBit badPins.unavail q = false) ∧
      pinBit badPins.invalid .d4 = true ∧ pinBit badPins.invalid .e = false ∧ pinBit badPins.unavail .e = true := by
  decide

theorem owned_present (m : Mode) (pins : List Pin) (h : ∀ p ∈ pins, ownedIn m p = true) (w k : Nat) :
    ownsAll (present m w k) pins := fun p hp => (pins_present m w k p).trans (h p hp)

theorem owned_openList (m : Mode) : ownsAll (present m 16 2) (openList m) :=
  owned_present m _ (by cases m <;> decide) 16 2

/-- A strobe that stops at its last data pin. -/
theorem stops_at_d7 (reg : Register) (v : Nibble) :
    ∃ pre, stopsAfter (lacking .d7 (present .fourBit 16 2))
      (strobeEvents reg [.d4, .d5, .d6, .d7] (bitLevels (.four v))) pre .d7 :=
  ⟨[.pin .e .high, .pin .rs (rsLevel reg), .pin .d4 (levelOf (v.getLsbD 0)), .pin .d5 (levelOf (v.getLsbD 1)),
      .pin .d6 (levelOf (v.getLsbD 2))], levelOf (v.getLsbD 3), _, rfl, by
    intro q l h
    simp only [List.mem_cons, Event.pin.injEq, List.not_mem_nil, or_false] at h
    rcases h with ⟨rfl, -⟩ | ⟨rfl, -⟩ | ⟨rfl, -⟩ | ⟨rfl, -⟩ | ⟨rfl, -⟩ <;> rfl, rfl⟩

/-- A `WriteValue` that stops at its very first pin. -/
theorem stops_at_e (m : Mode) (reg : Register) (v : Byte) :
    stopsAfter (lacking .e (present m 16 2)) (writeStrobes m reg v) [] .e := by
  cases m <;> exact ⟨.high, _, rfl, by simp, rfl⟩

theorem witness_StrobeMakesItsPinEvents :
    (strobePins (present .fourBit 16 2).mode (.four 0xA) = some [.d4, .d5, .d6, .d7] ∧
      ownsAll (present .fourBit 16 2) [.e, .rs, .d4, .d5, .d6, .d7]) ∧
    (strobePins (lacking .d7 (present .fourBit 16 2)).mode (.four 0xA) = some [.d4, .d5, .d6, .d7] ∧
      ∃ pre, stopsAfter (lacking .d7 (present .fourBit 16 2))
        (strobeEvents .data [.d4, .d5, .d6, .d7] (bitLevels (.four 0xA))) pre .d7) :=
  ⟨⟨rfl, owned_present _ _ (by decide) 16 2⟩, rfl, stops_at_d7 .data 0xA⟩

theorem witness_StrobePutsEachBitOnItsPin :
    (strobePins (present .fourBit 16 2).mode (.four 0xA) = some [.d4, .d5, .d6, .d7] ∧
      ownsAll (present .fourBit 16 2) [.e, .rs, .d4, .d5, .d6, .d7]) ∧
    ownsAll (present .eightBit 16 2) (openList .eightBit) :=
  ⟨⟨rfl, owned_present _ _ (by decide) 16 2⟩, owned_openList .eightBit⟩

theorem witness_StrobeWithoutModeNeverGuesses :
    State.reset.driver = none ∧ State.reset.own.get .e = false ∧
    (∃ s : State, s.driver = none ∧ s.own.get .e = true ∧ s.own.get .rs = false) ∧
    (∃ s : State, s.driver = none ∧ s.own.get .e = true ∧ s.own.get .rs = true) :=
  ⟨rfl, rfl, ⟨lacking .rs { present .fourBit 16 2 with driver := none }, rfl, rfl, rfl⟩,
    { present .fourBit 16 2 with driver := none }, rfl, rfl, rfl⟩

theorem inSegment_running (x : Ctx) (op : Op) (h : x.op = some op) (s : State) (hi : s.issued = none)
    (ha : s.agenda = []) (hc : s.cur = 0) : inSegment op (running x s) :=
  ⟨hi, rfl, by simp [running, holding, ha], by simpa [running, holding, slotGet, hc] using h⟩

/-- A context at the return of a `WriteValue` whose caller has nothing to add. -/
def returning (p : Pos) : State := running (wrmsgAt (.execwait (.plain p)) [0x41] 0 1 0) (present .eightBit 16 2)

theorem returning_inSegment (p : Pos) :
    inSegment .wrmsg (returning p) ∧ (slotGet (returning p).ctxs (returning p).cur).pc = .execwait (.plain p) :=
  ⟨inSegment_running _ _ rfl _ rfl rfl rfl, rfl⟩

theorem witness_WriteValueStrobesThenWaits :
    (present .fourBit 16 2).driver = some ⟨.fourBit, 16, 2⟩ ∧ ownsAll (present .fourBit 16 2) (openList .fourBit) ∧
    (present .eightBit 16 2).driver = some ⟨.eightBit, 16, 2⟩ ∧ ownsAll (present .eightBit 16 2) (openList .eightBit) ∧
    stopsAfter (lacking .e (present .eightBit 16 2)) (writeStrobes .eightBit .data 0xFF) [] .e ∧
    inSegment .wrmsg (returning .fetch) ∧
    (slotGet (returning .fetch).ctxs (returning .fetch).cur).pc = .execwait (.plain .fetch) :=
  ⟨rfl, owned_openList _, rfl, owned_openList _, stops_at_e _ _ _, returning_inSegment .fetch⟩

theorem witness_WaitSuspendsItsContext :
    (WaitTime.char, 1000) ∈
      [(WaitTime.pwr, 15000), (.long, 4100), (.short, 400), (.exec, 40), (.clear, 1640), (.char, 1000)] := by decide

/-- Context 0 waits `r` more microseconds, and `m` is the next move. -/
def waiting (r : Nat) (m : Move) : State :=
  { holding { disposeAt (.execwait .clear) with wait := some r } (present .fourBit 16 2) with agenda := [m] }

theorem inv_waiting (r : Nat) (m : Move) : Inv (waiting r m) :=
  inv_one rfl rfl (show 0 < 2 by decide) (pins_present .fourBit 16 2)
    (show ({ disposeAt (.execwait .clear) with wait := some r } : Ctx) ≠ Ctx.idle by simp [disposeAt, Ctx.idle])
    (by intro op h; cases h; rfl) rfl rfl (by intro op h; simp [disposeAt]) (Nat.zero_le _)

theorem wait_waiting (r : Nat) (m : Move) : WaitInv (waiting r m) := by
  refine ⟨fun c h => ?_, fun h => by cases h⟩
  by_cases hc : c = 0
  · subst hc
    cases h
  · simp [waiting, holding, slotGet, hc, Ctx.idle]

/-- Every kind of move, and a wait of every length: one that ends (0, `elapse`), one that time shortens, one that is
dropped by reset; and a step of another context while one waits is `contending` below. -/
theorem witness_PendingWaitHoldsItsContext (r : Nat) (m : Move) :
    slotsWf (waiting r m).ctxs ∧ (slotGet (waiting r m).ctxs 0).wait = some r ∧ nextMoveIs m [] (waiting r m) ∧
      Inv (waiting r m) ∧ WaitInv (waiting r m) ∧ ∃ t, step (waiting r m) = .next t :=
  ⟨⟨by simp [waiting, holding], by simp [waiting, holding, disposeAt, Ctx.idle]⟩, rfl, ⟨rfl, rfl, rfl⟩,
    inv_waiting r m, wait_waiting r m, _, rfl⟩

theorem witness_AcquireTakesAFreeLockOrWaits :
    State.reset.lock = .free ∧ ({ State.reset with lock := .held 0 } : State).lock = .held 0 := ⟨rfl, rfl⟩

/-- Context 0 waits for the lock. -/
def blocked (l : Lock) : State :=
  { holding (wrmsgAt (.pos .acq) [0x41] 0 1 0) (present .fourBit 16 2) with
    lock := l, waiters := [0], agenda := [.run 0] }

theorem witness_WaiterRunsOnlyWhenLockIsFree (l : Lock) :
    nextMoveIs (.run 0) [] (blocked l) ∧ 0 ∈ (blocked l).waiters ∧
      (slotGet (blocked l).ctxs 0).op = some .wrmsg ∧ (slotGet (blocked l).ctxs 0).wait = none ∧ (blocked l).lock = l :=
  ⟨⟨rfl, rfl, rfl⟩, by simp [blocked], rfl, rfl, rfl⟩

theorem witness_OnlyAcquireAndUnlockWriteTheLock :
    (Instr.wait .exec ≠ .acquire ∧ Instr.wait .exec ≠ .unlock ∧ ∃ t, exec (.wait .exec) State.reset = .next t) ∧
    ∃ t, exec .nl { writing with own := State.reset.own } = .next t ∧ t.lock = .free :=
  ⟨⟨by decide, by decide, _, rfl⟩, _, rfl, rfl⟩

theorem witness_ClearDisplayWritesAndWaits :
    (present .fourBit 16 2).driver = some ⟨.fourBit, 16, 2⟩ ∧ ownsAll (present .fourBit 16 2) (openList .fourBit) ∧
    stopsAfter (lacking .e (present .fourBit 16 2)) (writeStrobes .fourBit .instruction 0x01) [] .e ∧
    inSegment .dispose (running (disposeAt (.execwait .clear)) (present .fourBit 16 2)) ∧
    (slotGet (running (disposeAt (.execwait .clear)) (present .fourBit 16 2)).ctxs 0).pc = .execwait .clear :=
  ⟨rfl, owned_openList _, stops_at_e _ _ _, inSegment_running _ _ rfl _ rfl rfl rfl, rfl⟩

theorem witness_NewLineWritesItsCode :
    (present .eightBit 16 2).driver = some ⟨.eightBit, 16, 2⟩ ∧ ownsAll (present .eightBit 16 2) (openList .eightBit) ∧
    stopsAfter (lacking .e (present .eightBit 16 2)) (writeStrobes .eightBit .instruction 0xC0) [] .e ∧
    inSegment .wrmsg (returning .charwait) ∧
    (slotGet (returning .charwait).ctxs (returning .charwait).cur).pc = .execwait (.plain .charwait) :=
  ⟨rfl, owned_openList _, stops_at_e _ _ _, returning_inSegment .charwait⟩

theorem witness_NlSendsNewLineAndCounts :
    (present .fourBit 16 2).driver = some ⟨.fourBit, 16, 2⟩ ∧ ownsAll (present .fourBit 16 2) (openList .fourBit) ∧
    stopsAfter (lacking .e (present .fourBit 16 2)) (writeStrobes .fourBit .instruction 0xC0) [] .e ∧
    inSegment .wrmsg (running (wrmsgAt (.execwait .nl) [0x0A] 1 1 2) (present .fourBit 16 2)) ∧
    (slotGet (running (wrmsgAt (.execwait .nl) [0x0A] 1 1 2) (present .fourBit 16 2)).ctxs 0).pc = .execwait .nl :=
  ⟨rfl, owned_openList _, stops_at_e _ _ _, inSegment_running _ _ rfl _ rfl rfl rfl, rfl⟩

/-- Both warnings at once: `lineChars = width`, `lines = height + 1`. -/
theorem witness_CharWarnsWritesAndCounts :
    (running (wrmsgAt (.pos .fetch) [0x43] 1 3 16) (present .fourBit 16 2)).driver = some ⟨.fourBit, 16, 2⟩ ∧
    [Event.evt .overrun, .evt .overflow] =
      (if (wrmsgAt (.pos .fetch) [0x43] 1 3 16).lineChars = 16 then [Event.evt .overrun] else [])
        ++ (if 2 < (wrmsgAt (.pos .fetch) [0x43] 1 3 16).lines then [Event.evt .overflow] else []) ∧
    ownsAll (running (wrmsgAt (.pos .fetch) [0x43] 1 3 16) (present .fourBit 16 2)) (openList .fourBit) ∧
    stopsAfter (lacking .e (present .fourBit 16 2)) (writeStrobes .fourBit .data 0x43) [] .e ∧
    inSegment .wrmsg (running (wrmsgAt (.execwait .char) [0x43] 1 1 0) (present .fourBit 16 2)) ∧
    (slotGet (running (wrmsgAt (.execwait .char) [0x43] 1 1 0) (present .fourBit 16 2)).ctxs 0).pc = .execwait .char :=
  ⟨rfl, by decide, owned_openList .fourBit, stops_at_e _ _ _, inSegment_running _ _ rfl _ rfl rfl rfl, rfl⟩

theorem unowned_reset (p : Pin) : State.reset.own.get p = false := by cases p <;> rfl

theorem witness_AbsentDriverFaultsAtFirstPinWrite :
    State.reset.driver = none ∧ ∀ p, State.reset.own.get p = false := ⟨rfl, unowned_reset⟩

theorem witness_WrmsgOnAbsentDriverFails :
    slotsWf (running (wrmsgAt (.pos .acq) [0x41] 0 1 0) State.reset).ctxs ∧
      inSegment .wrmsg (running (wrmsgAt (.pos .acq) [0x41] 0 1 0) State.reset) ∧
      (slotGet (running (wrmsgAt (.pos .acq) [0x41] 0 1 0) State.reset).ctxs 0).pc = .pos .acq ∧
      (running (wrmsgAt (.pos .acq) [0x41] 0 1 0) State.reset).lock = .free ∧
      (running (wrmsgAt (.pos .acq) [0x41] 0 1 0) State.reset).driver = none ∧
      (∀ p, (running (wrmsgAt (.pos .acq) [0x41] 0 1 0) State.reset).own.get p = false) :=
  ⟨⟨by simp [running, holding], by simp [running, holding, wrmsgAt, Ctx.idle]⟩,
    inSegment_running _ _ rfl _ rfl rfl rfl, rfl, rfl, rfl, unowned_reset⟩

/-- The last element, and the end of the message. -/
theorem witness_FetchReadsElementsInOrder :
    (∀ idx, inSegment .wrmsg (running (wrmsgAt (.pos .fetch) [0x41, 0x0A] idx 1 0) (present .fourBit 16 2)) ∧
      (slotGet (running (wrmsgAt (.pos .fetch) [0x41, 0x0A] idx 1 0) (present .fourBit 16 2)).ctxs 0).pc = .pos .fetch) ∧
    (wrmsgAt (.pos .fetch) [0x41, 0x0A] 1 1 0).msg[1]? = some 0x0A ∧
    (wrmsgAt (.pos .fetch) [0x41, 0x0A] 2 1 0).msg.length ≤ 2 :=
  ⟨fun _ => ⟨inSegment_running _ _ rfl _ rfl rfl rfl, rfl⟩, rfl, by decide⟩

theorem witness_InitRefusedWhilePresent : (present .fourBit 16 2).driver.isSome = true := rfl

theorem witness_ConfigErrorIsAbsorbed : State.reset.driver = none ∧ (⟨0x3FF, true, 0, 0⟩ : Cfg).err = true := ⟨rfl, rfl⟩

theorem witness_MalformedRolesAreASilentNoOp :
    State.reset.driver = none ∧ (⟨0x3C1, false, 0, 0⟩ : Cfg).err = false ∧ resolveMode 0x3C1 = none := by decide

theorem witness_OpenFailureIsAbsorbed :
    State.reset.driver = none ∧ resolveMode 0x3FF = some .eightBit ∧ resolveMode 0x3C3 = some .fourBit ∧
    openList .eightBit = [.rs] ++ .e :: dataPinsOf .eightBit ∧
    (∀ q ∈ [Pin.rs], pinBit badPins.invalid q = false ∧ pinBit badPins.unavail q = false) ∧
    pinBit badPins.invalid .e = false ∧ pinBit badPins.unavail .e = true ∧
    openList .fourBit = [.rs, .e] ++ .d4 :: [.d5, .d6, .d7] ∧
    (∀ q ∈ [Pin.rs, .e], pinBit (⟨0x040, 0x040, 0⟩ : Platform).invalid q = false ∧
      pinBit (⟨0x040, 0x040, 0⟩ : Platform).unavail q = false) ∧
    pinBit (⟨0x040, 0x040, 0⟩ : Platform).invalid .d4 = true := by decide

theorem witness_InitCreatesTheFourBitDriver :
    State.reset.driver = none ∧ (∀ p, State.reset.own.get p = false) ∧ resolveMode 0x3D3 = some .fourBit ∧
    (∀ p ∈ openList .fourBit,
      pinBit State.reset.platform.invalid p = false ∧ pinBit State.reset.platform.unavail p = false) :=
  ⟨rfl, unowned_reset, by decide, by decide⟩

theorem no_bad_pin (p : Pin) :
    pinBit State.reset.platform.invalid p = false ∧ pinBit State.reset.platform.unavail p = false := by
  cases p <;> decide

theorem witness_EightBitInitFailsVisibly (b : EightBitState) :
    resolveMode 0x3FF = some .eightBit ∧
    ∃ s : State, s.params.eightBitState = b ∧ s.driver = none ∧ (∀ p, s.own.get p = false) ∧
      ∀ p, pinBit s.platform.invalid p = false ∧ pinBit s.platform.unavail p = false :=
  ⟨by decide, { State.reset with params := ⟨1, 1, b, 1000000, 14⟩ }, rfl, rfl, unowned_reset, no_bad_pin⟩

theorem witness_InitStepsStrobeAndWait :
    (strobePins (present .fourBit 16 2).mode (.four 0x6) = some [.d4, .d5, .d6, .d7] ∧
      ownsAll (present .fourBit 16 2) [.e, .rs, .d4, .d5, .d6, .d7]) ∧
    (strobePins (present .eightBit 16 2).mode (.four 0x6) = some [.d0, .d1, .d2, .d3] ∧
      ownsAll (present .eightBit 16 2) [.e, .rs, .d0, .d1, .d2, .d3]) ∧
    (strobePins (lacking .d7 (present .fourBit 16 2)).mode (.four 0x6) = some [.d4, .d5, .d6, .d7] ∧
      ∃ pre, stopsAfter (lacking .d7 (present .fourBit 16 2))
        (strobeEvents .instruction [.d4, .d5, .d6, .d7] (bitLevels (.four 0x6))) pre .d7) :=
  ⟨⟨rfl, owned_present _ _ (by decide) 16 2⟩, ⟨rfl, owned_present _ _ (by decide) 16 2⟩, rfl, stops_at_d7 _ _⟩

theorem witness_DisposeBeginsWithClear :
    (present .eightBit 16 2).driver = some ⟨.eightBit, 16, 2⟩ ∧ ownsAll (present .eightBit 16 2) (openList .eightBit) :=
  ⟨rfl, owned_openList _⟩

theorem witness_DisposeReleasesEveryPinOnce (m : Mode) :
    (inSegment .dispose (running (disposeAt (.pos .release)) (present m 16 2)) ∧
      (running (disposeAt (.pos .release)) (present m 16 2)).driver = some ⟨m, 16, 2⟩ ∧
      ∀ p, (running (disposeAt (.pos .release)) (present m 16 2)).own.get p = ownedIn m p) ∧
    (inSegment .dispose (running (disposeAt (.pos .release)) State.reset) ∧
      (slotGet (running (disposeAt (.pos .release)) State.reset).ctxs 0).pc = .pos .release ∧
      (running (disposeAt (.pos .release)) State.reset).own.get .rs = false) :=
  ⟨⟨inSegment_running _ _ rfl _ rfl rfl rfl, rfl, pins_present m 16 2⟩,
    inSegment_running _ _ rfl _ rfl rfl rfl, rfl, rfl⟩

theorem witness_StepRunsThePlacedInstruction :
    (State.reset.withFetchWord 8 6).issued = some ⟨.uop, tableBytes 8 6⟩ ∧
    decode .uop (tableBytes 8 6) = .ok (.acquire, [0, 0, 0, 0, 0, 0, 0, 0]) ∧
    decode .hcmd [3] = .error .reservedCommand := ⟨rfl, rfl, rfl⟩

/-- Any position of an operation is met by a running context. -/
theorem witness_positions (op : Op) (pc : Pc) (m : Mode) :
    inSegment op (running { Ctx.idle with op := some op, pc := pc } (present m 16 2)) ∧
      (slotGet (running { Ctx.idle with op := some op, pc := pc } (present m 16 2)).ctxs 0).pc = pc :=
  ⟨inSegment_running _ _ rfl _ rfl rfl rfl, rfl⟩

theorem witness_StepRunsTheInstructionOfThePosition :
    (∀ op pc, inSegment op (running { Ctx.idle with op := some op, pc := pc } (present .fourBit 16 2))) ∧
      nextInitStep .k9 = some .k10 := ⟨fun op pc => (witness_positions op pc .fourBit).1, rfl⟩

theorem witness_SequencerMovesOn (op : Op) (pc : Pc) :
    (inSegment op (running { Ctx.idle with op := some op, pc := pc } (present .fourBit 16 2)) ∧
      (slotGet (running { Ctx.idle with op := some op, pc := pc } (present .fourBit 16 2)).ctxs 0).pc = pc) ∧
    (inSegment .init (running (initAt (.pos .opening)) State.reset) ∧
      slotsWf (running (initAt (.pos .opening)) State.reset).ctxs ∧
      (running (initAt (.pos .opening)) State.reset).driver = none ∧ (⟨0x3C3, false, 16, 2⟩ : Cfg).err = false ∧
      slotGet (running (initAt (.pos .opening)) State.reset).ctxs 0 =
        { Ctx.idle with op := some .init, cfg := ⟨0x3C3, false, 16, 2⟩, pc := .pos .opening }) :=
  ⟨witness_positions op pc .fourBit, inSegment_running _ _ rfl _ rfl rfl rfl,
    ⟨by simp [running, holding], by simp [running, holding, initAt, Ctx.idle]⟩, rfl, rfl, rfl⟩

theorem witness_SegmentIsNotInterleaved :
    slotsWf writing.ctxs ∧ inSegment .wrmsg writing ∧ ∃ t, step writing = .next t :=
  ⟨inv_writing.slots, ⟨rfl, rfl, by simp [writing, running, holding, present, State.reset], rfl⟩,
    exists_next (by decide)⟩

theorem witness_TraceOnlyGrowsAndParametersStay : ∃ t, step writing = .next t := exists_next (by decide)

/-- The flag stays, is cleared by reset, and is set. -/
theorem witness_FaultedIsSticky :
    (∃ t, step { writing with faulted := true } = .next t ∧ t.faulted = true) ∧
    (∃ t, step { State.reset with faulted := true, agenda := [.reset] } = .next t ∧ t.faulted = false) ∧
    (∃ t, step (running (disposeAt (.pos .clear)) State.reset) = .next t ∧ t.faulted = true) :=
  ⟨⟨_, rfl, rfl⟩, ⟨_, rfl, rfl⟩, _, rfl, rfl⟩

theorem witness_ModeAndGeometryNeverChange :
    Inv writing ∧ writing.driver = some ⟨.fourBit, 16, 2⟩ ∧ ∃ t, step writing = .next t :=
  ⟨inv_writing, rfl, exists_next (by decide)⟩

theorem wait_writing : WaitInv writing := by
  refine ⟨fun c h => ?_, fun _ => rfl⟩
  by_cases hc : c = 0
  · subst hc
    cases h
  · simp [writing, running, holding, slotGet, hc, Ctx.idle]

theorem witness_StepKeepsTheInvariant : Inv writing ∧ WaitInv writing ∧ ∃ t, step writing = .next t :=
  ⟨inv_writing, wait_writing, exists_next (by decide)⟩

theorem witness_EveryInstructionAndStepGoesOn : Inv State.reset ∧ Inv writing := ⟨inv_reset, inv_writing⟩

theorem witness_CountersFollowTheMessage : Inv writing ∧ CountersInv writing ∧ ∃ t, step writing = .next t :=
  ⟨inv_writing, counters_writing, exists_next (by decide)⟩

/-- Context 1 holds the lock and waits; context 0 is about to acquire it. -/
def contending : State :=
  { State.reset with
    driver := some ⟨.fourBit, 16, 2⟩, own := (present .fourBit 16 2).own, lock := .held 1, midSegment := true
    ctxs := [(0, wrmsgAt (.pos .acq) [0x41] 0 1 0), (1, { wrmsgAt (.execwait .clear) [0x42] 0 1 0 with wait := some 40 })] }

theorem inv_contending : Inv contending := by
  have hg : ∀ c, slotGet contending.ctxs c =
      if c = 0 then wrmsgAt (.pos .acq) [0x41] 0 1 0
      else if c = 1 then { wrmsgAt (.execwait .clear) [0x42] 0 1 0 with wait := some 40 } else Ctx.idle := by
    intro c
    by_cases h : c = 0
    · subst h
      rfl
    · by_cases h1 : c = 1
      · subst h1
        rfl
      · simp [contending, slotGet, h, h1]
  constructor
  · exact ⟨by simp [contending], by simp [contending, wrmsgAt, Ctx.idle]⟩
  · rfl
  · intro c
    rw [hg]
    split
    · next h => subst h; decide
    · split
      · next h => subst h; decide
      · simp [Ctx.idle]
  · exact pins_present .fourBit 16 2
  · intro c op
    rw [hg]
    split
    · intro h
      cases h
      rfl
    · split
      · intro h
        cases h
        rfl
      · simp [Ctx.idle]
  · intro c
    rw [hg, Invariant.holdsLock_eq]
    split
    · next h => subst h; simp [contending, wrmsgAt]
    · split
      · next h => subst h; simp [contending, wrmsgAt]
      · next h => simp [contending, Ctx.idle]; omega
  · simp [contending, State.reset]
  · simp [contending, State.reset]
  · intro c op
    rw [hg]
    split
    · simp [wrmsgAt]
    · split <;> simp [wrmsgAt, Ctx.idle]
  · intro c
    rw [hg]
    split
    · simp [wrmsgAt]
    · split <;> simp [wrmsgAt, Ctx.idle]

/-- Context 1 waits while context 0 steps: the last premises of PendingWaitHoldsItsContext. -/
theorem witness_PendingWaitWhileAnotherRuns :
    Inv contending ∧ WaitInv contending ∧ (slotGet contending.ctxs 1).wait = some 40 ∧
      ∃ t, step contending = .next t := by
  refine ⟨inv_contending, ⟨fun c h => ?_, fun _ => rfl⟩, rfl, exists_next (by decide)⟩
  by_cases h0 : c = 0
  · subst h0
    cases h
  · by_cases h1 : c = 1
    · subst h1
      cases h
    · simp [contending, slotGet, h0, h1, Ctx.idle]

theorem witness_HolderExcludesOtherMessages :
    Inv contending ∧ contending.lock = .held 1 ∧ inSegment .wrmsg contending ∧ contending.cur ≠ 1 ∧
      ∃ t, step contending = .next t :=
  ⟨inv_contending, rfl, ⟨rfl, rfl, by simp [contending, State.reset], rfl⟩, by decide, exists_next (by decide)⟩

/-- An operation that goes on, and one that completes. -/
theorem witness_EveryOperationCompletesOnce :
    (Inv writing ∧ inSegment .wrmsg writing ∧ ∃ t, step writing = .next t) ∧
    (Inv (running (disposeAt (.pos .release)) (present .fourBit 16 2)) ∧
      inSegment .dispose (running (disposeAt (.pos .release)) (present .fourBit 16 2)) ∧
      ∃ t, step (running (disposeAt (.pos .release)) (present .fourBit 16 2)) = .next t ∧
        (slotGet t.ctxs 0).op = none) :=
  ⟨⟨inv_writing, ⟨rfl, rfl, by simp [writing, running, holding, present, State.reset], rfl⟩, exists_next (by decide)⟩,
    inv_one rfl rfl (by decide) (pins_present .fourBit 16 2) (by decide) (by intro op h; cases h; rfl) rfl rfl
      (by intro op h; simp [disposeAt]) (by decide),
    inSegment_running _ _ rfl _ rfl rfl rfl, _, rfl, rfl⟩

theorem witness_InitRunsItsWholeSequence :
    Inv { holding (initAt (.pos .cfg)) State.reset with agenda := initMoves 0 ++ [] } ∧
      slotGet (holding (initAt (.pos .cfg)) State.reset).ctxs 0 =
        { Ctx.idle with op := some .init, cfg := ⟨0x3C3, false, 16, 2⟩, pc := .pos .cfg } ∧
      resolveMode 0x3C3 = some .fourBit ∧
      (∀ p ∈ openList .fourBit,
        pinBit State.reset.platform.invalid p = false ∧ pinBit State.reset.platform.unavail p = false) ∧
      ∀ n r, ([] : List Move) ≠ .resetWithin n :: r :=
  ⟨Invariant.inv_agenda inv_init _, rfl, by decide, by decide, by simp⟩

theorem witness_WrmsgRunsItsWholeMessage :
    Inv { holding (wrmsgAt (.pos .acq) [0x41, 0x0A] 0 1 0) (present .fourBit 0 2) with
        agenda := messageMoves 0 [0x41, 0x0A] ++ [] } ∧
      (present .fourBit 0 2).driver = some ⟨.fourBit, 0, 2⟩ ∧ (present .fourBit 0 2).lock = .free ∧
      slotGet (holding (wrmsgAt (.pos .acq) [0x41, 0x0A] 0 1 0) (present .fourBit 0 2)).ctxs 0 =
        { Ctx.idle with op := some .wrmsg, msg := [0x41, 0x0A], pc := .pos .acq } ∧
      ∀ n r, ([] : List Move) ≠ .resetWithin n :: r :=
  ⟨Invariant.inv_agenda inv_message _, rfl, rfl, rfl, by simp⟩

theorem witness_WrmsgTraceHasTheRuleSize :
    Inv { holding (wrmsgAt (.pos .acq) [0x41, 0x0A] 0 1 0) (present .fourBit 0 2) with
        agenda := messageMoves 0 [0x41, 0x0A] ++ [] } ∧
      [(0x41 : Byte), 0x0A].count 0x0A = 1 ∧ [(0x41 : Byte), 0x0A].length - 1 = 1 ∧
      ([(0x41 : Byte), 0x0A] = [] ++ [0x41] ++ [0x0A] ∧ (0x0A : Byte) ∉ [(0x41 : Byte)]) ∧
      ([(0x41 : Byte), 0x0A] = [0x41, 0x0A] ++ [] ++ [] ∧ [(0x41 : Byte), 0x0A].getLast? = some 0x0A) :=
  ⟨Invariant.inv_agenda inv_message _, by decide, by decide, by decide, by decide⟩

theorem witness_DisposeRunsClearThenRelease (m : Mode) :
    Inv { holding (disposeAt (.pos .clear)) (present m 16 2) with agenda := disposeMoves 0 ++ [] } ∧
      (present m 16 2).driver = some ⟨m, 16, 2⟩ ∧
      slotGet (holding (disposeAt (.pos .clear)) (present m 16 2)).ctxs 0 =
        { Ctx.idle with op := some .dispose, pc := .pos .clear } ∧
      ∀ n r, ([] : List Move) ≠ .resetWithin n :: r :=
  ⟨Invariant.inv_agenda (inv_dispose m) _, rfl, rfl, by simp⟩

end Sys2Proof.Tests.Slice0
end

section
/-! The message-element format (30_encoding.md R93): the two cases of its equality test. -/

namespace Sys2Proof.Proofs.MessageElement

open Sys2Proof

@[simp] theorem decode_msg8_cons (c : Byte) (rest : List Byte) :
    decode .msg8 (c :: rest) = .ok (decodeMsg8 c, rest) := rfl

@[simp] theorem decodeMsg8_newline : decodeMsg8 0x0A = .nl := rfl

theorem decodeMsg8_of_ne_newline {c : Byte} (hc : c ≠ 0x0A) : decodeMsg8 c = .char c :=
  if_neg hc

/-- Settles O4: the cases are the two outcomes of R93's test. -/
theorem messageElementDecodesByOneTest : Obligations.MessageElementDecodesByOneTest := by
  intro c rest
  by_cases hc : c = 0x0A
  · subst hc
    rw [decode_msg8_cons, decodeMsg8_newline, if_pos rfl]
  · rw [decode_msg8_cons, decodeMsg8_of_ne_newline hc, if_neg hc]

end Sys2Proof.Proofs.MessageElement
end

section
/-! INIT with a role set that resolves to no mode (41_initialize.md R144). -/

namespace Sys2Proof.Proofs.MalformedRoles

open Sys2Proof Sys2Proof.Machine Sys2Proof.Safety

/-- INIT runs with its own registers in the slot. -/
theorem exec_init (cfg : Cfg) (s : State) :
    exec (.init cfg) s = (initOp cfg (withSlot (initCtx cfg) s)).outcome := rfl

@[simp] theorem outcome_ok (s : State) : (Res.ok s).outcome = .next s := rfl

theorem initCtx_ne_idle (cfg : Cfg) : initCtx cfg ≠ Ctx.idle := by
  intro h
  have hop : some Op.init = none := congrArg Ctx.op h
  cases hop

/-- A completion leaves no trace of the registers the slot held. -/
theorem afterCompletion_withSlot {x : Ctx} (hx : x ≠ Ctx.idle) (evs : List Event) (s : State) :
    afterCompletion evs (withSlot x s) = afterCompletion evs s := by
  simp [afterCompletion, afterEvents, withSlot, Laws.Slots.set_set hx]

/-- INIT on an Absent driver passes R247's first two tests and ends at the third, before `Open`. -/
theorem initOp_of_no_mode {cfg : Cfg} {s : State} (habsent : s.driver = none) (herr : cfg.err = false)
    (hmode : resolveMode cfg.present = none) : initOp cfg s = .ok (complete .init s) := by
  simp [initOp, habsent, herr, hmode]

/-- Settles O37: INIT ends before `Open`, and its completion overwrites the slot it ran in. -/
theorem malformedRolesAreASilentNoOp : Obligations.MalformedRolesAreASilentNoOp := by
  intro cfg s habsent herr hmode
  have habsent' : (withSlot (initCtx cfg) s).driver = none := habsent
  rw [exec_init, initOp_of_no_mode habsent' herr hmode, outcome_ok, Laws.Events.complete_eq,
    afterCompletion_withSlot (initCtx_ne_idle cfg)]

end Sys2Proof.Proofs.MalformedRoles
end

section
/-! Fetch, the iteration of WRMSG over its elements (43_message.md R195). -/

namespace Sys2Proof.Proofs.MessageFetch

open Sys2Proof Sys2Proof.Machine Sys2Proof.Safety Sys2Proof.Laws.Steps

theorem decodeMsg8_eq_ite (c : Byte) : decodeMsg8 c = if c = 0x0A then .nl else .char c := rfl

/-- Every operation that stands at position `fetch` fetches. -/
theorem step_at_fetch {op : Op} {s : State} (hseg : inSegment op s)
    (hpc : (slotGet s.ctxs s.cur).pc = .pos .fetch) : step s = runAction (fetchAction s) := by
  have hpc' : s.me.pc = .pos .fetch := hpc
  rw [step_atPosition hseg, hpc']
  rfl

theorem fetchAction_of_element {s : State} {c : Byte}
    (helem : (slotGet s.ctxs s.cur).msg[(slotGet s.ctxs s.cur).idx]? = some c) :
    fetchAction s =
      .instr (withSlot { slotGet s.ctxs s.cur with idx := (slotGet s.ctxs s.cur).idx + 1 } s) (decodeMsg8 c) := by
  have helem' : s.me.msg[s.me.idx]? = some c := helem
  rw [fetchAction, helem']
  rfl

theorem fetchAction_at_end {s : State}
    (hend : (slotGet s.ctxs s.cur).msg.length ≤ (slotGet s.ctxs s.cur).idx) :
    fetchAction s = .own (.ok (withSlot { slotGet s.ctxs s.cur with pc := .pos .unlock } s)) := by
  have hnone : s.me.msg[s.me.idx]? = none := List.getElem?_eq_none hend
  rw [fetchAction, hnone]
  rfl

/-- Settles O33: the two cases are whether the message has an element at `idx`. -/
theorem fetchReadsElementsInOrder : Obligations.FetchReadsElementsInOrder := by
  intro op s hseg hpc
  rw [step_at_fetch hseg hpc]
  constructor
  · intro c helem
    rw [fetchAction_of_element helem, decodeMsg8_eq_ite]
    rfl
  · intro hend
    rw [fetchAction_at_end hend]
    rfl

end Sys2Proof.Proofs.MessageFetch
end

section
/-! INIT with a configuration error (60_exceptions.md R236), the second of R247's tests. -/

namespace Sys2Proof.Proofs.ConfigError

open Sys2Proof Sys2Proof.Machine Sys2Proof.Safety Sys2Proof.Proofs.MalformedRoles

/-- On an Absent driver the error bit is tested before any other field of the configuration is read. -/
theorem initOp_of_err {cfg : Cfg} {s : State} (habsent : s.driver = none) (herr : cfg.err = true) :
    initOp cfg s = .ok (complete .init (emit (.evt .configError) s)) := by
  simp [initOp, habsent, herr]

/-- An absorbed error is two events of one completion. -/
theorem complete_emit_evt (op : Op) (c : Condition) (s : State) :
    complete op (emit (.evt c) s) = afterCompletion [.evt c, .done op] s := by
  rw [Laws.Events.emit_eq (by simp), Laws.Events.complete_eq, Laws.Events.afterCompletion_append,
    List.singleton_append]

/-- Settles O36: INIT ends at the error bit, and its completion overwrites the slot it ran in. -/
theorem configErrorIsAbsorbed : Obligations.ConfigErrorIsAbsorbed := by
  intro cfg s habsent herr
  have habsent' : (withSlot (initCtx cfg) s).driver = none := habsent
  rw [exec_init, initOp_of_err habsent' herr, outcome_ok, complete_emit_evt,
    afterCompletion_withSlot (initCtx_ne_idle cfg)]

end Sys2Proof.Proofs.ConfigError
end

section
/-! Encoding and decoding of whole instructions (30_encoding.md R91 to R98): one lemma for each form whose operand
lies in the bytes after its word, and, for the way back, one inversion lemma for each format. -/

namespace Sys2Proof.Proofs.InstructionCodec

open Sys2Proof Sys2Proof.Laws.Codec Sys2Proof.Proofs.MessageElement

/-! ## From the instruction to its bytes and back -/

theorem decode_init {bs rest : List Byte} {cfg : Cfg} (h : decodeCfg bs = .ok (cfg, rest)) :
    decode .hcmd (0 :: bs) = .ok (.init cfg, rest) := by
  simp [decode, decodeHcmd, h]

theorem decode_wrmsg {bs rest msg : List Byte} (h : decodeMessage bs = .ok (msg, rest)) :
    decode .hcmd (1 :: bs) = .ok (.wrmsg msg, rest) := by
  simp [decode, decodeHcmd, h]

theorem decode_open {bs rest : List Byte} {pins : List Pin} (h : decodePins bs = .ok (pins, rest))
    (hn : pins.Nodup) : decode .uop (0 :: bs) = .ok (.openOutputs pins, rest) := by
  simp [decode, decodeUop, decodeOpen, h, hn]

theorem decode_setLevel (p : Pin) (l : Level) (rest : List Byte) :
    decode .uop (1 :: encodePin p :: encodeLevel l :: rest) = .ok (.setLevel p l, rest) := by
  simp [decode, decodeUop, decodeSetLevel, decodePin_encodePin, decodeLevel_encodeLevel]

theorem decode_release (p : Pin) (rest : List Byte) :
    decode .uop (2 :: encodePin p :: rest) = .ok (.release p, rest) := by
  simp [decode, decodeUop, decodeRelease, decodePin_encodePin]

theorem decode_strobe (r : Register) (v : StrobeValue) (rest : List Byte) :
    decode .uop (3 :: encodeRegister r :: encodeStrobeValue v ++ rest) = .ok (.strobe r v, rest) := by
  obtain ⟨a, b, he, hd⟩ := decodeStrobeValue_encodeStrobeValue v
  simp [decode, decodeUop, decodeStrobe, he, hd, decodeRegister_encodeRegister]

theorem decode_writeValue (r : Register) (v : Byte) (rest : List Byte) :
    decode .uop (4 :: encodeRegister r :: v :: rest) = .ok (.writeValue r v, rest) := by
  simp [decode, decodeUop, decodeWriteValue, decodeRegister_encodeRegister]

theorem decode_wait (t : WaitTime) (rest : List Byte) :
    decode .uop (5 :: encodeWaitTime t :: rest) = .ok (.wait t, rest) := by
  simp [decode, decodeUop, decodeWait, decodeWaitTime_encodeWaitTime]

/-- Settles O1: each row with operands by its operands' own round trip, each row of one byte by computation. -/
theorem decodeReadsBackEncoded : Obligations.DecodeReadsBackEncoded := by
  intro i rest hwf
  cases i with
  | init cfg =>
    obtain ⟨hw, hh⟩ : cfg.width < 256 ∧ cfg.height < 256 := by simpa [Instr.wf] using hwf
    exact decode_init (decodeCfg_encodeCfg cfg hw hh rest)
  | wrmsg msg => exact decode_wrmsg (decodeMessage_encodeMessage msg rest)
  | char ch =>
    have hne : ch ≠ 0x0A := of_decide_eq_true hwf
    exact congrArg (fun i => Except.ok (i, rest)) (decodeMsg8_of_ne_newline hne)
  | openOutputs pins =>
    exact decode_open (decodePins_encodePins pins rest) (by simpa [Instr.wf] using hwf)
  | setLevel p l => exact decode_setLevel p l rest
  | release p => exact decode_release p rest
  | strobe r v => exact decode_strobe r v rest
  | writeValue r v => exact decode_writeValue r v rest
  | wait t => exact decode_wait t rest
  | _ => rfl

/-! ## From bytes to the instruction and back -/

/-- What O2 says of one reading. -/
def ReadsExactly (f : Format) (bs : List Byte) (i : Instr) (rest : List Byte) : Prop :=
  i.format = f ∧ i.wf = true ∧ encode i ++ rest = bs

theorem readsExactly_hcmd {b : Byte} {bs rest : List Byte} {i : Instr}
    (h : decodeHcmd b bs = .ok (i, rest)) : ReadsExactly .hcmd (b :: bs) i rest := by
  unfold decodeHcmd at h
  split at h
  · next hb =>
    split at h
    · cases h
    · next cfg _ hc =>
      cases h
      obtain ⟨he, hw, hh⟩ := encodeCfg_decodeCfg _ _ _ hc
      exact ⟨rfl, by simp [Instr.wf, hw, hh], by simp [encode, he, byte_of_toNat hb]⟩
  · next hb =>
    split at h
    · cases h
    · next msg _ hm =>
      cases h
      exact ⟨rfl, rfl, by simp [encode, encodeMessage_decodeMessage _ _ _ hm, byte_of_toNat hb]⟩
  · next hb => cases h; exact ⟨rfl, rfl, by simp [encode, byte_of_toNat hb]⟩
  · cases h
  · cases h

theorem readsExactly_msg8 (b : Byte) (rest : List Byte) : ReadsExactly .msg8 (b :: rest) (decodeMsg8 b) rest := by
  unfold decodeMsg8
  split
  · next hb => subst hb; exact ⟨rfl, rfl, rfl⟩
  · next hb => exact ⟨rfl, by simpa [Instr.wf] using hb, rfl⟩

theorem readsExactly_lcd8 {b : Byte} {rest : List Byte} {i : Instr} (h : decodeLcd8 b = .ok i) :
    ReadsExactly .lcd8 (b :: rest) i rest := by
  unfold decodeLcd8 at h
  split at h
  case h_3 => cases h
  all_goals
    next hb =>
    cases h
    exact ⟨rfl, rfl, by rw [byte_of_toNat hb]; rfl⟩

theorem readsExactly_initrom {b : Byte} {rest : List Byte} {i : Instr} (h : decodeInitrom b = .ok i) :
    ReadsExactly .initrom (b :: rest) i rest := by
  unfold decodeInitrom at h
  split at h
  case h_11 => cases h
  all_goals
    next hb =>
    cases h
    exact ⟨rfl, rfl, by rw [byte_of_toNat hb]; rfl⟩

/-! The operands of each primitive. -/

theorem readsExactly_open {bs rest : List Byte} {i : Instr} (h : decodeOpen bs = .ok (i, rest)) :
    ReadsExactly .uop (0 :: bs) i rest := by
  unfold decodeOpen at h
  split at h
  · cases h
  · next pins _ hp =>
    split at h
    · next hn =>
      cases h
      exact ⟨rfl, by simpa [Instr.wf] using hn, by simp [encode, encodePins_decodePins _ _ _ hp]⟩
    · cases h

theorem readsExactly_setLevel {bs rest : List Byte} {i : Instr} (h : decodeSetLevel bs = .ok (i, rest)) :
    ReadsExactly .uop (1 :: bs) i rest := by
  unfold decodeSetLevel at h
  split at h
  · split at h
    · next hp hl =>
      cases h
      exact ⟨rfl, rfl, by simp [encode, encodePin_decodePin _ _ hp, encodeLevel_decodeLevel _ _ hl]⟩
    · cases h
    · cases h
  · cases h

theorem readsExactly_release {bs rest : List Byte} {i : Instr} (h : decodeRelease bs = .ok (i, rest)) :
    ReadsExactly .uop (2 :: bs) i rest := by
  unfold decodeRelease at h
  split at h
  · split at h
    · next hp =>
      cases h
      exact ⟨rfl, rfl, by simp [encode, encodePin_decodePin _ _ hp]⟩
    · cases h
  · cases h

theorem readsExactly_strobe {bs rest : List Byte} {i : Instr} (h : decodeStrobe bs = .ok (i, rest)) :
    ReadsExactly .uop (3 :: bs) i rest := by
  unfold decodeStrobe at h
  split at h
  · split at h
    · next hr hv =>
      cases h
      exact ⟨rfl, rfl, by
        simp [encode, encodeRegister_decodeRegister _ _ hr, encodeStrobeValue_decodeStrobeValue _ _ _ hv]⟩
    · cases h
    · cases h
  · cases h

theorem readsExactly_writeValue {bs rest : List Byte} {i : Instr} (h : decodeWriteValue bs = .ok (i, rest)) :
    ReadsExactly .uop (4 :: bs) i rest := by
  unfold decodeWriteValue at h
  split at h
  · split at h
    · next hr =>
      cases h
      exact ⟨rfl, rfl, by simp [encode, encodeRegister_decodeRegister _ _ hr]⟩
    · cases h
  · cases h

theorem readsExactly_wait {bs rest : List Byte} {i : Instr} (h : decodeWait bs = .ok (i, rest)) :
    ReadsExactly .uop (5 :: bs) i rest := by
  unfold decodeWait at h
  split at h
  · split at h
    · next ht =>
      cases h
      exact ⟨rfl, rfl, by simp [encode, encodeWaitTime_decodeWaitTime _ _ ht]⟩
    · cases h
  · cases h

theorem readsExactly_uop {b : Byte} {bs rest : List Byte} {i : Instr}
    (h : decodeUop b bs = .ok (i, rest)) : ReadsExactly .uop (b :: bs) i rest := by
  unfold decodeUop at h
  split at h
  case h_10 => cases h
  all_goals rename_i hb; rw [byte_of_toNat hb]
  · exact readsExactly_open h
  · exact readsExactly_setLevel h
  · exact readsExactly_release h
  · exact readsExactly_strobe h
  · exact readsExactly_writeValue h
  · exact readsExactly_wait h
  · cases h; exact ⟨rfl, rfl, rfl⟩
  · cases h; exact ⟨rfl, rfl, rfl⟩
  · cases h; exact ⟨rfl, rfl, rfl⟩

/-- An instruction of one byte takes that byte and leaves the others. -/
theorem withRest_ok {o : Except DecodeError Instr} {bs rest : List Byte} {i : Instr}
    (h : withRest o bs = .ok (i, rest)) : o = .ok i ∧ bs = rest := by
  unfold withRest at h
  split at h
  · cases h; exact ⟨rfl, rfl⟩
  · cases h

/-- Settles O2: the five formats, by their inversion lemmas. -/
theorem encodeWritesBackDecoded : Obligations.EncodeWritesBackDecoded := by
  intro f bs i rest h
  cases bs with
  | nil => cases h
  | cons b bs =>
    cases f with
    | hcmd => exact readsExactly_hcmd h
    | msg8 => cases h; exact readsExactly_msg8 b rest
    | lcd8 => obtain ⟨hi, rfl⟩ := withRest_ok h; exact readsExactly_lcd8 hi
    | initrom => obtain ⟨hi, rfl⟩ := withRest_ok h; exact readsExactly_initrom hi
    | uop => exact readsExactly_uop h

/-- Settles O3: each word by computation, and the layout of `CFG` by reading back what its fields encode to. -/
theorem tableWordsDecodeToTheirRows : Obligations.TableWordsDecodeToTheirRows :=
  ⟨decodeReadsBackEncoded (.init ⟨0x3C3, false, 16, 2⟩) [] rfl, rfl, rfl, rfl, rfl, rfl, rfl, rfl, rfl, rfl, rfl, rfl,
    rfl⟩

end Sys2Proof.Proofs.InstructionCodec
end

section
/-! INIT (41_initialize.md R140 to R148): its refusal, the two answers of `Open`, and what follows a successful `Open`
in each mode. -/

namespace Sys2Proof.Proofs.Initialize

open Sys2Proof Sys2Proof.Machine Sys2Proof.Safety Sys2Proof.Laws Sys2Proof.Laws.State Sys2Proof.Laws.Events
  Sys2Proof.Laws.Transfer Sys2Proof.Laws.Steps Sys2Proof.Proofs.MalformedRoles

/-- R247's first test: on a Present driver nothing of the configuration is read. -/
theorem initOp_of_present {cfg : Cfg} {s : State} (h : s.driver.isSome = true) :
    initOp cfg s = .ok (completeFail .init .initWhilePresent s) := by
  simp [initOp, h]

/-- Settles O35: the completion overwrites the slot INIT ran in. -/
theorem initRefusedWhilePresent : Obligations.InitRefusedWhilePresent := by
  intro cfg s hd
  have hd' : (withSlot (initCtx cfg) s).driver.isSome = true := hd
  rw [exec_init, initOp_of_present hd', outcome_ok, completeFail_eq, afterCompletion_withSlot (initCtx_ne_idle cfg)]

/-! ## The answer of `Open` -/

theorem good_of_firstBadPin_none {pl : Platform} {pins : List Pin} (h : firstBadPin pl pins = none) :
    ∀ p ∈ pins, pinBit pl.invalid p = false ∧ pinBit pl.unavail p = false := by
  induction pins with
  | nil => simp
  | cons p rest ih =>
    simp only [firstBadPin] at h
    split at h
    · cases h
    · next hi =>
      split at h
      · cases h
      · next hu => simpa [hi, hu] using ih h

/-- The first bad pin decides, `invalid` first (40_pinbank.md R121). -/
theorem firstBadPin_at {pl : Platform} {pre : List Pin} (p : Pin) (post : List Pin)
    (hpre : ∀ q ∈ pre, pinBit pl.invalid q = false ∧ pinBit pl.unavail q = false) :
    (pinBit pl.invalid p = true → firstBadPin pl (pre ++ p :: post) = some .invalid) ∧
    (pinBit pl.invalid p = false → pinBit pl.unavail p = true →
      firstBadPin pl (pre ++ p :: post) = some .unavailable) := by
  rw [firstBadPin_skip pre _ hpre]
  exact ⟨fun hi => by simp [firstBadPin, hi], fun hi hu => by simp [firstBadPin, hi, hu]⟩

theorem exec_init_bad {cfg : Cfg} {m : Mode} {s : State} {x : OpenFailure} (hd : s.driver = none)
    (he : cfg.err = false) (hm : resolveMode cfg.present = some m)
    (hbad : firstBadPin s.platform (openList m) = some x) :
    exec (.init cfg) s =
      .next { afterCompletion [.evt (openCondition x), .done .init] s with openAnswer := some x } := by
  rw [init_opens hd he hm, initOpenOp_bad hbad _ (opening_ne_idle cfg)]

/-- Settles O38: both answers are those of the first bad pin. -/
theorem openFailureIsAbsorbed : Obligations.OpenFailureIsAbsorbed := by
  intro cfg m pre p post s hd he hm hlist hpre
  obtain ⟨hinvalid, hunavail⟩ := firstBadPin_at p post hpre
  rw [← hlist] at hinvalid hunavail
  exact ⟨fun hi => exec_init_bad hd he hm (hinvalid hi), fun hi hu => exec_init_bad hd he hm (hunavail hi hu)⟩

/-! ## FourBit -/

theorem exec_init_fourBit {cfg : Cfg} {s : State} (hd : s.driver = none) (he : cfg.err = false)
    (hm : resolveMode cfg.present = some .fourBit)
    (hp : ∀ p ∈ openList .fourBit, pinBit s.platform.invalid p = false ∧ pinBit s.platform.unavail p = false) :
    exec (.init cfg) s = .next { s with
      driver := some ⟨.fourBit, cfg.width, cfg.height⟩
      own := ownAfter (openList .fourBit) s.own
      lvl := padAfter s.platform.padLevel (openList .fourBit) s.lvl
      openAnswer := none
      trace := s.trace ++ (ownEvents (openList .fourBit)).map (fun ev => (s.cur, ev))
      ctxs := slotSet s.ctxs s.cur { initCtx cfg with pc := .pos (.seq .k1) } } := by
  rw [init_opens hd he hm, initOpenOp_fourBit cfg s hp _ (opening_ne_idle cfg)]
  rfl

/-- Pins of an Absent driver after a mode's list is acquired. -/
theorem ownAfter_openList {own : PerPin Bool} (h : ∀ p, own.get p = false) (m : Mode) (p : Pin) :
    (ownAfter (openList m) own).get p = ownedIn m p := by
  rw [ownAfter_get, h]
  cases m <;> cases p <;> rfl

/-- Settles O39. -/
theorem initCreatesTheFourBitDriver : Obligations.InitCreatesTheFourBitDriver := by
  intro cfg s hd hown he hm hp
  refine ⟨_, exec_init_fourBit hd he hm hp, ownAfter_openList hown .fourBit, fun q hq => ?_, rfl⟩
  exact padAfter_get_other _ _ hq

/-! ## EightBit -/

/-- What R148 leaves for each value of `P_EIGHTBIT_STATE`, after `Open`. -/
def eightBitState (cfg : Cfg) (s : State) : State :=
  match s.params.eightBitState with
  | .keep => { afterCompletion (ownEvents (openList .eightBit) ++ [.fail .init .unsupportedMode]) s with
      driver := some ⟨.eightBit, cfg.width, cfg.height⟩
      own := ownAfter (openList .eightBit) s.own
      lvl := padAfter s.platform.padLevel (openList .eightBit) s.lvl
      openAnswer := none }
  | .drop => { afterCompletion (ownEvents (openList .eightBit) ++ disownEvents (openList .eightBit)
        ++ [.fail .init .unsupportedMode]) s with
      own := disown (openList .eightBit) (ownAfter (openList .eightBit) s.own)
      lvl := padAfter s.platform.padLevel (openList .eightBit) s.lvl
      openAnswer := none }

theorem eightBitState_keep {cfg : Cfg} {s : State} (h : s.params.eightBitState = .keep) :
    eightBitState cfg s = { afterCompletion (ownEvents (openList .eightBit) ++ [.fail .init .unsupportedMode]) s with
      driver := some ⟨.eightBit, cfg.width, cfg.height⟩
      own := ownAfter (openList .eightBit) s.own
      lvl := padAfter s.platform.padLevel (openList .eightBit) s.lvl
      openAnswer := none } := by
  rw [eightBitState, h]

theorem eightBitState_drop {cfg : Cfg} {s : State} (h : s.params.eightBitState = .drop) :
    eightBitState cfg s = { afterCompletion (ownEvents (openList .eightBit) ++ disownEvents (openList .eightBit)
        ++ [.fail .init .unsupportedMode]) s with
      own := disown (openList .eightBit) (ownAfter (openList .eightBit) s.own)
      lvl := padAfter s.platform.padLevel (openList .eightBit) s.lvl
      openAnswer := none } := by
  rw [eightBitState, h]

/-- A context that owns every pin can release every pin. -/
theorem releasePins_all {s : State} (h : ∀ p, s.own.get p = true) :
    releasePins (openList .eightBit) s =
      .ok (emitAll (disownEvents (openList .eightBit)) { s with own := disown (openList .eightBit) s.own }) :=
  releasePins_owned _ _ (by decide) fun p _ => h p

theorem ownAfter_all (own : PerPin Bool) (p : Pin) : (ownAfter (openList .eightBit) own).get p = true := by
  rw [ownAfter_get]
  cases p <;> simp [openList, dataPinsOf]

theorem exec_init_eightBit {cfg : Cfg} {s : State} (hd : s.driver = none) (he : cfg.err = false)
    (hm : resolveMode cfg.present = some .eightBit)
    (hp : ∀ p ∈ openList .eightBit, pinBit s.platform.invalid p = false ∧ pinBit s.platform.unavail p = false) :
    exec (.init cfg) s = .next (eightBitState cfg s) := by
  rw [init_opens hd he hm]
  generalize hy : ({ initCtx cfg with pc := .pos .opening } : Ctx) = y
  have hidle : y ≠ Ctx.idle := hy ▸ opening_ne_idle cfg
  simp only [initOpenOp, openPins_ok (s := withSlot y s) (firstBadPin_none hp), initEightBit]
  cases hk : s.params.eightBitState with
  | keep =>
    rw [eightBitState_keep hk]
    simp [hk, Res.outcome, completeFail, becomeIdle, endSegment, emit, State.setMe,
      State.setCtx, afterCompletion, afterEvents, withSlot, Slots.set_set hidle, driverOf, ownEvents]
  | drop =>
    rw [eightBitState_drop hk]
    simp [hk, releasePins_all, ownAfter_all, Res.andThen, Res.outcome, completeFail,
      becomeIdle, endSegment, emit, emitAll, State.setMe, State.setCtx, afterCompletion, afterEvents, withSlot,
      Slots.set_set hidle, ownEvents]

/-- Settles O40: `keep` and `drop` are the two values of the parameter. -/
theorem eightBitInitFailsVisibly : Obligations.EightBitInitFailsVisibly := by
  intro cfg s hd hown he hm hp
  refine ⟨_, exec_init_eightBit hd he hm fun p _ => hp p, fun hk => ?_, fun hk => ?_⟩
  · rw [eightBitState_keep hk]
    exact ⟨ownAfter_all _, rfl⟩
  · rw [eightBitState_drop hk]
    refine ⟨fun p => ?_, rfl⟩
    show (disown (openList .eightBit) _).get p = false
    rw [disown_get]
    cases p <;> simp [openList, dataPinsOf]

end Sys2Proof.Proofs.Initialize
end

section
/-! What one step inside a segment can do to a state of the invariant (10_state.md R32): said once, by position, as the
inductive relation `SegmentStep`. Every invariant below is a case analysis on it. -/

namespace Sys2Proof.Proofs.Segment

open Sys2Proof Sys2Proof.Machine Sys2Proof.Safety Sys2Proof.Laws Sys2Proof.Laws.State Sys2Proof.Laws.Events
  Sys2Proof.Laws.Transfer Sys2Proof.Laws.Steps Sys2Proof.Laws.Invariant Sys2Proof.Proofs.Initialize

/-! ## The next action, by position -/

theorem nextAction_pos {op : Op} {p : Pos} {s : State} (ho : (slotGet s.ctxs s.cur).op = some op)
    (hpc : (slotGet s.ctxs s.cur).pc = .pos p) : nextAction s = positionAction op p s := by
  have hpc' : s.me.pc = .pos p := hpc
  rw [nextAction_op ho, hpc']

theorem nextAction_execwait {op : Op} {r : Ret} {s : State} (ho : (slotGet s.ctxs s.cur).op = some op)
    (hpc : (slotGet s.ctxs s.cur).pc = .execwait r) : nextAction s = returnAction r s := by
  have hpc' : s.me.pc = .execwait r := hpc
  rw [nextAction_op ho, hpc']

theorem nextAction_idle {s : State} (ho : (slotGet s.ctxs s.cur).op = none) :
    nextAction s = .own (.ok (endSegment s)) := by
  have ho' : s.me.op = none := ho
  rw [nextAction, ho']

theorem step_at_pos {op : Op} {p : Pos} {s : State} (h : inSegment op s)
    (hpc : (slotGet s.ctxs s.cur).pc = .pos p) : step s = runAction (positionAction op p s) := by
  rw [step_inSegment h, nextAction_pos h.2.2.2 hpc]

theorem step_at_execwait {op : Op} {r : Ret} {s : State} (h : inSegment op s)
    (hpc : (slotGet s.ctxs s.cur).pc = .execwait r) : step s = runAction (returnAction r s) := by
  rw [step_inSegment h, nextAction_execwait h.2.2.2 hpc]

/-! ## The positions of each operation -/

theorem positions_init {pc : Pc} (h : positionOk .init pc = true) :
    pc = .pos .cfg ∨ (∃ k, pc = .pos (.seq k)) ∨ (∃ k, pc = .pos (.seqwait k)) ∨ pc = .pos .finish := by
  unfold positionOk at h
  split at h <;> simp_all

theorem positions_wrmsg {pc : Pc} (h : positionOk .wrmsg pc = true) :
    pc = .pos .acq ∨ pc = .pos .clear ∨ pc = .execwait .clear ∨ pc = .pos .clearwait ∨ pc = .pos .fetch ∨
      pc = .execwait .char ∨ pc = .execwait .nl ∨ pc = .pos .charwait ∨ pc = .pos .unlock ∨ pc = .pos .finish := by
  unfold positionOk at h
  split at h <;> simp_all

theorem positions_dispose {pc : Pc} (h : positionOk .dispose pc = true) :
    pc = .pos .clear ∨ pc = .execwait .clear ∨ pc = .pos .clearwait ∨ pc = .pos .release := by
  unfold positionOk at h
  split at h <;> simp_all

/-! ## The relation -/

/-- An event that completes no operation. -/
def quiet (ev : Event) : Prop := ∀ op, ev ≠ .done op ∧ ∀ code, ev ≠ .fail op code

theorem quiet_pin (p : Pin) (l : Level) : quiet (.pin p l) := by simp [quiet]
theorem quiet_wait (us : Nat) : quiet (.wait us) := by simp [quiet]
theorem quiet_evt (c : Condition) : quiet (.evt c) := by simp [quiet]

/-- How an operation that goes on changes the registers of its slot, but for `wait` (10_state.md R32, R33). -/
inductive Advance : Op → Ctx → Ctx → Prop
  | initStep {x : Ctx} (k : InitStep) (h : x.pc = .pos (.seq k)) :
    Advance .init x { x with pc := .pos (.seqwait k) }
  | initNext {x : Ctx} (k k' : InitStep) (h : x.pc = .pos (.seqwait k)) :
    Advance .init x { x with pc := .pos (.seqwait k') }
  | initEnd {x : Ctx} (k : InitStep) (h : x.pc = .pos (.seqwait k)) :
    Advance .init x { x with pc := .pos .finish }
  | clear {x : Ctx} (h : x.pc = .pos .clear) : Advance .wrmsg x { x with pc := .execwait .clear }
  | clearReturn {x : Ctx} {op : Op} (hop : op ≠ .init) (h : x.pc = .execwait .clear) :
    Advance op x { x with pc := .pos .clearwait }
  | iterate {x : Ctx} (h : x.pc = .pos .clearwait) :
    Advance .wrmsg x { x with lines := 1, lineChars := 0, idx := 0, pc := .pos .fetch }
  | nl {x : Ctx} (h : x.pc = .pos .fetch) (hc : x.msg[x.idx]? = some 0x0A) :
    Advance .wrmsg x { x with idx := x.idx + 1, pc := .execwait .nl }
  | char {x : Ctx} (ch : Byte) (h : x.pc = .pos .fetch) (hc : x.msg[x.idx]? = some ch) (hne : ch ≠ 0x0A) :
    Advance .wrmsg x { x with idx := x.idx + 1, pc := .execwait .char }
  | fetchEnd {x : Ctx} (h : x.pc = .pos .fetch) : Advance .wrmsg x { x with pc := .pos .unlock }
  | nlReturn {x : Ctx} (h : x.pc = .execwait .nl) :
    Advance .wrmsg x { x with lines := x.lines + 1, lineChars := 0, pc := .pos .fetch }
  | charReturn {x : Ctx} (h : x.pc = .execwait .char) :
    Advance .wrmsg x { x with lineChars := x.lineChars + 1, pc := .pos .charwait }
  | charEnd {x : Ctx} (h : x.pc = .pos .charwait) : Advance .wrmsg x { x with pc := .pos .fetch }
  | dispose {x : Ctx} (h : x.pc = .pos .clear) : Advance .dispose x { disposeCtx with pc := .execwait .clear }
  | release {x : Ctx} (h : x.pc = .pos .clearwait) : Advance .dispose x { x with pc := .pos .release }

/-! ## What an advance keeps -/

section
variable {op : Op} {x y : Ctx}

theorem Advance.source (h : Advance op x y) : x.pc ≠ .pos .acq ∧ x.pc ≠ .pos .finish := by
  cases h <;> simp [*]

theorem Advance.keeps_op (h : Advance op x y) (ho : x.op = some op) : y.op = some op := by
  cases h
  case dispose => rfl
  all_goals exact ho

theorem Advance.position (h : Advance op x y) : positionOk op y.pc = true := by
  cases h
  case clearReturn hop _ => cases op <;> first | rfl | exact absurd rfl hop
  all_goals rfl

theorem Advance.finish (h : Advance op x y) (hf : y.pc = .pos .finish) : op = .init := by
  cases h <;> first | rfl | cases hf

theorem Advance.ne_acq (h : Advance op x y) : y.pc ≠ .pos .acq := by
  cases h <;> simp

theorem Advance.index (h : Advance op x y) (hi : x.idx ≤ x.msg.length) : y.idx ≤ y.msg.length := by
  cases h with
  | iterate | dispose => exact Nat.zero_le _
  | nl hpc hc => exact (List.getElem?_eq_some_iff.1 hc).1
  | char ch hpc hc hne => exact (List.getElem?_eq_some_iff.1 hc).1
  | _ => exact hi

/-- No advance takes or gives back the lock. -/
theorem Advance.keeps_lock (h : Advance op x y) (ho : x.op = some op) : holdsLock y = holdsLock x := by
  obtain ⟨hacq, hfin⟩ := h.source
  by_cases hw : op = .wrmsg
  · have hyfin : y.pc ≠ .pos .finish := fun hf => by simp [h.finish hf] at hw
    simp [holdsLock_eq, ho, h.keeps_op ho, hw, hacq, hfin, h.ne_acq, hyfin]
  · simp [holdsLock_eq, ho, h.keeps_op ho, hw]

end

/-- `s` after quiet events of its running context, whose registers are now `x`; its segment goes on or is over. -/
def advanced (evs : List Event) (x : Ctx) (mid : Bool) (s : State) : State :=
  { afterEvents evs s with ctxs := slotSet s.ctxs s.cur x, midSegment := mid }

/-- The pins owned are exactly those of the driver (10_state.md R26). -/
def ownsExactly (driver : Option Driver) (own : PerPin Bool) : Prop :=
  ∀ p, own.get p = match driver with | some d => ownedIn d.mode p | none => false

/-- Everything a step of a running operation can do to a state of the invariant. -/
inductive SegmentStep (op : Op) (s : State) : State → Prop
  /-- It goes on, in its segment or suspended. -/
  | advance (evs : List Event) (x : Ctx) (w : Option Nat) (mid : Bool)
    (hadv : Advance op (slotGet s.ctxs s.cur) x) (hq : ∀ ev ∈ evs, quiet ev)
    (hmid : x.pc = .pos .finish → mid = true) : SegmentStep op s (advanced evs { x with wait := w } mid s)
  /-- It takes a fault. -/
  | fault (evs : List Event) (code : Condition) (hacq : (slotGet s.ctxs s.cur).pc ≠ .pos .acq)
    (hq : ∀ ev ∈ evs, quiet ev) : SegmentStep op s (afterFault code (afterEvents evs s))
  /-- It completes. -/
  | completes (evs : List Event) (last : Event) (driver : Option Driver) (own : PerPin Bool) (lvl : PerPin Level)
    (answer : Option OpenFailure) (hacq : (slotGet s.ctxs s.cur).pc ≠ .pos .acq) (hlock : s.lock ≠ .held s.cur)
    (hq : ∀ ev ∈ evs, quiet ev) (hlast : last = .done op ∨ ∃ code, last = .fail op code)
    (hpins : ownsExactly driver own)
    (hdriver : driver = s.driver ∨ s.driver = none ∨
      (op = .dispose ∧ (slotGet s.ctxs s.cur).pc = .pos .release ∧ driver = none)) :
    SegmentStep op s { afterCompletion (evs ++ [last]) s with
      driver := driver, own := own, lvl := lvl, openAnswer := answer }
  /-- INIT creates the driver. -/
  | opens (cfg : Cfg) (own : PerPin Bool) (lvl : PerPin Level) (hop : op = .init)
    (hpc : (slotGet s.ctxs s.cur).pc = .pos .cfg) (hd : s.driver = none)
    (hpins : ∀ p, own.get p = ownedIn .fourBit p) :
    SegmentStep op s { s with
      driver := some ⟨.fourBit, cfg.width, cfg.height⟩, own := own, lvl := lvl, openAnswer := none
      trace := s.trace ++ (ownEvents (openList .fourBit)).map (fun ev => (s.cur, ev))
      ctxs := slotSet s.ctxs s.cur { initCtx cfg with pc := .pos (.seq .k1) } }
  /-- WRMSG takes the free lock. -/
  | acquires (hop : op = .wrmsg) (hpc : (slotGet s.ctxs s.cur).pc = .pos .acq) (hl : s.lock = .free) :
    SegmentStep op s { s with
      lock := .held s.cur, waiters := s.waiters.filter (fun c => c != s.cur)
      trace := s.trace ++ [(s.cur, .lock s.cur)]
      ctxs := slotSet s.ctxs s.cur { slotGet s.ctxs s.cur with pc := .pos .clear } }
  /-- WRMSG waits for the lock. -/
  | blocks (hop : op = .wrmsg) (hpc : (slotGet s.ctxs s.cur).pc = .pos .acq) (holder : Nat)
    (hl : s.lock = .held holder) :
    SegmentStep op s { s with waiters := insertWaiter s.cur s.waiters, midSegment := false }
  /-- WRMSG frees the lock. -/
  | unlocks (hop : op = .wrmsg) (hpc : (slotGet s.ctxs s.cur).pc = .pos .unlock) :
    SegmentStep op s { s with
      lock := .free, trace := s.trace ++ [(s.cur, .unlock s.cur)]
      ctxs := slotSet s.ctxs s.cur { slotGet s.ctxs s.cur with pc := .pos .finish } }

/-! ## Transfers -/

/-- A transfer suspends its context, or raises `PinNotOwned`; its events are quiet. -/
def TransferEnds (r : Res) (us : Nat) (pc : Pc) (s : State) : Prop :=
  (∃ evs, (∀ ev ∈ evs, quiet ev) ∧ r = .ok (suspended us pc (afterEvents evs s))) ∨
  ∃ evs p, (∀ ev ∈ evs, quiet ev) ∧ r = .raised (.pinNotOwned p) (afterEvents evs s)

theorem quiet_of_pins {evs : List Event} (h : ∀ ev ∈ evs, ∃ p l, ev = Event.pin p l) : ∀ ev ∈ evs, quiet ev := by
  intro ev hev
  obtain ⟨p, l, rfl⟩ := h ev hev
  exact quiet_pin p l

theorem quiet_of_pins_wait {evs : List Event} {us : Nat} (h : ∀ ev ∈ evs, ∃ p l, ev = Event.pin p l) :
    ∀ ev ∈ evs ++ [.wait us], quiet ev := by
  intro ev hev
  rcases List.mem_append.1 hev with hev | hev
  · exact quiet_of_pins h ev hev
  · rw [List.mem_singleton.1 hev]
    exact quiet_wait us

theorem writeValueOp_ends (reg : Register) (v : Byte) (ret : Ret) (s : State) :
    TransferEnds (writeValueOp reg v ret s) 40 (.execwait ret) s := by
  rcases writeValueOp_cases reg v ret s with ⟨evs, h, e⟩ | ⟨evs, p, h, -, e⟩
  · exact .inl ⟨_, quiet_of_pins_wait h, e⟩
  · exact .inr ⟨evs, p, quiet_of_pins h, e⟩

theorem initStepOp_ends (k : InitStep) (s : State) :
    TransferEnds (initStepOp k s) (waitUs (initWait k)) (.pos (.seqwait k)) s := by
  rcases initStepOp_cases k s with ⟨evs, h, e⟩ | ⟨evs, p, h, -, e⟩
  · exact .inl ⟨_, quiet_of_pins_wait h, e⟩
  · exact .inr ⟨evs, p, quiet_of_pins h, e⟩

theorem charOp_ends (ch : Byte) (s : State) : TransferEnds (charOp ch s) 40 (.execwait .char) s := by
  have hquiet : ∀ evs : List Event,
      (∀ ev ∈ evs, (∃ p l, ev = Event.pin p l) ∨ ev = .wait 40 ∨ ∃ c, ev = .evt c) → ∀ ev ∈ evs, quiet ev := by
    intro evs h ev hev
    rcases h ev hev with ⟨p, l, rfl⟩ | rfl | ⟨c, rfl⟩
    · exact quiet_pin p l
    · exact quiet_wait 40
    · exact quiet_evt c
  rcases charOp_cases ch s with ⟨evs, h, e⟩ | ⟨evs, p, h, -, e⟩
  · exact .inl ⟨_, hquiet _ h, e⟩
  · exact .inr ⟨evs, p, hquiet _ h, e⟩

/-- Writing the running slot with what it holds changes nothing. -/
theorem withSlot_self {s : State} {op : Op} (hw : slotsWf s.ctxs) (ho : (slotGet s.ctxs s.cur).op = some op) :
    withSlot (slotGet s.ctxs s.cur) s = s := by
  rw [withSlot, set_get_self hw (ne_idle_of_op ho)]

theorem suspended_withSlot {x : Ctx} (hx : x ≠ Ctx.idle) (us : Nat) (pc : Pc) (evs : List Event) (s : State) :
    suspended us pc (afterEvents evs (withSlot x s)) = advanced evs { x with pc := pc, wait := some us } false s := by
  simp [suspended, advanced, afterEvents, withSlot, Slots.get_set_same hx, Slots.set_set hx]

/-- A fault leaves nothing of the registers the slot held but which operation it ran. -/
theorem afterFault_withSlot {x : Ctx} {op : Op} {s : State} (hx : x.op = some op)
    (ho : (slotGet s.ctxs s.cur).op = some op) (code : Condition) (evs : List Event) :
    afterFault code (afterEvents evs (withSlot x s)) = afterFault code (afterEvents evs s) := by
  have hidle := ne_idle_of_op hx
  simp [afterFault, afterEvents, withSlot, Slots.get_set_same hidle, Slots.set_set hidle, hx, ho]

/-- A transfer made by an operation whose sequencer has moved on to the registers `x`. -/
theorem segmentStep_transfer {op : Op} {s t : State} {x : Ctx} {r : Res} {us : Nat} {pc : Pc}
    (ho : (slotGet s.ctxs s.cur).op = some op) (hacq : (slotGet s.ctxs s.cur).pc ≠ .pos .acq)
    (hx : x.op = some op) (hadv : Advance op (slotGet s.ctxs s.cur) { x with pc := pc }) (hpc : pc ≠ .pos .finish)
    (hr : TransferEnds r us pc (withSlot x s)) (h : r.outcome = .next t) : SegmentStep op s t := by
  rcases hr with ⟨evs, hq, rfl⟩ | ⟨evs, p, hq, rfl⟩
  · cases h
    rw [suspended_withSlot (ne_idle_of_op hx)]
    exact .advance evs _ (some us) false hadv hq (fun e => absurd e hpc)
  · rw [outcome_raised] at h
    cases h
    rw [afterFault_withSlot hx ho]
    exact .fault evs _ hacq hq

/-- A transfer made by an operation that stands where it is. -/
theorem segmentStep_transfer_here {op : Op} {s t : State} {r : Res} {us : Nat} {pc : Pc} (hw : slotsWf s.ctxs)
    (ho : (slotGet s.ctxs s.cur).op = some op) (hacq : (slotGet s.ctxs s.cur).pc ≠ .pos .acq)
    (hadv : Advance op (slotGet s.ctxs s.cur) { slotGet s.ctxs s.cur with pc := pc }) (hpc : pc ≠ .pos .finish)
    (hr : TransferEnds r us pc s) (h : r.outcome = .next t) : SegmentStep op s t :=
  segmentStep_transfer ho hacq ho hadv hpc ((withSlot_self hw ho).symm ▸ hr) h

/-- The sequencer moves on with no event. -/
theorem segmentStep_move {op : Op} {s : State} {x : Ctx} (hm : s.midSegment = true)
    (hadv : Advance op (slotGet s.ctxs s.cur) x) : SegmentStep op s (withSlot x s) := by
  have h := SegmentStep.advance (s := s) [] x x.wait true hadv (by simp) (fun _ => rfl)
  have he : advanced [] { x with wait := x.wait } true s = withSlot x s := by
    rw [advanced, afterEvents_nil, ← hm]
    rfl
  rwa [he] at h

/-- The sequencer moves on and waits. -/
theorem segmentStep_wait {op : Op} {s t : State} {x : Ctx} (hx : x.op = some op) (hpc : x.pc ≠ .pos .finish)
    (hadv : Advance op (slotGet s.ctxs s.cur) x) (w : WaitTime)
    (h : exec (.wait w) (withSlot x s) = .next t) : SegmentStep op s t := by
  cases h
  have hidle := ne_idle_of_op hx
  rw [waitOp_eq, get_withSlot hidle, suspended_withSlot hidle]
  exact .advance [.wait (waitUs w)] x (some (waitUs w)) false hadv (by simp [quiet_wait]) (fun e => absurd e hpc)

/-- The return into CLEARDISPLAY. -/
theorem segmentStep_clearReturn {op : Op} {s t : State} (ho : (slotGet s.ctxs s.cur).op = some op) (hop : op ≠ .init)
    (hpc : (slotGet s.ctxs s.cur).pc = .execwait .clear) (h : runAction (nextAction s) = .next t) :
    SegmentStep op s t := by
  rw [nextAction_execwait ho hpc] at h
  exact segmentStep_wait (x := { slotGet s.ctxs s.cur with pc := .pos .clearwait }) ho (by simp)
    (.clearReturn hop hpc) .clear h

/-! ## INIT -/

/-- A completion that leaves the driver and its pins as they are. -/
theorem segmentStep_complete {op : Op} {s : State} (h : Inv s) (hacq : (slotGet s.ctxs s.cur).pc ≠ .pos .acq)
    (hlock : s.lock ≠ .held s.cur) {evs : List Event} {last : Event} (hq : ∀ ev ∈ evs, quiet ev)
    (hlast : last = .done op ∨ ∃ code, last = .fail op code) (lvl : PerPin Level) (answer : Option OpenFailure) :
    SegmentStep op s { afterCompletion (evs ++ [last]) s with lvl := lvl, openAnswer := answer } :=
  .completes evs last s.driver s.own lvl answer hacq hlock hq hlast h.pins (.inl rfl)

theorem segmentStep_init {s t : State} (h : Inv s) (ho : (slotGet s.ctxs s.cur).op = some .init)
    (hpc : (slotGet s.ctxs s.cur).pc = .pos .cfg) (cfg : Cfg) (he : exec (.init cfg) s = .next t) :
    SegmentStep .init s t := by
  have hacq : (slotGet s.ctxs s.cur).pc ≠ .pos .acq := by simp [hpc]
  have hlock : s.lock ≠ .held s.cur := not_holder h ho (by simp)
  cases hd : s.driver with
  | some d =>
    rw [initRefusedWhilePresent cfg s (by simp [hd])] at he
    cases he
    exact segmentStep_complete h hacq hlock (evs := []) (by simp) (.inr ⟨_, rfl⟩) _ _
  | none =>
    have hnone : ∀ p, s.own.get p = false := fun p => by simpa [hd] using h.pins p
    cases herr : cfg.err with
    | true =>
      rw [ConfigError.configErrorIsAbsorbed cfg s hd herr] at he
      cases he
      exact segmentStep_complete h hacq hlock (evs := [.evt _]) (by simp [quiet_evt]) (.inl rfl) _ _
    | false =>
      cases hm : resolveMode cfg.present with
      | none =>
        rw [MalformedRoles.malformedRolesAreASilentNoOp cfg s hd herr hm] at he
        cases he
        exact segmentStep_complete h hacq hlock (evs := []) (by simp) (.inl rfl) _ _
      | some m =>
        cases hbad : firstBadPin s.platform (openList m) with
        | some x =>
          rw [exec_init_bad hd herr hm hbad] at he
          cases he
          exact segmentStep_complete h hacq hlock (evs := [.evt _]) (by simp [quiet_evt]) (.inl rfl) _ _
        | none =>
          have hgood := good_of_firstBadPin_none hbad
          cases m with
          | fourBit =>
            rw [exec_init_fourBit hd herr hm hgood] at he
            cases he
            exact .opens cfg _ _ rfl hpc hd (ownAfter_openList hnone .fourBit)
          | eightBit =>
            rw [exec_init_eightBit hd herr hm hgood] at he
            cases he
            cases hk : s.params.eightBitState with
            | keep =>
              rw [eightBitState_keep hk]
              exact .completes _ _ _ _ _ _ hacq hlock (by simp [ownEvents, quiet]) (.inr ⟨_, rfl⟩)
                (ownAfter_openList hnone .eightBit) (.inr (.inl hd))
            | drop =>
              rw [eightBitState_drop hk]
              refine .completes _ _ s.driver _ _ _ hacq hlock
                (by simp [ownEvents, disownEvents, quiet, or_imp, forall_and]) (.inr ⟨_, rfl⟩) (fun p => ?_) (.inl rfl)
              rw [hd, disown_get]
              cases p <;> simp [openList, dataPinsOf]

theorem segment_init {s t : State} (h : Inv s) (hm : s.midSegment = true)
    (ho : (slotGet s.ctxs s.cur).op = some .init) (hrun : runAction (nextAction s) = .next t) :
    SegmentStep .init s t := by
  rcases positions_init (h.positions _ _ ho) with hpc | ⟨k, hpc⟩ | ⟨k, hpc⟩ | hpc <;>
    rw [nextAction_pos ho hpc] at hrun
  · exact segmentStep_init h ho hpc _ hrun
  · exact segmentStep_transfer_here h.slots ho (by simp [hpc]) (.initStep k hpc) (by simp) (initStepOp_ends k s)
      ((exec_initInstr k s).symm.trans hrun)
  · simp only [positionAction] at hrun
    cases hn : nextInitStep k with
    | some k' =>
      rw [hn] at hrun
      exact segmentStep_transfer (x := { slotGet s.ctxs s.cur with pc := .pos (.seq k') }) ho (by simp [hpc]) ho
        (.initNext k k' hpc) (by simp) (initStepOp_ends k' _) ((exec_initInstr k' _).symm.trans hrun)
    | none =>
      rw [hn] at hrun
      cases hrun
      exact segmentStep_move hm (.initEnd k hpc)
  · cases hrun
    exact segmentStep_complete h (by simp [hpc]) (not_holder h ho (by simp)) (evs := []) (by simp) (.inl rfl) _ _

/-! ## WRMSG -/

theorem segmentStep_acquire {s t : State} (hpc : (slotGet s.ctxs s.cur).pc = .pos .acq)
    (h : exec .acquire s = .next t) : SegmentStep .wrmsg s t := by
  simp only [exec, execAcquire] at h
  split at h
  · next hl => cases h; exact .acquires rfl hpc hl
  · next c hl => cases h; exact .blocks rfl hpc c hl

/-- Fetch: an element, or the end of the message. -/
theorem segmentStep_fetch {s t : State} (hm : s.midSegment = true)
    (ho : (slotGet s.ctxs s.cur).op = some .wrmsg) (hpc : (slotGet s.ctxs s.cur).pc = .pos .fetch)
    (h : runAction (fetchAction s) = .next t) : SegmentStep .wrmsg s t := by
  have hacq : (slotGet s.ctxs s.cur).pc ≠ .pos .acq := by simp [hpc]
  cases hc : (slotGet s.ctxs s.cur).msg[(slotGet s.ctxs s.cur).idx]? with
  | none =>
    rw [MessageFetch.fetchAction_at_end (List.getElem?_eq_none_iff.1 hc)] at h
    cases h
    exact segmentStep_move hm (.fetchEnd hpc)
  | some ch =>
    rw [MessageFetch.fetchAction_of_element hc] at h
    by_cases hne : ch = 0x0A
    · subst hne
      exact segmentStep_transfer (x := { slotGet s.ctxs s.cur with idx := (slotGet s.ctxs s.cur).idx + 1 })
        ho hacq ho (.nl hpc hc) (by simp) (writeValueOp_ends _ _ _ _) h
    · rw [MessageElement.decodeMsg8_of_ne_newline hne] at h
      exact segmentStep_transfer (x := { slotGet s.ctxs s.cur with idx := (slotGet s.ctxs s.cur).idx + 1 })
        ho hacq ho (.char ch hpc hc hne) (by simp) (charOp_ends ch _) h

theorem segment_wrmsg {s t : State} (h : Inv s) (hm : s.midSegment = true)
    (ho : (slotGet s.ctxs s.cur).op = some .wrmsg) (hrun : runAction (nextAction s) = .next t) :
    SegmentStep .wrmsg s t := by
  rcases positions_wrmsg (h.positions _ _ ho) with hpc | hpc | hpc | hpc | hpc | hpc | hpc | hpc | hpc | hpc
  · rw [nextAction_pos ho hpc] at hrun
    exact segmentStep_acquire hpc hrun
  · rw [nextAction_pos ho hpc] at hrun
    exact segmentStep_transfer_here h.slots ho (by simp [hpc]) (.clear hpc) (by simp) (writeValueOp_ends _ _ _ _) hrun
  · exact segmentStep_clearReturn ho (by simp) hpc hrun
  · rw [nextAction_pos ho hpc] at hrun
    cases hrun
    exact segmentStep_move hm (.iterate hpc)
  · rw [nextAction_pos ho hpc] at hrun
    exact segmentStep_fetch hm ho hpc hrun
  · rw [nextAction_execwait ho hpc] at hrun
    exact segmentStep_wait (x := { slotGet s.ctxs s.cur with
      lineChars := (slotGet s.ctxs s.cur).lineChars + 1, pc := .pos .charwait }) ho (by simp) (.charReturn hpc) .char hrun
  · rw [nextAction_execwait ho hpc] at hrun
    cases hrun
    exact segmentStep_move hm (.nlReturn hpc)
  · rw [nextAction_pos ho hpc] at hrun
    cases hrun
    exact segmentStep_move hm (.charEnd hpc)
  · rw [nextAction_pos ho hpc] at hrun
    cases hrun
    exact .unlocks rfl hpc
  · have hfree : s.lock = .free := (h.ending _ _ ho hpc).2.2 rfl
    rw [nextAction_pos ho hpc] at hrun
    cases hrun
    exact segmentStep_complete h (by simp [hpc]) (by simp [hfree]) (evs := []) (by simp) (.inl rfl) _ _

/-! ## DISPOSE -/

/-- The release segment of DISPOSE, on a Present driver and after a lost race. -/
theorem segmentStep_release {s t : State} (h : Inv s) (ho : (slotGet s.ctxs s.cur).op = some .dispose)
    (hpc : (slotGet s.ctxs s.cur).pc = .pos .release) (hr : (disposeRelease s).outcome = .next t) :
    SegmentStep .dispose s t := by
  have hacq : (slotGet s.ctxs s.cur).pc ≠ .pos .acq := by simp [hpc]
  have hlock : s.lock ≠ .held s.cur := not_holder h ho (by simp)
  obtain ⟨hpresent, habsent⟩ := disposeRelease_outcome s
  have hpins := h.pins
  cases hd : s.driver with
  | some d =>
    rw [hd] at hpins
    obtain ⟨u, hu, hown, hframe⟩ := hpresent d hd hpins
    rw [hu] at hr
    cases hr
    rw [hframe]
    exact .completes (disownEvents (openList d.mode)) _ none _ _ _ hacq hlock (by simp [disownEvents, quiet])
      (.inl rfl) hown (.inr (.inr ⟨rfl, hpc, rfl⟩))
  | none =>
    rw [hd] at hpins
    rw [habsent (hpins .rs)] at hr
    cases hr
    have hfault := SegmentStep.fault (op := .dispose) (s := s) [] (.doubleRelease .rs) hacq (by simp)
    rwa [afterEvents_nil] at hfault

theorem segment_dispose {s t : State} (h : Inv s) (hm : s.midSegment = true)
    (ho : (slotGet s.ctxs s.cur).op = some .dispose) (hrun : runAction (nextAction s) = .next t) :
    SegmentStep .dispose s t := by
  rcases positions_dispose (h.positions _ _ ho) with hpc | hpc | hpc | hpc
  · rw [nextAction_pos ho hpc] at hrun
    exact segmentStep_transfer ho (by simp [hpc]) (x := disposeCtx) rfl (.dispose hpc) (by simp)
      (writeValueOp_ends _ _ _ _) hrun
  · exact segmentStep_clearReturn ho (by simp) hpc hrun
  · rw [nextAction_pos ho hpc] at hrun
    cases hrun
    exact segmentStep_move hm (.release hpc)
  · rw [nextAction_pos ho hpc] at hrun
    exact segmentStep_release h ho hpc hrun

/-- What a step of the running context can do, whatever operation it runs. -/
theorem segment_cases {op : Op} {s t : State} (h : Inv s) (hm : s.midSegment = true)
    (ho : (slotGet s.ctxs s.cur).op = some op) (hrun : runAction (nextAction s) = .next t) : SegmentStep op s t := by
  cases op with
  | init => exact segment_init h hm ho hrun
  | wrmsg => exact segment_wrmsg h hm ho hrun
  | dispose => exact segment_dispose h hm ho hrun

end Sys2Proof.Proofs.Segment
end

section
/-! The invariant of the engine under every step (10_state.md R26, R28 to R33): inside a segment by the cases of
`SegmentStep`, between segments by the kinds of moves. -/

namespace Sys2Proof.Proofs.Invariance

open Sys2Proof Sys2Proof.Machine Sys2Proof.Safety Sys2Proof.Laws Sys2Proof.Laws.State Sys2Proof.Laws.Events
  Sys2Proof.Laws.Transfer Sys2Proof.Laws.Steps Sys2Proof.Laws.Invariant Sys2Proof.Laws.Running
  Sys2Proof.Proofs.Segment

/-! ## Inside a segment -/

/-- Where the running context ends its segment with an unchanged slot, its table is unchanged. -/
theorem slotSet_self {s : State} {op : Op} (h : Inv s) (ho : (slotGet s.ctxs s.cur).op = some op) :
    s.ctxs = slotSet s.ctxs s.cur (slotGet s.ctxs s.cur) :=
  (set_get_self h.slots (ne_idle_of_op ho)).symm

theorem inv_segmentStep {op : Op} {s t : State} (h : Inv s) (hm : s.midSegment = true)
    (ho : (slotGet s.ctxs s.cur).op = some op) (hstep : SegmentStep op s t) : Inv t := by
  have hcur := cur_bounded h ho
  cases hstep with
  | advance evs x w mid hadv hq hmid =>
    exact inv_slot (x := { x with wait := w }) h hm ho hadv.source.1 rfl h.notIssued rfl rfl rfl rfl rfl rfl
      hadv.position (hadv.keeps_op ho) (hadv.keeps_lock ho)
      (fun hf => ⟨hmid hf, fun hw => by simp [hadv.finish hf] at hw⟩) (hadv.index (h.index _))
  | fault evs code hacq hq => exact inv_afterFault h hm ho hacq code evs
  | completes evs last driver own lvl answer hacq hlock hq hlast hpins hdriver =>
    exact inv_idle h hm ho rfl h.notIssued rfl rfl hpins (by simp [afterCompletion, hlock]) rfl hacq
  | opens cfg own lvl hop hpc hd hpins =>
    subst hop
    refine inv_update h hm hcur rfl h.notIssued rfl rfl hpins ?_ (lock_unchanged h rfl ?_)
      (waiters_unchanged h rfl (by simp [hpc])) h.waitersRising ?_ (Nat.zero_le _)
    · rintro op ⟨⟩
      rfl
    · simp [holdsLock_eq, ho, initCtx]
    · simp
  | acquires hop hpc hl =>
    subst hop
    refine inv_update h hm hcur rfl h.notIssued rfl rfl h.pins ?_ ?_ ?_ (h.waitersRising.filter _) ?_ (h.index _)
    · intro op hop
      rw [ho] at hop
      cases hop
      rfl
    · intro c
      split
      · next hc => simp [hc, holdsLock_eq, ho]
      · next hc =>
        rw [← h.lock c, hl]
        simp [Ne.symm hc]
    · intro c hc
      obtain ⟨hmem, hne⟩ := List.mem_filter.1 hc
      rw [if_neg (by simpa using hne)]
      exact hmem
    · simp
  | blocks hop hpc holder hl =>
    subst hop
    have hself := slotSet_self h ho
    refine inv_update h hm hcur hself h.notIssued rfl rfl h.pins (fun op => h.positions _ op)
      (lock_unchanged h rfl rfl) ?_ (insertWaiter_rising _ _ h.waitersRising) ?_ (h.index _)
    · intro c hc
      rcases (mem_insertWaiter _ _ _).1 hc with rfl | hc
      · rw [if_pos rfl]
        exact ⟨ho, hpc⟩
      · split
        · exact ⟨ho, hpc⟩
        · exact hc
    · simp [hpc]
  | unlocks hop hpc =>
    subst hop
    have hheld : s.lock = .held s.cur := (h.lock _).2 (by simp [holdsLock_eq, ho, hpc])
    refine inv_update h hm hcur rfl h.notIssued rfl rfl h.pins ?_ ?_ (waiters_unchanged h rfl (by simp [hpc]))
      h.waitersRising ?_ (h.index _)
    · intro op hop
      rw [ho] at hop
      cases hop
      rfl
    · intro c
      split
      · simp [holdsLock_eq]
      · next hc =>
        rw [← h.lock c, hheld]
        simp [Ne.symm hc]
    · exact fun _ _ _ => ⟨hm, fun _ => rfl⟩

/-- A segment of an Idle slot ends with no change. -/
theorem inv_endSegment {s : State} (h : Inv s) (ho : (slotGet s.ctxs s.cur).op = none) : Inv (endSegment s) := by
  obtain ⟨h1, h2, h3, h4, h5, h6, h7, h8, h9, h10⟩ := h
  refine ⟨h1, h2, h3, h4, h5, h6, h7, h8, fun c op hop hpc => ?_, h10⟩
  have hc := (h9 c op hop hpc).2.1
  rw [← hc, endSegment_ctxs, ho] at hop
  cases hop

theorem inv_running {s t : State} (h : Inv s) (hm : s.midSegment = true)
    (hrun : runAction (nextAction s) = .next t) : Inv t := by
  cases ho : (slotGet s.ctxs s.cur).op with
  | none =>
    rw [nextAction_idle ho] at hrun
    cases hrun
    exact inv_endSegment h ho
  | some op => exact inv_segmentStep h hm ho (segment_cases h hm ho hrun)

/-! ## Between segments -/

/-- Registers that differ at most in `wait`. -/
def SameButWait (x y : Ctx) : Prop := ∃ w, x = { y with wait := w }

theorem SameButWait.refl (x : Ctx) : SameButWait x x := ⟨x.wait, rfl⟩

/-- A move that changes no register the invariant speaks of. -/
theorem inv_sameButWait {s t : State} (h : Inv s) (hm : s.midSegment = false) (hw : slotsWf t.ctxs)
    (hsame : ∀ c, SameButWait (slotGet t.ctxs c) (slotGet s.ctxs c))
    (hframe : t = { s with ctxs := t.ctxs, cur := t.cur, midSegment := t.midSegment, platform := t.platform }) :
    Inv t := by
  rw [hframe]
  refine ⟨hw, h.notIssued, fun c => ?_, h.pins, fun c op => ?_, fun c => ?_, fun c hc => ?_, h.waitersRising,
    fun c op ho hpc => ?_, fun c => ?_⟩ <;> obtain ⟨w, hx⟩ := hsame c <;> simp only [hx] at *
  · exact h.bounded c
  · exact h.positions c op
  · exact h.lock c
  · exact h.waiters c hc
  · exact absurd hpc (not_at_finish h hm c op ho)
  · exact h.index c

/-- A request fills an Idle slot of the NCTX with registers that hold no lock and stand at no `end`. -/
theorem inv_request {s : State} (h : Inv s) {c : Nat} (hc : c < s.params.nctx)
    (hidle : (slotGet s.ctxs c).op = none) {x : Ctx}
    (hx : (∃ cfg, x = initCtx cfg) ∨ (∃ msg, x = wrmsgCtx msg) ∨ x = disposeCtx) : Inv (s.setCtx c x) := by
  have hget : ∀ d, slotGet (s.setCtx c x).ctxs d = if d = c then x else slotGet s.ctxs d :=
    fun d => Slots.get_set h.slots c d x
  have hpos : ∀ op, x.op = some op → positionOk op x.pc = true := by
    rcases hx with ⟨_, rfl⟩ | ⟨_, rfl⟩ | rfl <;> rintro op ⟨⟩ <;> rfl
  have hlock : holdsLock x = false := by rcases hx with ⟨_, rfl⟩ | ⟨_, rfl⟩ | rfl <;> rfl
  have hfinish : x.pc ≠ .pos .finish := by
    rcases hx with ⟨_, rfl⟩ | ⟨_, rfl⟩ | rfl <;> simp [initCtx, wrmsgCtx, disposeCtx]
  have hidx : x.idx ≤ x.msg.length := by rcases hx with ⟨_, rfl⟩ | ⟨_, rfl⟩ | rfl <;> exact Nat.zero_le _
  refine ⟨Slots.wf_set h.slots _ _, h.notIssued, fun d => ?_, h.pins, fun d op => ?_, fun d => ?_, fun d hd => ?_,
    h.waitersRising, fun d op => ?_, fun d => ?_⟩ <;> rw [hget] <;> split
  · next e => exact fun _ => e ▸ hc
  · exact h.bounded d
  · exact hpos op
  · exact h.positions d op
  · next e =>
    subst e
    rw [setCtx_lock, h.lock, hlock, holdsLock_eq, hidle]
    simp
  · exact h.lock d
  · next e =>
    have := (h.waiters d hd).1
    rw [e, hidle] at this
    cases this
  · exact h.waiters d hd
  · exact fun _ hpc => absurd hpc hfinish
  · exact h.ending d op
  · exact hidx
  · exact h.index d

theorem inv_moveEffect {s : State} (h : Inv s) (hm : s.midSegment = false) (m : Move) : Inv (moveEffect m s) := by
  cases m <;> simp only [moveEffect]
  case request bytes =>
    split
    · next x c hx hc =>
      obtain ⟨hlt, hidle⟩ := freeSlot_some hc
      exact inv_request h hlt hidle (requested_cases hx)
    · exact h
  case run c =>
    split
    · exact inv_sameButWait h hm h.slots (fun _ => .refl _) rfl
    · exact h
  case tick us =>
    exact inv_sameButWait h hm (Slots.wf_tick h.slots us)
      (fun c => ⟨(Slots.tickCtx us (slotGet s.ctxs c)).wait, Slots.get_tick us s.ctxs c⟩) rfl
  case elapse c =>
    unfold elapse
    split
    · refine inv_sameButWait h hm (Slots.wf_set h.slots _ _) (fun d => ?_) rfl
      rw [setCtx_ctxs, Slots.get_set h.slots]
      split
      · next e => exact e ▸ ⟨none, rfl⟩
      · exact .refl _
    · exact h
  case platform p => exact inv_sameButWait h hm h.slots (fun _ => .refl _) rfl
  case reset => exact inv_resetTo s
  case resetWithin n => exact inv_resetTo s

/-- Between segments a step is the default move, or the agenda's, or, where neither gives one, nothing. -/
theorem nextMove_cases (s : State) :
    nextMove s = s ∨ (∃ m, defaultMove s = some m ∧ nextMove s = moveEffect m s) ∨
      ∃ m rest, s.agenda = m :: rest ∧ nextMove s = moveEffect m { s with agenda := rest } := by
  have hidle : idleMove s = s ∨ ∃ m, defaultMove s = some m ∧ idleMove s = moveEffect m s := by
    unfold idleMove
    split
    · next m hm => exact .inr ⟨m, hm, rfl⟩
    · exact .inl rfl
  unfold nextMove
  split
  · exact hidle.imp_right .inl
  · next m rest ha =>
    split
    · exact hidle.imp_right .inl
    · exact .inr (.inr ⟨m, rest, ha, rfl⟩)

theorem inv_nextMove {s : State} (h : Inv s) (hm : s.midSegment = false) : Inv (nextMove s) := by
  rcases nextMove_cases s with e | ⟨m, -, e⟩ | ⟨m, rest, -, e⟩ <;> rw [e]
  · exact h
  · exact inv_moveEffect h hm m
  · exact inv_moveEffect (inv_agenda h rest) hm m

/-! ## Every step -/

/-- A step with no bytes placed from outside: what the running context does, cut or not by a reset, or a move. -/
theorem step_cases {s t : State} (hi : s.issued = none) (h : step s = .next t) :
    (s.midSegment = true ∧ (∀ n rest, s.agenda ≠ .resetWithin n :: rest) ∧ runAction (nextAction s) = .next t) ∨
    (∃ n rest u, s.midSegment = true ∧ s.agenda = .resetWithin n :: rest ∧ runAction (nextAction s) = .next u ∧
      ((u.midSegment = true ∧
          t = { u with agenda := .resetWithin (n - (u.trace.length - s.trace.length)) :: rest }) ∨
        t = resetTo { s with agenda := rest, trace := s.trace ++ (u.trace.drop s.trace.length).take n })) ∨
    (s.midSegment = false ∧ t = nextMove s) := by
  simp only [step, hi] at h
  split at h
  · next hm =>
    unfold segmentStep at h
    split at h
    · next n rest ha =>
      cases hu : runAction (nextAction s) with
      | next u => exact .inr (.inl ⟨n, rest, u, hm, ha, rfl, resetCut_cases hu h⟩)
      | fault f => cases f
      | refused r =>
        rw [hu] at h
        cases h
    · next ha => exact .inl ⟨hm, ha, h⟩
  · next hm =>
    cases h
    exact .inr (.inr ⟨by simpa using hm, rfl⟩)

theorem inv_step {s t : State} (h : Inv s) (hstep : step s = .next t) : Inv t := by
  rcases step_cases h.notIssued hstep with ⟨hm, -, hrun⟩ | ⟨n, rest, u, hm, -, hrun, ⟨-, rfl⟩ | rfl⟩ | ⟨hm, rfl⟩
  · exact inv_running h hm hrun
  · exact inv_agenda (inv_running h hm hrun) _
  · exact inv_resetTo _
  · exact inv_nextMove h hm

end Sys2Proof.Proofs.Invariance
end

section
/-! The invariant of the waits (10_state.md R34, R40) and that of the counters (43_message.md R200) under every step. -/

namespace Sys2Proof.Proofs.WaitsAndCounters

open Sys2Proof Sys2Proof.Machine Sys2Proof.Safety Sys2Proof.Laws Sys2Proof.Laws.State Sys2Proof.Laws.Running
  Sys2Proof.Laws.Waits Sys2Proof.Laws.Invariant Sys2Proof.Laws.Steps Sys2Proof.Proofs.Segment
  Sys2Proof.Proofs.Invariance

/-! ## Waits -/

theorem active_of_inv {s : State} {op : Op} (h : Inv s) (hw : WaitInv s) (hm : s.midSegment = true)
    (ho : (slotGet s.ctxs s.cur).op = some op) : Active s :=
  ⟨h.slots, hm, by simp [ho], hw.running hm⟩

theorem waitInv_running {s t : State} (h : Inv s) (hw : WaitInv s) (hm : s.midSegment = true)
    (hrun : runAction (nextAction s) = .next t) : WaitInv t := by
  have hran := running_next hrun
  obtain ⟨-, hother⟩ := hran.slots h.slots
  cases ho : (slotGet s.ctxs s.cur).op with
  | none =>
    rw [nextAction_idle ho] at hrun
    cases hrun
    exact ⟨hw.idle, by simp⟩
  | some op =>
    have hset := settled_next (active_of_inv h hw hm ho) hrun
    refine ⟨fun c hc => ?_, hset.running⟩
    by_cases e : c = s.cur
    · rw [e, ← hran.cur] at hc ⊢
      exact hset.idle hc
    · rw [hother c e] at hc ⊢
      exact hw.idle c hc

theorem waitInv_resetTo (s : State) : WaitInv (resetTo s) := ⟨fun _ _ => rfl, fun _ => rfl⟩

theorem waitInv_moveEffect {s : State} (h : Inv s) (hw : WaitInv s) (hm : s.midSegment = false) (m : Move) :
    WaitInv (moveEffect m s) := by
  have hrunning : ∀ t : State, t.midSegment = s.midSegment → t.midSegment = true →
      (slotGet t.ctxs t.cur).wait = none := by
    intro t ht ht'
    rw [ht, hm] at ht'
    cases ht'
  cases m <;> simp only [moveEffect]
  case request bytes =>
    split
    · next x c hx hc =>
      refine ⟨fun d hd => ?_, hrunning _ rfl⟩
      rw [setCtx_ctxs, Slots.get_set h.slots] at hd ⊢
      split
      · rcases requested_cases hx with ⟨_, rfl⟩ | ⟨_, rfl⟩ | rfl <;> rfl
      · next e =>
        rw [if_neg e] at hd
        exact hw.idle d hd
    · exact hw
  case run c =>
    split
    · next hr =>
      refine ⟨hw.idle, fun _ => ?_⟩
      simp only [runnable, Bool.and_eq_true, Option.isNone_iff_eq_none] at hr
      exact hr.1.2
    · exact hw
  case tick us =>
    refine ⟨fun c hc => ?_, hrunning _ rfl⟩
    have hget : ∀ d, slotGet (tickSlots us s.ctxs) d = Slots.tickCtx us (slotGet s.ctxs d) := Slots.get_tick us s.ctxs
    rw [hget] at hc ⊢
    simp [Slots.tickCtx, hw.idle c hc]
  case elapse c =>
    unfold elapse
    split
    · refine ⟨fun d hd => ?_, hrunning _ rfl⟩
      rw [setCtx_ctxs, Slots.get_set h.slots] at hd ⊢
      split
      · rfl
      · next e =>
        rw [if_neg e] at hd
        exact hw.idle d hd
    · exact hw
  case platform p => exact ⟨hw.idle, hrunning _ rfl⟩
  case reset => exact waitInv_resetTo s
  case resetWithin n => exact waitInv_resetTo s

theorem waitInv_agenda {s : State} (h : WaitInv s) (a : List Move) : WaitInv { s with agenda := a } :=
  ⟨h.idle, h.running⟩

theorem waitInv_step {s t : State} (h : Inv s) (hw : WaitInv s) (hstep : step s = .next t) : WaitInv t := by
  rcases step_cases h.notIssued hstep with ⟨hm, -, hrun⟩ | ⟨n, rest, u, hm, -, hrun, ⟨-, rfl⟩ | rfl⟩ | ⟨hm, rfl⟩
  · exact waitInv_running h hw hm hrun
  · exact waitInv_agenda (waitInv_running h hw hm hrun) _
  · exact waitInv_resetTo _
  · rcases nextMove_cases s with e | ⟨m, -, e⟩ | ⟨m, rest, -, e⟩ <;> rw [e]
    · exact hw
    · exact waitInv_moveEffect h hw hm m
    · exact waitInv_moveEffect (inv_agenda h rest) (waitInv_agenda hw rest) hm m

/-- Settles O52. -/
theorem stepKeepsTheInvariant : Obligations.StepKeepsTheInvariant :=
  ⟨fun _ _ h hstep => inv_step h hstep, fun _ _ h hw hstep => waitInv_step h hw hstep⟩

/-! ## Counters -/

/-- What `CountersInv` says of one slot. -/
def CounterOk (x : Ctx) : Prop :=
  iterating x = true → x.lines = linesOf (handled x) ∧ x.lineChars = lineCharsOf (handled x) ∧ writingOk x

theorem countersInv_iff (s : State) : CountersInv s ↔ ∀ c, CounterOk (slotGet s.ctxs c) := Iff.rfl

/-- Only a WRMSG counts. -/
theorem counterOk_of_ne_wrmsg {x : Ctx} (h : x.op ≠ some .wrmsg) : CounterOk x := by
  intro hi
  simp [iterating, h] at hi

theorem counterOk_of_not_iterating {x : Ctx} (h : iterating x = false) : CounterOk x := by
  intro hi
  rw [h] at hi
  cases hi

/-- No counter depends on `wait`. -/
theorem counterOk_wait (x : Ctx) (w : Option Nat) : CounterOk { x with wait := w } ↔ CounterOk x := Iff.rfl

theorem linesOf_append (l : List Byte) (c : Byte) : linesOf (l ++ [c]) = if c = 0x0A then linesOf l + 1 else linesOf l := by
  simp only [linesOf, List.count_append, List.count_singleton, beq_iff_eq]
  split <;> omega

theorem lineCharsOf_append (l : List Byte) (c : Byte) :
    lineCharsOf (l ++ [c]) = if c = 0x0A then 0 else lineCharsOf l + 1 := by
  have hlast : lineCharsOf (l ++ [c]) = ((c :: l.reverse).takeWhile (fun c => c ≠ 0x0A)).length := by
    rw [lineCharsOf, List.reverse_append]
    rfl
  by_cases h : c = 0x0A
  · rw [hlast, if_pos h, List.takeWhile_cons_of_neg (by simpa using h), List.length_nil]
  · rw [hlast, if_neg h, List.takeWhile_cons_of_pos (by simpa using h), List.length_cons]
    rfl

/-- The elements before `idx` are those before the one that is being written, and it. -/
theorem take_idx {msg : List Byte} {idx : Nat} {ch : Byte} (h1 : 1 ≤ idx) (h : msg[idx - 1]? = some ch) :
    msg.take idx = msg.take (idx - 1) ++ [ch] := by
  obtain ⟨n, rfl⟩ : ∃ n, idx = n + 1 := ⟨idx - 1, by omega⟩
  simp only [Nat.add_sub_cancel] at h ⊢
  rw [List.take_add_one, h]
  rfl

/-- The counters under an advance: they change only at the beginning of the iteration and at the return of an element,
and there as the element selects. -/
theorem counterOk_advance {op : Op} {x y : Ctx} (h : Advance op x y) (ho : x.op = some op) (hx : CounterOk x) :
    CounterOk y := by
  cases h with
  | initStep | initNext | initEnd => exact counterOk_of_ne_wrmsg (by simp [ho])
  | dispose => exact counterOk_of_ne_wrmsg (by simp [disposeCtx])
  | release => exact counterOk_of_ne_wrmsg (by simp [ho])
  | clear hpc => exact counterOk_of_not_iterating (by simp [iterating])
  | clearReturn hop hpc => exact counterOk_of_not_iterating (by simp [iterating])
  | iterate hpc => exact fun _ => ⟨by simp [handled, linesOf], by simp [handled, lineCharsOf], by simp [writingOk]⟩
  | nl hpc hc =>
    intro _
    obtain ⟨hlines, hchars, -⟩ := hx (by simp [iterating, ho, hpc])
    exact ⟨by simpa [handled, hpc] using hlines, by simpa [handled, hpc] using hchars, by simp [writingOk, hc]⟩
  | char ch hpc hc hne =>
    intro _
    obtain ⟨hlines, hchars, -⟩ := hx (by simp [iterating, ho, hpc])
    exact ⟨by simpa [handled, hpc] using hlines, by simpa [handled, hpc] using hchars, by simpa [writingOk, hc] using hne⟩
  | fetchEnd hpc | charEnd hpc =>
    intro _
    obtain ⟨hlines, hchars, -⟩ := hx (by simp [iterating, ho, hpc])
    exact ⟨by simpa [handled, hpc] using hlines, by simpa [handled, hpc] using hchars, by simp [writingOk]⟩
  | nlReturn hpc =>
    intro _
    obtain ⟨hlines, hchars, hwriting⟩ := hx (by simp [iterating, ho, hpc])
    obtain ⟨h1, ch, hch, hnl⟩ := hwriting (.inr hpc)
    obtain rfl := hnl.2 hpc
    simp only [handled, hpc, or_true, if_true] at hlines hchars
    refine ⟨?_, ?_, by simp [writingOk]⟩ <;>
      simp [handled, take_idx h1 hch, linesOf_append, lineCharsOf_append, hlines]
  | charReturn hpc =>
    intro _
    obtain ⟨hlines, hchars, hwriting⟩ := hx (by simp [iterating, ho, hpc])
    obtain ⟨h1, ch, hch, hnl⟩ := hwriting (.inl hpc)
    have hne : ¬ ch = 10#8 := fun e => by simpa [hpc] using hnl.1 e
    simp only [handled, hpc, true_or, if_true] at hlines hchars
    refine ⟨?_, ?_, by simp [writingOk]⟩ <;>
      simp [handled, take_idx h1 hch, linesOf_append, lineCharsOf_append, hne, hlines, hchars]

/-- The counters inside a segment. -/
theorem counterOk_segmentStep {op : Op} {s t : State} (h : Inv s) (ho : (slotGet s.ctxs s.cur).op = some op)
    (hx : CounterOk (slotGet s.ctxs s.cur)) (hstep : SegmentStep op s t) : CounterOk (slotGet t.ctxs s.cur) := by
  have hget : ∀ x, slotGet (slotSet s.ctxs s.cur x) s.cur = x := fun x => by rw [Slots.get_set h.slots, if_pos rfl]
  cases hstep with
  | advance evs x w mid hadv hq hmid =>
    rw [advanced, hget, counterOk_wait]
    exact counterOk_advance hadv ho hx
  | fault evs code hacq hq =>
    have hctxs : (afterFault code (afterEvents evs s)).ctxs = slotSet s.ctxs s.cur Ctx.idle := by simp [afterFault, ho]
    rw [hctxs, hget]
    exact counterOk_of_ne_wrmsg (by simp [Ctx.idle])
  | completes evs last driver own lvl answer hacq hlock hq hlast hpins hdriver =>
    show CounterOk (slotGet (slotSet s.ctxs s.cur Ctx.idle) s.cur)
    rw [hget]
    exact counterOk_of_ne_wrmsg (by simp [Ctx.idle])
  | opens cfg own lvl hop hpc hd hpins =>
    rw [hget]
    exact counterOk_of_ne_wrmsg (by simp [initCtx])
  | acquires hop hpc hl =>
    rw [hget]
    exact counterOk_of_not_iterating (by simp [iterating])
  | blocks hop hpc holder hl => exact hx
  | unlocks hop hpc =>
    rw [hget]
    exact counterOk_of_not_iterating (by simp [iterating])

theorem countersInv_running {s t : State} (h : Inv s) (hc : CountersInv s) (hm : s.midSegment = true)
    (hrun : runAction (nextAction s) = .next t) : CountersInv t := by
  obtain ⟨-, hother⟩ := (running_next hrun).slots h.slots
  cases ho : (slotGet s.ctxs s.cur).op with
  | none =>
    rw [nextAction_idle ho] at hrun
    cases hrun
    exact hc
  | some op =>
    refine (countersInv_iff t).2 fun c => ?_
    by_cases e : c = s.cur
    · rw [e]
      exact counterOk_segmentStep h ho (hc s.cur) (segment_cases h hm ho hrun)
    · rw [hother c e]
      exact hc c

theorem countersInv_resetTo (s : State) : CountersInv (resetTo s) :=
  (countersInv_iff _).2 fun _ => counterOk_of_not_iterating rfl

theorem countersInv_moveEffect {s : State} (h : Inv s) (hc : CountersInv s) (m : Move) :
    CountersInv (moveEffect m s) := by
  cases m <;> simp only [moveEffect]
  case request bytes =>
    split
    · next x c hx hfree =>
      refine (countersInv_iff _).2 fun d => ?_
      rw [setCtx_ctxs, Slots.get_set h.slots]
      split
      · rcases requested_cases hx with ⟨_, rfl⟩ | ⟨_, rfl⟩ | rfl <;> exact counterOk_of_not_iterating rfl
      · exact hc d
    · exact hc
  case run c => split <;> exact hc
  case tick us =>
    refine (countersInv_iff _).2 fun c => ?_
    have hget : slotGet (tickSlots us s.ctxs) c = Slots.tickCtx us (slotGet s.ctxs c) := Slots.get_tick us s.ctxs c
    rw [hget]
    exact (counterOk_wait _ _).2 (hc c)
  case elapse c =>
    unfold elapse
    split
    · refine (countersInv_iff _).2 fun d => ?_
      rw [setCtx_ctxs, Slots.get_set h.slots]
      split
      · exact (counterOk_wait _ _).2 (hc c)
      · exact hc d
    · exact hc
  case platform p => exact hc
  case reset => exact countersInv_resetTo s
  case resetWithin n => exact countersInv_resetTo s

/-- Settles O54. -/
theorem countersFollowTheMessage : Obligations.CountersFollowTheMessage := by
  intro s t h hc hstep
  rcases step_cases h.notIssued hstep with ⟨hm, -, hrun⟩ | ⟨n, rest, u, hm, -, hrun, ⟨-, rfl⟩ | rfl⟩ | ⟨hm, rfl⟩
  · exact countersInv_running h hc hm hrun
  · have hu := countersInv_running h hc hm hrun
    exact hu
  · exact countersInv_resetTo _
  · rcases nextMove_cases s with e | ⟨m, -, e⟩ | ⟨m, rest, -, e⟩ <;> rw [e]
    · exact hc
    · exact countersInv_moveEffect h hc m
    · exact countersInv_moveEffect (inv_agenda h rest) hc m

/-- Settles O51: reset leaves no slot busy. -/
theorem invHoldsAtReset : Obligations.InvHoldsAtReset :=
  ⟨inv_resetTo State.reset, countersInv_resetTo State.reset, waitInv_resetTo State.reset⟩

end Sys2Proof.Proofs.WaitsAndCounters
end

section
/-! The pin bank and the transfers as instructions (40_pinbank.md, 42_transfer.md). -/

namespace Sys2Proof.Proofs.PinsAndTransfers

open Sys2Proof Sys2Proof.Machine Sys2Proof.Safety Sys2Proof.Laws Sys2Proof.Laws.State Sys2Proof.Laws.Events
  Sys2Proof.Laws.Transfer Sys2Proof.Laws.Steps Sys2Proof.Proofs.MalformedRoles Sys2Proof.Proofs.Initialize
  Sys2Proof.Proofs.Segment

/-! ## Pin bank -/

/-- Settles O10: one pin write, on an owned pin or not. -/
theorem setLevelWritesItsPinOrRaises : Obligations.SetLevelWritesItsPinOrRaises := by
  intro p l s
  constructor
  · intro hown
    have hexec : exec (.setLevel p l) s = .next (afterEvents [.pin p l] s) := by
      rw [exec, execSetLevel, setPinLevel_owned hown, outcome_ok]
    exact ⟨_, hexec, get_set_same s.lvl p l, fun q hq => get_set_other s.lvl l hq, rfl⟩
  · intro hown
    exact outcome_pinNotOwned (setPinLevel_unowned hown l)

/-- Settles O11. -/
theorem releaseEndsOwnershipOnce : Obligations.ReleaseEndsOwnershipOnce := by
  intro p s
  constructor
  · intro hown
    have hexec : exec (.release p) s = .next (emit (.disown p) { s with own := s.own.set p false }) := by
      rw [exec, execRelease, releasePin, if_pos hown, outcome_ok]
    exact ⟨_, hexec, get_set_same s.own p false, fun q hq => get_set_other s.own false hq, rfl⟩
  · intro hown
    rw [exec, execRelease, releasePin, if_neg (by simp [hown]), outcome_raised]
    rfl

/-- Settles O12. -/
theorem openAcquiresTheWholeList : Obligations.OpenAcquiresTheWholeList := by
  intro pins s hgood
  have hexec := congrArg (Host.Outcome.next (φ := Fault) (ρ := Refusal)) (openPins_ok (firstBadPin_none hgood))
  exact ⟨_, hexec, ownAfter_get pins s.own, fun q hq => padAfter_get_other _ _ hq,
    fun q hq => padAfter_get_mem _ _ hq, rfl⟩

/-- Settles O13: the answer is that of the first bad pin. -/
theorem openFailureAcquiresNothing : Obligations.OpenFailureAcquiresNothing := by
  intro pre p post s hpre
  obtain ⟨hinvalid, hunavail⟩ := firstBadPin_at p post hpre
  exact ⟨fun hi => congrArg _ (openPins_bad (hinvalid hi)), fun hi hu => congrArg _ (openPins_bad (hunavail hi hu))⟩

/-! ## Strobe -/

/-- Settles O15. -/
theorem strobeMakesItsPinEvents : Obligations.StrobeMakesItsPinEvents := by
  intro reg v pins s hpins
  refine ⟨fun hown => ?_, fun pre p hstop => outcome_pinNotOwned (strobeOp_stops hpins hstop)⟩
  rw [exec, execStrobe, strobeOp_owned hpins hown, outcome_ok]

/-- Writes of a list of pins leave every other latch. -/
theorem latch_zipWith_other {pins : List Pin} {q : Pin} (hq : q ∉ pins) (levels : List Level) (lvl : PerPin Level) :
    (latchAfter (List.zipWith .pin pins levels) lvl).get q = lvl.get q := by
  induction pins generalizing levels lvl with
  | nil => rfl
  | cons p rest ih =>
    obtain ⟨hqp, hrest⟩ : q ≠ p ∧ q ∉ rest := by simpa using hq
    cases levels with
    | nil => rfl
    | cons l ls => exact (ih hrest ls (lvl.set p l)).trans (get_set_other lvl l hqp)

/-- Writes of a list of pins without repeats leave each pin at its level. -/
theorem latch_zipWith_at {pins : List Pin} (hn : pins.Nodup) {levels : List Level} {i : Nat} {p : Pin} {l : Level}
    (hp : pins[i]? = some p) (hl : levels[i]? = some l) (lvl : PerPin Level) :
    (latchAfter (List.zipWith .pin pins levels) lvl).get p = l := by
  induction pins generalizing levels lvl i with
  | nil => simp at hp
  | cons q rest ih =>
    obtain ⟨hq, hrest⟩ := List.nodup_cons.1 hn
    cases levels with
    | nil => simp at hl
    | cons k ls =>
      cases i with
      | zero =>
        obtain rfl : q = p := by simpa using hp
        obtain rfl : k = l := by simpa using hl
        exact (latch_zipWith_other hq ls (lvl.set q k)).trans (get_set_same lvl q k)
      | succ n => exact ih hrest (by simpa using hp) (by simpa using hl) (lvl.set q k)

/-- The latches after a strobe are those its data pins were written to, but for `E` and `RS`. -/
theorem latch_strobe {q : Pin} (he : q ≠ .e) (hrs : q ≠ .rs) (reg : Register) (pins : List Pin) (levels : List Level)
    (lvl : PerPin Level) :
    (latchAfter (strobeEvents reg pins levels) lvl).get q =
      (latchAfter (List.zipWith .pin pins levels) ((lvl.set .e .high).set .rs (rsLevel reg))).get q := by
  simp only [strobeEvents, latchAfter, List.foldl_append, List.foldl_cons, List.foldl_nil, latchEvent]
  rw [get_set_other _ _ hrs, get_set_other _ _ he]

theorem latch_strobe_at {pins : List Pin} (hn : (Pin.e :: .rs :: pins).Nodup) {levels : List Level} {i : Nat}
    {p : Pin} {l : Level} (hp : pins[i]? = some p) (hl : levels[i]? = some l) (reg : Register) (lvl : PerPin Level) :
    (latchAfter (strobeEvents reg pins levels) lvl).get p = l := by
  have hmem := List.mem_of_getElem? hp
  obtain ⟨he, hn⟩ := List.nodup_cons.1 hn
  obtain ⟨hrs, hn⟩ := List.nodup_cons.1 hn
  have hpe : p ≠ .e := fun e => he (e ▸ List.mem_cons_of_mem _ hmem)
  have hprs : p ≠ .rs := fun e => hrs (e ▸ hmem)
  rw [latch_strobe hpe hprs, latch_zipWith_at hn hp hl]

theorem latch_strobe_other {pins : List Pin} {q : Pin} (hq : q ∉ Pin.e :: .rs :: pins) (reg : Register)
    (levels : List Level) (lvl : PerPin Level) :
    (latchAfter (strobeEvents reg pins levels) lvl).get q = lvl.get q := by
  obtain ⟨he, hrs, hq⟩ : q ≠ .e ∧ q ≠ .rs ∧ q ∉ pins := by simpa using hq
  rw [latch_strobe he hrs, latch_zipWith_other hq, get_set_other _ _ hrs, get_set_other _ _ he]

theorem bitLevels_four (b : Nibble) {i : Nat} (hi : i < 4) :
    (bitLevels (.four b))[i]? = some (levelOf (b.getLsbD i)) := by
  match i with
  | 0 | 1 | 2 | 3 => rfl

theorem bitLevels_eight (b : Byte) {i : Nat} (hi : i < 8) :
    (bitLevels (.eight b))[i]? = some (levelOf (b.getLsbD i)) := by
  match i with
  | 0 | 1 | 2 | 3 | 4 | 5 | 6 | 7 => rfl

/-- The four data pins of a mode are four, and none is `E` or `RS`. -/
theorem strobePins_four {m : Option Mode} {b : Nibble} {pins : List Pin} (h : strobePins m (.four b) = some pins) :
    pins.length = 4 ∧ (Pin.e :: .rs :: pins).Nodup := by
  obtain ⟨m, -, rfl⟩ := Option.map_eq_some_iff.1 h
  cases m <;> decide

/-- Settles O16: a strobe's latches, bit by bit, and TD's example by computation. -/
theorem strobePutsEachBitOnItsPin : Obligations.StrobePutsEachBitOnItsPin := by
  refine ⟨fun reg b pins s hpins hown => ?_, fun reg b s hown => ?_, rfl⟩
  · obtain ⟨hlen, hnodup⟩ := strobePins_four hpins
    refine ⟨_, (strobeMakesItsPinEvents reg _ pins s hpins).1 hown, fun i p hp => ?_, fun q hq => ?_⟩
    · have hi : i < 4 := hlen ▸ (List.getElem?_eq_some_iff.1 hp).1
      exact latch_strobe_at hnodup hp (bitLevels_four b hi) reg s.lvl
    · exact latch_strobe_other hq reg _ s.lvl
  · have hown' : ownsAll s (.e :: .rs :: dataPinsOf .eightBit) := by
      intro p hp
      exact hown p (by simpa [openList, or_left_comm] using hp)
    refine ⟨_, (strobeMakesItsPinEvents reg (.eight b) _ s rfl).1 hown', fun i p hp => ?_⟩
    have hi : i < 8 := (List.getElem?_eq_some_iff.1 hp).1
    exact latch_strobe_at (by decide) hp (bitLevels_eight b hi) reg s.lvl

/-! ## The controller's view -/

/-- A strobe has one falling edge of `E`, at which its levels stand on the data pins. -/
theorem controllerView_four (reg : Register) (b : Nibble) (lvl : PerPin Level) (rest : List Event) :
    controllerView [.d4, .d5, .d6, .d7] lvl
        (strobeEvents reg [.d4, .d5, .d6, .d7] (bitLevels (.four b)) ++ rest) =
      ⟨reg, bitLevels (.four b)⟩ :: controllerView [.d4, .d5, .d6, .d7]
        (latchAfter (strobeEvents reg [.d4, .d5, .d6, .d7] (bitLevels (.four b))) lvl) rest := by
  cases reg <;> rfl

theorem controllerView_eight (reg : Register) (b : Byte) (lvl : PerPin Level) (rest : List Event) :
    controllerView (dataPinsOf .eightBit) lvl
        (strobeEvents reg (dataPinsOf .eightBit) (bitLevels (.eight b)) ++ rest) =
      ⟨reg, bitLevels (.eight b)⟩ :: controllerView (dataPinsOf .eightBit)
        (latchAfter (strobeEvents reg (dataPinsOf .eightBit) (bitLevels (.eight b))) lvl) rest := by
  cases reg <;> rfl

/-- Settles O18: one write a strobe, and the strobes of a `WriteValue` one after the other. -/
theorem controllerSeesOneWritePerStrobe : Obligations.ControllerSeesOneWritePerStrobe := by
  intro reg m n v lvl
  have hfour := controllerView_four reg n lvl []
  have hbyte := controllerView_eight reg v lvl []
  rw [List.append_nil] at hfour hbyte
  refine ⟨hfour, hbyte, ?_⟩
  cases m with
  | fourBit =>
    simp only [writeEvents, writeStrobes, dataPinsOf, List.append_assoc]
    rw [controllerView_four, controllerView_four]
    rfl
  | eightBit =>
    simp only [writeEvents, writeStrobes]
    rw [show [Pin.d0, .d1, .d2, .d3, .d4, .d5, .d6, .d7] = dataPinsOf .eightBit from rfl, controllerView_eight]
    rfl

/-- Settles O14. -/
theorem roleMapAndRegisterLevels : Obligations.RoleMapAndRegisterLevels :=
  ⟨rfl, rfl, fun m => by cases m <;> rfl, rfl, rfl, rfl, rfl, Timer.decodeMode_encodeMode, Timer.encodeMode_decodeMode⟩

/-- Settles O34: the rule bit by bit, and the three counts over the 1024 role sets by computation. -/
theorem modeResolutionCoversAllRoleSets : Obligations.ModeResolutionCoversAllRoleSets := by
  refine ⟨fun present => ?_, ?_, ?_, ?_, rfl, fun b => rfl⟩
  · simp only [resolveMode, pinBit, pinIndex, List.all_cons, List.all_nil, Bool.and_true, Bool.and_assoc]
    split <;> split <;> simp_all
  · decide +kernel
  · decide +kernel
  · decide +kernel

end Sys2Proof.Proofs.PinsAndTransfers
end

section
/-! WRITEVALUE, WAIT, INITSEQ, and the instructions of a message (42_transfer.md, 43_message.md): on a Present driver,
where a pin is not owned, and at the return from their wait. -/

namespace Sys2Proof.Proofs.MessageInstructions

open Sys2Proof Sys2Proof.Machine Sys2Proof.Safety Sys2Proof.Laws Sys2Proof.Laws.State Sys2Proof.Laws.Events
  Sys2Proof.Laws.Transfer Sys2Proof.Laws.Steps Sys2Proof.Proofs.MalformedRoles Sys2Proof.Proofs.Segment

/-! ## WriteValue and its callers -/

/-- A `WriteValue` on a Present driver: whole, or up to the first pin that is not owned. -/
theorem writeValue_present {d : Driver} {s : State} (hd : s.driver = some d) (reg : Register) (v : Byte) (ret : Ret) :
    (ownsAll s (openList d.mode) → (writeValueOp reg v ret s).outcome =
      .next (suspended 40 (.execwait ret) (afterEvents (writeEvents d.mode reg v) s))) ∧
    (∀ pre p, stopsAfter s (writeStrobes d.mode reg v) pre p → (writeValueOp reg v ret s).outcome =
      .next (afterFault (.pinNotOwned p) (afterEvents pre s))) :=
  ⟨fun hown => by rw [writeValueOp_owned (mode_of_driver hd) hown, outcome_ok],
    fun pre p hstop => outcome_pinNotOwned (writeValueOp_stops (mode_of_driver hd) hstop ret)⟩

/-- The return to a plain position. -/
theorem step_return_plain {op : Op} {p : Pos} {s : State} (hseg : inSegment op s)
    (hpc : (slotGet s.ctxs s.cur).pc = .execwait (.plain p)) :
    step s = .next (withSlot { slotGet s.ctxs s.cur with pc := .pos p } s) := by
  rw [step_at_execwait hseg hpc]
  rfl

/-- Settles O19. -/
theorem writeValueStrobesThenWaits : Obligations.WriteValueStrobesThenWaits :=
  ⟨fun reg v _ _ hd => writeValue_present hd reg v _, fun _ _ _ hseg hpc => step_return_plain hseg hpc⟩

/-- Settles O28. -/
theorem newLineWritesItsCode : Obligations.NewLineWritesItsCode :=
  ⟨fun _ _ hd => writeValue_present hd .instruction 0xC0 _, fun _ _ _ hseg hpc => step_return_plain hseg hpc⟩

/-- Settles O29. -/
theorem nlSendsNewLineAndCounts : Obligations.NlSendsNewLineAndCounts := by
  refine ⟨fun d s hd => writeValue_present hd .instruction 0xC0 .nl, fun op s hseg hpc => ?_⟩
  rw [step_at_execwait hseg hpc]
  rfl

/-- Settles O27. -/
theorem clearDisplayWritesAndWaits : Obligations.ClearDisplayWritesAndWaits := by
  refine ⟨fun d s hd => writeValue_present hd .instruction 0x01 .clear, fun op s hseg hpc => ?_⟩
  rw [step_at_execwait hseg hpc]
  exact congrArg Host.Outcome.next (waitOp_setPc .clear (by simp) s)

/-- A wait of an operation whose sequencer has moved on to the registers `x`. -/
theorem waitOp_withSlot {x : Ctx} (hx : x ≠ Ctx.idle) (w : WaitTime) (s : State) :
    waitOp w (withSlot x s) = suspended (waitUs w) x.pc (withSlot x (afterEvents [.wait (waitUs w)] s)) := by
  rw [waitOp_eq, get_withSlot hx]
  rfl

/-- Settles O30: the warnings, and then the `WriteValue` on the state after them. -/
theorem charWarnsWritesAndCounts : Obligations.CharWarnsWritesAndCounts := by
  refine ⟨fun ch d s warnings hd hw => ?_, fun op s hseg hpc => ?_⟩
  · have hchar : exec (.char ch) s = (writeValueOp .data ch .char (afterEvents warnings s)).outcome := by
      rw [hw, ← charWarnings_events, ← charOp_present hd]
      rfl
    obtain ⟨howned, hstops⟩ := writeValue_present (s := afterEvents warnings s) hd .data ch .char
    rw [hchar]
    refine ⟨fun hown => ?_, fun pre p hstop => ?_⟩
    · rw [howned hown, afterEvents_append]
    · rw [hstops pre p hstop, afterEvents_append]
  · rw [step_at_execwait hseg hpc]
    have hidle := ne_idle_of_op (x := { slotGet s.ctxs s.cur with
      lineChars := (slotGet s.ctxs s.cur).lineChars + 1, pc := .pos .charwait }) hseg.2.2.2
    exact congrArg Host.Outcome.next (waitOp_withSlot hidle .char s)

/-- Settles O42: the registers DISPOSE starts with do not meet the events. -/
theorem disposeBeginsWithClear : Obligations.DisposeBeginsWithClear :=
  fun _ s hd hown => (writeValue_present (s := withSlot disposeCtx s) hd .instruction 0x01 .clear).1 hown

/-! ## WAIT, ACQUIRE, UNLOCK, WRMSG -/

/-- Settles O20: each constant by its value. -/
theorem waitSuspendsItsContext : Obligations.WaitSuspendsItsContext := by
  intro t us s h
  have hus : us = waitUs t := by cases t <;> simpa [waitUs] using h
  rw [hus]
  exact congrArg Host.Outcome.next (waitOp_eq t s)

/-- Settles O22. -/
theorem acquireTakesAFreeLockOrWaits : Obligations.AcquireTakesAFreeLockOrWaits := by
  intro s
  refine ⟨fun hl => ?_, fun h hl => ?_⟩
  · rw [exec, execAcquire, hl]
    rfl
  · have hexec : exec .acquire s = .next (endSegment { s with waiters := insertWaiter s.cur s.waiters }) := by
      rw [exec, execAcquire, hl]
    exact ⟨_, hexec, fun c => mem_insertWaiter s.cur c s.waiters, rfl⟩

/-- Settles O23. -/
theorem unlockFreesTheLock : Obligations.UnlockFreesTheLock := fun _ => rfl

/-- Settles O26. -/
theorem wrmsgStandsAtAcquire : Obligations.WrmsgStandsAtAcquire := fun _ _ => rfl

/-! ## INITSEQ -/

/-- The rows of INITSEQ: which step each one is, and its nibble and wait (30_encoding.md R97). -/
theorem initRow {i : Instr} {k : InitStep} {nib : Nibble} {us : Nat}
    (h : (i, k, nib, us) ∈
      [(Instr.initseq1, InitStep.k1, (0x3 : Nibble), 15000), (.initseq2, .k2, 0x3, 4100),
       (.initseq3, .k3, 0x3, 4100), (.initseq4, .k4, 0x2, 4100), (.initseq5, .k5, 0x2, 400),
       (.initseq6, .k6, 0x8, 400), (.initseq7, .k7, 0x0, 400), (.initseq8, .k8, 0xC, 400),
       (.initseq9, .k9, 0x0, 400), (.initseq10, .k10, 0x6, 400), (.initseq, .k1, 0x3, 15000)]) :
    (∀ s, exec i s = (initStepOp k s).outcome) ∧ nib = initNibble k ∧ us = waitUs (initWait k) := by
  simp only [List.mem_cons, List.not_mem_nil, or_false, Prod.mk.injEq] at h
  rcases h with h | h | h | h | h | h | h | h | h | h | h <;> obtain ⟨rfl, rfl, rfl, rfl⟩ := h <;>
    exact ⟨fun _ => rfl, rfl, rfl⟩

/-- Settles O41. -/
theorem initStepsStrobeAndWait : Obligations.InitStepsStrobeAndWait := by
  intro i k nib us pins s hrow hpins
  obtain ⟨hexec, rfl, rfl⟩ := initRow hrow
  rw [hexec]
  refine ⟨fun hown => ?_, fun pre p hstop => outcome_pinNotOwned (initStepOp_stops hpins hstop)⟩
  rw [initStepOp_owned hpins hown, outcome_ok]

/-! ## The Absent driver -/

/-- A step of INITSEQ raises where its strobe does. -/
theorem initStepOp_raised {k : InitStep} {r : Raise} {s u : State}
    (h : strobeOp .instruction (.four (initNibble k)) s = .raised r u) : initStepOp k s = .raised r u := by
  rw [initStepOp, h]
  rfl

/-- The instructions that are one strobe of four bits raise where that strobe does. -/
theorem exec_fourBit_raised {i : Instr} {reg : Register}
    (h : (∃ b, i = .strobe reg (.four b)) ∨ (reg = .instruction ∧ ((∃ k, i = initInstr k) ∨ i = .initseq))) :
    ∃ b, ∀ s r u, strobeOp reg (.four b) s = .raised r u → exec i s = (Res.raised r u).outcome := by
  rcases h with ⟨b, rfl⟩ | ⟨rfl, ⟨k, rfl⟩ | rfl⟩
  · exact ⟨b, fun s r u hs => congrArg Res.outcome hs⟩
  · exact ⟨initNibble k, fun s r u hs => (exec_initInstr k s).trans (congrArg Res.outcome (initStepOp_raised hs))⟩
  · exact ⟨initNibble .k1, fun s r u hs => congrArg Res.outcome (initStepOp_raised (k := .k1) hs)⟩

/-- The instructions that read the DriverState before any pin write. -/
theorem exec_reads_absent {i : Instr} {s : State} (hd : s.driver = none)
    (h : (∃ reg v, i = .writeValue reg v) ∨ i = .clearDisplay ∨ i = .newLine ∨ i = .nl ∨ ∃ ch, i = .char ch) :
    exec i s = .next (afterFault (.pinNotOwned (absentPin s)) s) := by
  have hmode := mode_of_absent hd
  rcases h with ⟨reg, v, rfl⟩ | rfl | rfl | rfl | ⟨ch, rfl⟩
  · exact outcome_absent (writeValueOp_noMode hmode _ _ _)
  · exact outcome_absent (writeValueOp_noMode hmode _ _ _)
  · exact outcome_absent (writeValueOp_noMode hmode _ _ _)
  · exact outcome_absent (writeValueOp_noMode hmode _ _ _)
  · exact outcome_absent (charOp_absent hd ch)

theorem exec_dispose_absent {s : State} (hd : s.driver = none) :
    exec .dispose s = .next (afterFault (.pinNotOwned (absentPin s)) (withSlot disposeCtx s)) :=
  outcome_absent (writeValueOp_noMode (s := withSlot disposeCtx s) (mode_of_absent hd) _ _ _)

/-- Settles O17: by which of `E` and `RS` are owned. -/
theorem strobeWithoutModeNeverGuesses : Obligations.StrobeWithoutModeNeverGuesses := by
  refine ⟨fun i reg s hd hi => ?_, fun i s hd hi => ⟨_, exec_reads_absent hd hi, absentPin_unowned⟩,
    fun s hd => ⟨_, exec_dispose_absent hd, absentPin_unowned⟩⟩
  have hmode := mode_of_absent hd
  obtain ⟨b, hraised⟩ := exec_fourBit_raised hi
  refine ⟨fun he => ?_, fun he hrs => ?_, fun he hrs => ?_⟩
  · rw [hraised _ _ _ (strobeOp_unowned he reg _), outcome_raised]
    rfl
  · rw [hraised _ _ _ (strobeOp_noMode_rs hmode he hrs reg b), outcome_raised]
    rfl
  · have hown : ownsAll s [.e, .rs] := by simp [ownsAll, he, hrs]
    rw [hraised _ _ _ (strobeOp_noMode hmode hown reg b), outcome_raised]
    exact ⟨_, rfl⟩

/-- Settles O31: `E` is the first pin of every transfer, and it is not owned. -/
theorem absentDriverFaultsAtFirstPinWrite : Obligations.AbsentDriverFaultsAtFirstPinWrite := by
  intro s hd hown
  have hpin : absentPin s = .e := absentPin_unowned (hown .e)
  have hreads := fun i hi => exec_reads_absent (i := i) hd hi
  have hdispose := exec_dispose_absent hd
  rw [hpin] at hreads hdispose
  exact ⟨fun p l => outcome_pinNotOwned (setPinLevel_unowned (hown p) l),
    fun reg v => outcome_pinNotOwned (strobeOp_unowned (hown .e) reg v),
    fun reg v => hreads _ (.inl ⟨reg, v, rfl⟩), hreads _ (.inr (.inl rfl)), hreads _ (.inr (.inr (.inl rfl))),
    hreads _ (.inr (.inr (.inr (.inl rfl)))), fun ch => hreads _ (.inr (.inr (.inr (.inr ⟨ch, rfl⟩)))),
    outcome_pinNotOwned (initStepOp_unowned (hown .e) .k1),
    fun k => (exec_initInstr k s).trans (outcome_pinNotOwned (initStepOp_unowned (hown .e) k)), hdispose⟩

end Sys2Proof.Proofs.MessageInstructions
end

section
/-! The sequencer (10_state.md R32): what a step inside a segment is at each position, the release segment of DISPOSE,
and a WRMSG that meets an Absent driver. -/

namespace Sys2Proof.Proofs.Sequencer

open Sys2Proof Sys2Proof.Machine Sys2Proof.Safety Sys2Proof.Laws Sys2Proof.Laws.State Sys2Proof.Laws.Events
  Sys2Proof.Laws.Transfer Sys2Proof.Laws.Steps Sys2Proof.Proofs.MalformedRoles Sys2Proof.Proofs.Segment
  Sys2Proof.Proofs.MessageInstructions

theorem run_zero (s : State) : Sys2Proof.core.run 0 s = .next s := rfl

theorem run_succ {s t : State} (h : step s = .next t) (k : Nat) :
    Sys2Proof.core.run (k + 1) s = Sys2Proof.core.run k t := by
  have hstep : Sys2Proof.core.step s = .next t := h
  simp only [Host.Core.run, hstep]

/-- Settles O44. -/
theorem stepRunsThePlacedInstruction : Obligations.StepRunsThePlacedInstruction := by
  intro s f bs hi
  have hstep : step s = runIssued ⟨f, bs⟩ s := by rw [step, hi]
  rw [hstep]
  exact ⟨fun i rest hd => by rw [runIssued, hd], fun e hd => by rw [runIssued, hd]⟩

/-- Settles O45: each clause is the action of its position. -/
theorem stepRunsTheInstructionOfThePosition : Obligations.StepRunsTheInstructionOfThePosition := by
  intro op s hseg
  refine ⟨fun hpc => ?_, fun k hpc => ?_, fun k k' hpc hn => ?_, fun hpc => ?_, fun hpc hop => ?_,
    fun hpc hop => ?_, fun hpc => ?_⟩ <;> rw [step_at_pos hseg hpc]
  · rfl
  · rfl
  · rw [positionAction, hn]
    rfl
  · rfl
  · subst hop
    rfl
  · subst hop
    rfl
  · rfl

/-- A slot that has come to `open` is that of INIT there. -/
theorem withSlot_opening {cfg : Cfg} {s : State} (hw : slotsWf s.ctxs)
    (hslot : slotGet s.ctxs s.cur = { Ctx.idle with op := some .init, cfg := cfg, pc := .pos .opening }) :
    withSlot { initCtx cfg with pc := .pos .opening } s = s := by
  have hself := withSlot_self (s := s) (op := .init) hw (by rw [hslot])
  rwa [hslot] at hself

/-- At `open` the sequencer does what INIT does from its start once it has come there. -/
theorem step_at_opening {op : Op} {cfg : Cfg} {s : State} (hseg : inSegment op s) (hw : slotsWf s.ctxs)
    (hd : s.driver = none) (he : cfg.err = false)
    (hslot : slotGet s.ctxs s.cur = { Ctx.idle with op := some .init, cfg := cfg, pc := .pos .opening }) :
    step s = exec (.init cfg) s := by
  have hcfg : s.me.cfg = cfg := by rw [me_eq, hslot]
  rw [step_at_pos hseg (p := .opening) (by rw [hslot]), positionAction, hcfg]
  cases hm : resolveMode cfg.present with
  | none =>
    rw [malformedRolesAreASilentNoOp cfg s hd he hm]
    rfl
  | some m =>
    rw [init_opens hd he hm, withSlot_opening hw hslot]
    rfl

/-- Settles O46. -/
theorem sequencerMovesOn : Obligations.SequencerMovesOn := by
  intro op s hseg
  refine ⟨fun hpc hop => ?_, fun hpc hop => ?_, fun hpc => ?_, fun hpc => ?_, fun hpc => ?_,
    fun cfg hw hd he hslot => step_at_opening hseg hw hd he hslot⟩ <;> rw [step_at_pos hseg hpc]
  · subst hop
    rfl
  · subst hop
    rfl
  · rfl
  · rfl
  · rfl

/-- Settles O43. -/
theorem disposeReleasesEveryPinOnce : Obligations.DisposeReleasesEveryPinOnce := by
  intro s hseg hpc
  rw [step_at_pos hseg hpc]
  exact disposeRelease_outcome s

/-! ## A WRMSG on an Absent driver -/

/-- `s` after its running context took the free lock (43_message.md R191). -/
def acquired (s : State) : State :=
  { s with
    lock := .held s.cur
    waiters := s.waiters.filter (fun c => c != s.cur)
    trace := s.trace ++ [(s.cur, .lock s.cur)]
    ctxs := slotSet s.ctxs s.cur { slotGet s.ctxs s.cur with pc := .pos .clear } }

theorem acquired_slot {op : Op} {s : State} (ho : (slotGet s.ctxs s.cur).op = some op) :
    slotGet (acquired s).ctxs (acquired s).cur = { slotGet s.ctxs s.cur with pc := .pos .clear } := by
  have hidle := ne_idle_of_op (x := { slotGet s.ctxs s.cur with pc := .pos .clear }) ho
  exact Slots.get_set_same hidle s.ctxs s.cur

theorem step_acquires {s : State} (hseg : inSegment .wrmsg s) (hpc : (slotGet s.ctxs s.cur).pc = .pos .acq)
    (hl : s.lock = .free) : step s = .next (acquired s) := by
  rw [step_at_pos hseg hpc]
  exact (acquireTakesAFreeLockOrWaits s).1 hl

/-- Its segment goes on, at CLEARDISPLAY. -/
theorem acquired_inSegment {s : State} (hseg : inSegment .wrmsg s) : inSegment .wrmsg (acquired s) := by
  obtain ⟨hi, hm, ha, ho⟩ := hseg
  exact ⟨hi, hm, ha, by rw [acquired_slot ho]; exact ho⟩

/-- A fault of the WRMSG that holds the lock, field by field. -/
theorem afterFault_holder {s : State} (ho : (slotGet s.ctxs s.cur).op = some .wrmsg) (hl : s.lock = .held s.cur)
    (code : Condition) : afterFault code s = { s with
      faulted := true, lock := .free
      trace := s.trace ++ [(s.cur, .evt code), (s.cur, .unlock s.cur), (s.cur, .fail .wrmsg code)]
      ctxs := slotSet s.ctxs s.cur Ctx.idle, midSegment := false } := by
  simp [afterFault, ho, hl]

/-- Settles O32: `Acquire`, and then CLEARDISPLAY at its first pin write. -/
theorem wrmsgOnAbsentDriverFails : Obligations.WrmsgOnAbsentDriverFails := by
  intro s hw hseg hpc hl hd hown
  have hslot := acquired_slot hseg.2.2.2
  have hclear : exec .clearDisplay (acquired s) = .next (afterFault (.pinNotOwned .e) (acquired s)) :=
    (absentDriverFaultsAtFirstPinWrite (acquired s) hd hown).2.2.2.1
  have hfault : step (acquired s) = .next (afterFault (.pinNotOwned .e) (acquired s)) := by
    rw [step_at_pos (acquired_inSegment hseg) (p := .clear) (by rw [hslot])]
    exact hclear
  have hrun : Sys2Proof.core.run 2 s = .next (afterFault (.pinNotOwned .e) (acquired s)) := by
    rw [run_succ (step_acquires hseg hpc hl) 1, run_succ hfault 0, run_zero]
  rw [afterFault_holder (acquired_inSegment hseg).2.2.2 rfl] at hrun
  refine ⟨_, hrun, by simp [acquired], rfl, rfl, ?_, rfl, rfl, rfl, hd⟩
  have hget := Slots.get_set (Slots.wf_set hw s.cur { slotGet s.ctxs s.cur with pc := .pos .clear }) s.cur s.cur Ctx.idle
  rwa [if_pos rfl] at hget

end Sys2Proof.Proofs.Sequencer
end

section
/-! What every instruction and every step keeps: totality, the trace and the parameters, the sticky flag, the lock, the
driver, and the one completion of an operation. -/

namespace Sys2Proof.Proofs.Frames

open Sys2Proof Sys2Proof.Machine Sys2Proof.Safety Sys2Proof.Laws Sys2Proof.Laws.State Sys2Proof.Laws.Events
  Sys2Proof.Laws.Transfer Sys2Proof.Laws.Steps Sys2Proof.Laws.Running Sys2Proof.Laws.Invariant
  Sys2Proof.Proofs.MalformedRoles Sys2Proof.Proofs.Initialize Sys2Proof.Proofs.Segment Sys2Proof.Proofs.Invariance

/-! ## Nothing stops the engine -/

theorem outcome_next (r : Res) : ∃ t, r.outcome = .next t := by
  cases r with
  | ok s => exact ⟨s, rfl⟩
  | raised x s => exact ⟨raiseFault x s, rfl⟩

/-- Every arm of `exec` is a next state, or the outcome of a part. -/
theorem exec_next (i : Instr) (s : State) : ∃ t, exec i s = .next t := by
  cases i with
  | wrmsg msg => exact ⟨_, rfl⟩
  | openOutputs pins => exact ⟨_, rfl⟩
  | wait t => exact ⟨_, rfl⟩
  | unlock => exact ⟨_, rfl⟩
  | acquire =>
    simp only [exec, execAcquire]
    split <;> exact ⟨_, rfl⟩
  | _ => exact outcome_next _

theorem runAction_next (a : Action) : ∃ t, runAction a = .next t := by
  cases a with
  | instr s i => exact exec_next i s
  | own r => exact outcome_next r

theorem resetCut_next (n : Nat) (rest : List Move) (s t : State) : ∃ u, resetCut n rest s (.next t) = .next u := by
  simp only [resetCut]
  split <;> exact ⟨_, rfl⟩

theorem step_next {s : State} (hi : s.issued = none) : ∃ t, step s = .next t := by
  simp only [step, hi]
  split
  · obtain ⟨t, ht⟩ := runAction_next (nextAction s)
    simp only [segmentStep, ht]
    split
    · exact resetCut_next _ _ _ _
    · exact ⟨t, rfl⟩
  · exact ⟨_, rfl⟩

/-- Settles O53. -/
theorem everyInstructionAndStepGoesOn : Obligations.EveryInstructionAndStepGoesOn :=
  ⟨exec_next, fun _ hi => step_next hi, fun _ h => step_next h.notIssued⟩

/-! ## Trace, parameters and flag -/

/-- A step runs the running context, cut or not by a reset, or is a move. -/
theorem step_ran {s t : State} (h : step s = .next t) :
    (∃ u, u.trace = s.trace ∧ u.params = s.params ∧ u.faulted = s.faulted ∧ Ran u t) ∨
    (∃ n rest u, s.agenda = .resetWithin n :: rest ∧ Ran s u ∧
      ((t.trace = u.trace ∧ t.params = u.params ∧ t.faulted = u.faulted) ∨
        t = resetTo { s with agenda := rest, trace := s.trace ++ (u.trace.drop s.trace.length).take n })) ∨
    t = nextMove s := by
  cases hi : s.issued with
  | some code =>
    simp only [step, hi, runIssued] at h
    split at h
    · exact .inl ⟨{ s with issued := none, midSegment := true }, rfl, rfl, rfl, running_exec h⟩
    · cases h
  | none =>
    rcases step_cases hi h with ⟨-, -, hrun⟩ | ⟨n, rest, u, -, ha, hrun, ⟨-, rfl⟩ | hreset⟩ | ⟨-, rfl⟩
    · exact .inl ⟨s, rfl, rfl, rfl, running_next hrun⟩
    · exact .inr (.inl ⟨n, rest, u, ha, running_next hrun, .inl ⟨rfl, rfl, rfl⟩⟩)
    · exact .inr (.inl ⟨n, rest, u, ha, running_next hrun, .inr hreset⟩)
    · exact .inr (.inr rfl)

theorem Ran.trace_grows {s t : State} (h : Ran s t) : s.trace <+: t.trace := by
  obtain ⟨evs, he, -⟩ := h.trace
  exact ⟨_, he.symm⟩

/-- Settles O48. -/
theorem traceOnlyGrowsAndParametersStay : Obligations.TraceOnlyGrowsAndParametersStay := by
  intro s t h
  rcases step_ran h with ⟨u, htrace, hparams, -, hran⟩ | ⟨n, rest, u, -, hran, ⟨htrace, hparams, -⟩ | rfl⟩ | rfl
  · exact ⟨htrace ▸ Ran.trace_grows hran, hran.params.trans hparams⟩
  · exact ⟨htrace ▸ Ran.trace_grows hran, hparams.trans hran.params⟩
  · exact ⟨⟨_, rfl⟩, rfl⟩
  · obtain ⟨htrace, hparams, -⟩ := nextMove_history s
    exact ⟨htrace ▸ List.prefix_rfl, hparams⟩

/-- No move sets the flag. -/
theorem moveEffect_flag {m : Move} {s : State} (h : (moveEffect m s).faulted = true) : s.faulted = true := by
  rcases (moveEffect_history m s).2.2 with e | rfl | ⟨n, rfl⟩
  · rw [← e, h]
  · cases h
  · cases h

theorem nextMove_flag {s : State} (h : (nextMove s).faulted = true) : s.faulted = true := by
  rcases nextMove_cases s with e | ⟨m, -, e⟩ | ⟨m, rest, -, e⟩ <;> rw [e] at h
  · exact h
  · exact moveEffect_flag h
  · exact moveEffect_flag (s := { s with agenda := rest }) h

/-- Settles O49. -/
theorem faultedIsSticky : Obligations.FaultedIsSticky := by
  intro s t h
  rcases step_ran h with ⟨u, htrace, -, hflag, hran⟩ | ⟨n, rest, u, ha, hran, ⟨htrace, -, hflag⟩ | rfl⟩ | rfl
  · obtain ⟨hkeep, hset⟩ := running_faulted hran
    rw [htrace, hflag] at hset
    rw [hflag] at hkeep
    exact ⟨fun hf => .inl (hkeep hf), hset⟩
  · obtain ⟨hkeep, hset⟩ := running_faulted hran
    rw [htrace, hflag]
    exact ⟨fun hf => .inl (hkeep hf), hset⟩
  · refine ⟨fun _ => .inr (.inr ⟨n, rest, ha⟩), fun _ hf => ?_⟩
    cases hf
  · obtain ⟨-, -, hflag⟩ := nextMove_history s
    refine ⟨fun hf => hflag.imp_left fun e => e.trans hf, fun hf hf' => ?_⟩
    rw [nextMove_flag hf'] at hf
    cases hf

/-- Settles O47. -/
theorem segmentIsNotInterleaved : Obligations.SegmentIsNotInterleaved := by
  intro op s t hw hseg h
  rw [step_inSegment hseg] at h
  have hran := running_next h
  obtain ⟨evs, htrace, -⟩ := hran.trace
  exact ⟨hran.agenda, hran.cur, (hran.slots hw).2, evs, htrace⟩

/-! ## The lock -/

/-- The lock is as before, or a WRMSG that held it took a fault. -/
def LockKept (s t : State) : Prop :=
  t.lock = s.lock ∨
    (s.lock = .held s.cur ∧ (slotGet s.ctxs s.cur).op = some .wrmsg ∧ t.lock = .free ∧ t.faulted = true)

theorem lockKept_fault (code : Condition) (s : State) : LockKept s (afterFault code s) := by
  by_cases h : ((slotGet s.ctxs s.cur).op == some Op.wrmsg && s.lock == .held s.cur) = true
  · obtain ⟨ho, hl⟩ : (slotGet s.ctxs s.cur).op = some .wrmsg ∧ s.lock = .held s.cur := by simpa using h
    exact .inr ⟨hl, ho, if_pos h, rfl⟩
  · exact .inl (if_neg h)

theorem lockKept_raised {r : Raise} {s t : State} {evs : List Event}
    (h : (Res.raised r (afterEvents evs s)).outcome = .next t) : LockKept s t := by
  rw [outcome_raised] at h
  cases h
  exact lockKept_fault (raiseCondition r) (afterEvents evs s)

theorem lockKept_transfer {r : Res} {us : Nat} {pc : Pc} {s t : State} (hr : TransferEnds r us pc s)
    (h : r.outcome = .next t) : LockKept s t := by
  rcases hr with ⟨evs, -, rfl⟩ | ⟨evs, p, -, rfl⟩
  · cases h
    exact .inl rfl
  · exact lockKept_raised h

theorem lockKept_strobe {reg : Register} {v : StrobeValue} {s t : State} (h : (strobeOp reg v s).outcome = .next t) :
    LockKept s t := by
  rcases strobeOp_cases reg v s with ⟨evs, -, e⟩ | ⟨evs, p, -, -, e⟩ <;> rw [e] at h
  · cases h
    exact .inl rfl
  · exact lockKept_raised h

/-- No end of INIT touches the lock. -/
theorem exec_init_lock {cfg : Cfg} {s t : State} (h : exec (.init cfg) s = .next t) : t.lock = s.lock := by
  cases hd : s.driver with
  | some d =>
    rw [initRefusedWhilePresent cfg s (by simp [hd])] at h
    cases h
    rfl
  | none =>
    cases herr : cfg.err with
    | true =>
      rw [ConfigError.configErrorIsAbsorbed cfg s hd herr] at h
      cases h
      rfl
    | false =>
      cases hm : resolveMode cfg.present with
      | none =>
        rw [malformedRolesAreASilentNoOp cfg s hd herr hm] at h
        cases h
        rfl
      | some m =>
        cases hbad : firstBadPin s.platform (openList m) with
        | some x =>
          rw [exec_init_bad hd herr hm hbad] at h
          cases h
          rfl
        | none =>
          have hgood := good_of_firstBadPin_none hbad
          cases m with
          | fourBit =>
            rw [exec_init_fourBit hd herr hm hgood] at h
            cases h
            rfl
          | eightBit =>
            rw [exec_init_eightBit hd herr hm hgood] at h
            cases h
            cases hk : s.params.eightBitState with
            | keep => rw [eightBitState_keep hk]; rfl
            | drop => rw [eightBitState_drop hk]; rfl

/-- A DISPOSE holds no lock, so its fault frees none. -/
theorem exec_dispose_lock {s t : State} (h : exec .dispose s = .next t) : t.lock = s.lock := by
  have hkept : LockKept (withSlot disposeCtx s) t := lockKept_transfer (writeValueOp_ends _ _ _ _) h
  rcases hkept with hl | ⟨-, ho, -⟩
  · exact hl
  · have hslot : slotGet (withSlot disposeCtx s).ctxs (withSlot disposeCtx s).cur = disposeCtx :=
      get_withSlot (ne_idle_of_op (op := .dispose) rfl) s
    rw [hslot] at ho
    cases ho

theorem openPins_lock (pins : List Pin) (s : State) : (openPins pins s).lock = s.lock := by
  cases h : firstBadPin s.platform pins with
  | some x => rw [openPins_bad h]
  | none => rw [openPins_ok h]

/-- Settles O25: by the instruction. -/
theorem onlyAcquireAndUnlockWriteTheLock : Obligations.OnlyAcquireAndUnlockWriteTheLock := by
  intro i s t hacq hunl h
  show LockKept s t
  cases i with
  | acquire => exact absurd rfl hacq
  | unlock => exact absurd rfl hunl
  | init cfg => exact .inl (exec_init_lock h)
  | dispose => exact .inl (exec_dispose_lock h)
  | wrmsg msg =>
    cases h
    exact .inl rfl
  | openOutputs pins =>
    cases h
    exact .inl (openPins_lock pins s)
  | wait w =>
    cases h
    exact .inl rfl
  | setLevel p l =>
    simp only [exec, execSetLevel, setPinLevel] at h
    split at h
    · cases h
      exact .inl rfl
    · exact lockKept_raised (evs := []) (by rwa [afterEvents_nil])
  | release p =>
    simp only [exec, execRelease, releasePin] at h
    split at h
    · cases h
      exact .inl rfl
    · exact lockKept_raised (evs := []) (by rwa [afterEvents_nil])
  | strobe reg v => exact lockKept_strobe h
  | char ch => exact lockKept_transfer (charOp_ends ch s) h
  | nl | clearDisplay | newLine | writeValue reg v => exact lockKept_transfer (writeValueOp_ends _ _ _ s) h
  | _ => exact lockKept_transfer (initStepOp_ends _ s) h

/-! ## The driver -/

theorem driver_segmentStep {op : Op} {s t : State} {d : Driver} (hd : s.driver = some d)
    (ho : (slotGet s.ctxs s.cur).op = some op) (hstep : SegmentStep op s t) :
    t.driver = some d ∨
    (t.driver = none ∧ (slotGet s.ctxs s.cur).op = some .dispose ∧ (slotGet s.ctxs s.cur).pc = .pos .release) := by
  cases hstep with
  | completes evs last driver own lvl answer hacq hlock hq hlast hpins hdriver =>
    rcases hdriver with e | e | ⟨rfl, hpc, e⟩
    · exact .inl (e.trans hd)
    · rw [hd] at e
      cases e
    · exact .inr ⟨e, ho, hpc⟩
  | opens cfg own lvl hop hpc hnone hpins =>
    rw [hd] at hnone
    cases hnone
  | _ => exact .inl hd

/-- A move between segments touches the driver only by reset. -/
theorem moveEffect_driver (m : Move) (s : State) :
    (moveEffect m s).driver = s.driver ∨
      ((moveEffect m s).driver = none ∧ (m = .reset ∨ ∃ n, m = .resetWithin n)) := by
  cases m with
  | request bytes =>
    left
    simp only [moveEffect]
    split <;> rfl
  | run c =>
    left
    simp only [moveEffect]
    split <;> rfl
  | tick us => exact .inl rfl
  | elapse c =>
    left
    simp only [moveEffect, elapse]
    split <;> rfl
  | platform p => exact .inl rfl
  | reset => exact .inr ⟨rfl, .inl rfl⟩
  | resetWithin n => exact .inr ⟨rfl, .inr ⟨n, rfl⟩⟩

theorem driver_running {s t : State} {d : Driver} (h : Inv s) (hd : s.driver = some d) (hm : s.midSegment = true)
    (hrun : runAction (nextAction s) = .next t) :
    t.driver = some d ∨
    (t.driver = none ∧ (slotGet s.ctxs s.cur).op = some .dispose ∧ (slotGet s.ctxs s.cur).pc = .pos .release) := by
  cases ho : (slotGet s.ctxs s.cur).op with
  | none =>
    rw [nextAction_idle ho] at hrun
    cases hrun
    exact .inl hd
  | some op =>
    rw [← ho]
    exact driver_segmentStep hd ho (segment_cases h hm ho hrun)

/-- Settles O50. -/
theorem modeAndGeometryNeverChange : Obligations.ModeAndGeometryNeverChange := by
  intro s t d h hd hstep
  rcases step_cases h.notIssued hstep with ⟨hm, -, hrun⟩ | ⟨n, rest, u, hm, ha, hrun, ⟨-, rfl⟩ | rfl⟩ | ⟨hm, rfl⟩
  · exact (driver_running h hd hm hrun).imp_right fun ⟨hn, hop, hpc⟩ => ⟨hn, .inl ⟨hop, hpc⟩⟩
  · exact (driver_running h hd hm hrun).imp_right fun ⟨hn, hop, hpc⟩ => ⟨hn, .inl ⟨hop, hpc⟩⟩
  · exact .inr ⟨rfl, .inr (.inr ⟨n, rest, ha⟩)⟩
  · rcases nextMove_cases s with e | ⟨m, hm, e⟩ | ⟨m, rest, ha, e⟩ <;> rw [e]
    · exact .inl hd
    · obtain ⟨hreset, hwithin, -⟩ := defaultMove_kinds hm
      rcases moveEffect_driver m s with e | ⟨-, rfl | ⟨n, rfl⟩⟩
      · exact .inl (e.trans hd)
      · exact absurd rfl hreset
      · exact absurd rfl (hwithin n)
    · rcases moveEffect_driver m { s with agenda := rest } with e | ⟨hn, rfl | ⟨n, rfl⟩⟩
      · exact .inl (e.trans hd)
      · exact .inr ⟨hn, .inr (.inl ⟨rest, ha⟩)⟩
      · exact .inr ⟨hn, .inr (.inr ⟨n, rest, ha⟩)⟩

/-! ## One WRMSG at a time -/

/-- A WRMSG that does not hold the lock stands at `acq`: at `end` it has freed it. -/
theorem wrmsg_waits {s : State} {holder : Nat} (h : Inv s) (hl : s.lock = .held holder)
    (ho : (slotGet s.ctxs s.cur).op = some .wrmsg) (hne : s.cur ≠ holder) :
    (slotGet s.ctxs s.cur).pc = .pos .acq := by
  by_contra hacq
  by_cases hfin : (slotGet s.ctxs s.cur).pc = .pos .finish
  · have hfree := (h.ending _ _ ho hfin).2.2 rfl
    rw [hl] at hfree
    cases hfree
  · have hheld := (h.lock s.cur).2 (by simp [holdsLock_eq, ho, hacq, hfin])
    rw [hl] at hheld
    cases hheld
    exact hne rfl

/-- Settles O55. -/
theorem holderExcludesOtherMessages : Obligations.HolderExcludesOtherMessages := by
  intro s t holder h hl hseg hne hstep
  have hpc := wrmsg_waits h hl hseg.2.2.2 hne
  obtain ⟨u, hexec, -, hu⟩ := (MessageInstructions.acquireTakesAFreeLockOrWaits s).2 holder hl
  have hstep' : step s = .next u := by
    rw [step_at_pos hseg hpc]
    exact hexec
  rw [hstep'] at hstep
  cases hstep
  rw [hu]
  exact ⟨rfl, rfl⟩

/-! ## One completion -/

/-- What an operation does to its slot and the trace in a step: it goes on with quiet events, or it ends Idle with its
completion last. -/
def GoesOnOrCompletes (op : Op) (s t : State) (evs : List Event) : Prop :=
  ((slotGet t.ctxs s.cur).op = some op ∧ ∀ ev ∈ evs, quiet ev) ∨
  ((slotGet t.ctxs s.cur).op = none ∧ t.midSegment = false ∧ ∃ pre last, evs = pre ++ [last] ∧
    (last = .done op ∨ ∃ code, last = .fail op code) ∧ ∀ ev ∈ pre, quiet ev)

/-- A fault of a running operation ends it, with its completion as the last event. -/
theorem afterFault_running {op : Op} {s : State} (ho : (slotGet s.ctxs s.cur).op = some op) (code : Condition) :
    ∃ pre : List Event, (∀ ev ∈ pre, quiet ev) ∧
      (afterFault code s).trace = s.trace ++ (pre ++ [Event.fail op code]).map (fun ev => (s.cur, ev)) ∧
      (afterFault code s).ctxs = slotSet s.ctxs s.cur Ctx.idle := by
  have hctxs : (afterFault code s).ctxs = slotSet s.ctxs s.cur Ctx.idle := by simp [afterFault, ho]
  by_cases h : op = .wrmsg ∧ s.lock = .held s.cur
  · exact ⟨[.evt code, .unlock s.cur], by simp [quiet], by simp [afterFault, ho, h], hctxs⟩
  · exact ⟨[.evt code], by simp [quiet], by simp [afterFault, ho, h], hctxs⟩

theorem segmentStep_completes_once {op : Op} {s t : State} (h : Inv s) (ho : (slotGet s.ctxs s.cur).op = some op)
    (hstep : SegmentStep op s t) :
    ∃ evs : List Event, t.trace = s.trace ++ evs.map (fun ev => (s.cur, ev)) ∧ GoesOnOrCompletes op s t evs := by
  have hget : ∀ x, slotGet (slotSet s.ctxs s.cur x) s.cur = x := fun x => by rw [Slots.get_set h.slots, if_pos rfl]
  cases hstep with
  | advance evs x w mid hadv hq hmid =>
    exact ⟨evs, rfl, .inl ⟨(congrArg Ctx.op (hget _)).trans (hadv.keeps_op ho), hq⟩⟩
  | fault evs code hacq hq =>
    obtain ⟨pre, hpre, htrace, hctxs⟩ := afterFault_running (s := afterEvents evs s) ho code
    refine ⟨evs ++ pre ++ [.fail op code], by simp [htrace],
      .inr ⟨?_, rfl, evs ++ pre, _, rfl, .inr ⟨code, rfl⟩, ?_⟩⟩
    · rw [hctxs]
      exact congrArg Ctx.op (hget Ctx.idle)
    · exact fun ev hev => (List.mem_append.1 hev).elim (hq ev) (hpre ev)
  | completes evs last driver own lvl answer hacq hlock hq hlast hpins hdriver =>
    exact ⟨evs ++ [last], rfl, .inr ⟨congrArg Ctx.op (hget Ctx.idle), rfl, evs, last, rfl, hlast, hq⟩⟩
  | opens cfg own lvl hop hpc hd hpins =>
    subst hop
    exact ⟨ownEvents (openList .fourBit), rfl, .inl ⟨congrArg Ctx.op (hget _), by simp [ownEvents, quiet]⟩⟩
  | acquires hop hpc hl =>
    exact ⟨[.lock s.cur], rfl, .inl ⟨(congrArg Ctx.op (hget _)).trans ho, by simp [quiet]⟩⟩
  | blocks hop hpc holder hl => exact ⟨[], by simp, .inl ⟨ho, by simp⟩⟩
  | unlocks hop hpc =>
    exact ⟨[.unlock s.cur], rfl, .inl ⟨(congrArg Ctx.op (hget _)).trans ho, by simp [quiet]⟩⟩

/-- Settles O56. -/
theorem everyOperationCompletesOnce : Obligations.EveryOperationCompletesOnce := by
  intro s t op h hseg hstep
  have ho := hseg.2.2.2
  rw [step_inSegment hseg] at hstep
  obtain ⟨evs, htrace, hends⟩ := segmentStep_completes_once h ho (segment_cases h hseg.2.1 ho hstep)
  refine ⟨evs, htrace, ?_⟩
  rcases hends with ⟨hop, hq⟩ | ⟨hop, hmid, pre, last, he, hlast, hq⟩
  · exact .inl ⟨hop, fun ev hev => hq ev hev op⟩
  · exact .inr ⟨hop, hmid, pre, last, he, hlast, fun ev hev => hq ev hev op⟩

end Sys2Proof.Proofs.Frames
end

section
/-! The moves between segments (60_exceptions.md R256, R257): requests, reset, the scheduler and time. -/

namespace Sys2Proof.Proofs.Moves

open Sys2Proof Sys2Proof.Machine Sys2Proof.Safety Sys2Proof.Laws Sys2Proof.Laws.State Sys2Proof.Laws.Running
  Sys2Proof.Proofs.Segment Sys2Proof.Proofs.Invariance

/-- Between two segments a step is a move. -/
theorem step_between {s : State} (hi : s.issued = none) (hm : s.midSegment = false) : step s = .next (nextMove s) := by
  rw [step, hi, hm]
  rfl

/-- A move of the agenda that can be taken. -/
theorem step_move {m : Move} {rest : List Move} {s : State} (h : nextMoveIs m rest s)
    (hr : requestWaits s m = false) : step s = .next (moveEffect m { s with agenda := rest }) := by
  obtain ⟨hi, hm, ha⟩ := h
  simp [step_between hi hm, nextMove, ha, hr]

/-! ## Requests -/

theorem requested_reserved (s : State) (bytes : List Byte) : requested s (0b11 :: bytes) = none := rfl

/-- Settles O5: the reserved command decodes to nothing. -/
theorem reservedCommandChangesNothing : Obligations.ReservedCommandChangesNothing := by
  intro s bytes rest h
  have hnone := requested_reserved s bytes
  rw [step_move h (by rw [requestWaits, hnone]; rfl)]
  rfl

/-- What a request of an encoded host command asks for. -/
theorem requested_encode {i : Instr} (hwf : i.wf = true) (hf : i.format = .hcmd) (s : State) :
    requested s (encode i) = requestCtx s i := by
  have hdecode := InstructionCodec.decodeReadsBackEncoded i [] hwf
  rw [List.append_nil, hf] at hdecode
  rw [requested, hdecode]

theorem step_request {bytes : List Byte} {rest : List Move} {s : State} {x : Ctx} {c : Nat}
    (h : nextMoveIs (.request bytes) rest s) (hx : requested s bytes = some x) (hc : freeSlot s = some c) :
    step s = .next { s with agenda := rest, ctxs := slotSet s.ctxs c x } := by
  have hx' : requested { s with agenda := rest } bytes = some x := hx
  have hc' : freeSlot { s with agenda := rest } = some c := hc
  rw [step_move h (by simp [requestWaits, hc]), moveEffect, hx', hc']
  rfl

/-- The host commands, with their messages no longer than MAXLEN. -/
theorem requested_command {i : Instr} {s : State} (hwf : i.wf = true)
    (h : (∃ cfg, i = .init cfg) ∨ (∃ msg, i = .wrmsg msg ∧ msg.length ≤ s.params.maxLen) ∨ i = .dispose) :
    ∃ x, requested s (encode i) = some x := by
  rcases h with ⟨cfg, rfl⟩ | ⟨msg, rfl, hlen⟩ | rfl <;> rw [requested_encode hwf rfl]
  · exact ⟨_, rfl⟩
  · exact ⟨_, if_pos hlen⟩
  · exact ⟨_, rfl⟩

/-- Settles O6: with an Idle slot the lowest one takes the request, and without one it waits. -/
theorem requestFillsAnIdleSlot : Obligations.RequestFillsAnIdleSlot := by
  intro s i rest hwf h
  refine ⟨fun c hidle hlt hlow => ?_, fun hw hbusy hi => ?_⟩
  · have hfree := freeSlot_lowest hidle hlt hlow
    refine ⟨fun cfg hi => ?_, fun msg hi hlen => ?_, fun hi => ?_⟩ <;> subst hi
    · exact step_request h (requested_encode hwf rfl s) hfree
    · exact step_request h ((requested_encode hwf rfl s).trans (if_pos hlen)) hfree
    · exact step_request h (requested_encode hwf rfl s) hfree
  · obtain ⟨x, hx⟩ := requested_command hwf hi
    obtain ⟨hissued, hm, ha⟩ := h
    have hwaits : requestWaits s (.request (encode i)) = true := by simp [requestWaits, hx, freeSlot_none.2 hbusy]
    have hstep : step s = .next (idleMove s) := by simp [step_between hissued hm, nextMove, ha, hwaits]
    exact ⟨_, hstep, idleMove_agenda s, (idleMove_history s).1, idleMove_ops hw⟩

/-! ## Reset -/

/-- Settles O7. -/
theorem resetLeavesTheSpecState : Obligations.ResetLeavesTheSpecState :=
  ⟨rfl, fun p => by cases p <;> rfl, rfl, rfl, rfl, rfl, fun _ => ⟨rfl, rfl⟩⟩

/-- Settles O8: inside a segment, by whether the step makes `n` events and whether its segment goes on. -/
theorem resetDropsEverything : Obligations.ResetDropsEverything := by
  refine ⟨fun s rest h => step_move h rfl, fun s t n rest evs hi hm ha hrun htrace => ?_⟩
  have hstep : step s = resetCut n rest s (.next t) := by simp [step, hi, hm, segmentStep, ha, hrun]
  have hmade : t.trace.length - s.trace.length = evs.length := by rw [htrace, List.length_append]; omega
  have hdrop : t.trace.drop s.trace.length = evs := by rw [htrace, List.drop_left]
  rw [hstep, resetCut, hmade, hdrop]
  refine ⟨fun hcut => if_neg ?_, fun hlt hmid => if_pos ?_⟩
  · rw [Bool.and_eq_true, decide_eq_true_iff, not_and]
    exact fun hlt hmid => hcut.elim (fun hle => Nat.not_lt.2 hle hlt) (fun hf => by rw [hf] at hmid; cases hmid)
  · rw [Bool.and_eq_true, decide_eq_true_iff]
    exact ⟨hlt, hmid⟩

/-- Only a request gives a context an operation. -/
theorem moveEffect_keeps_idle {m : Move} {s : State} (hw : slotsWf s.ctxs) (hm : ∀ bytes, m ≠ .request bytes)
    (hidle : ∀ c, (slotGet s.ctxs c).op = none) (c : Nat) : (slotGet (moveEffect m s).ctxs c).op = none := by
  cases m <;> simp only [moveEffect]
  case request bytes => exact absurd rfl (hm bytes)
  case run d => split <;> exact hidle c
  case tick us =>
    rw [Slots.get_tick]
    exact hidle c
  case elapse d =>
    unfold elapse
    split
    · rw [setCtx_ctxs, Slots.get_set hw]
      split
      · exact hidle d
      · exact hidle c
    · exact hidle c
  case platform p => exact hidle c
  case reset => rfl
  case resetWithin n => rfl

/-- Settles O9. -/
theorem noEventUntilARequest : Obligations.NoEventUntilARequest := by
  intro s hw hi hm hidle
  refine ⟨nextMove s, step_between hi hm, (nextMove_history s).1, fun hreq => ?_⟩
  rcases nextMove_cases s with e | ⟨m, hdef, e⟩ | ⟨m, rest, ha, e⟩ <;> rw [e]
  · exact hidle
  · exact moveEffect_keeps_idle hw (defaultMove_kinds hdef).2.2 hidle
  · exact moveEffect_keeps_idle (s := { s with agenda := rest }) hw (fun bytes hb => hreq bytes rest (hb ▸ ha)) hidle

/-! ## The scheduler -/

/-- Settles O24: for a waiter, to be runnable is to find the lock free. -/
theorem waiterRunsOnlyWhenLockIsFree : Obligations.WaiterRunsOnlyWhenLockIsFree := by
  intro s c rest h hc ho hw
  have hrunnable : runnable { s with agenda := rest } c = (s.lock == .free) := by simp [runnable, ho, hw, hc]
  rw [step_move h rfl, moveEffect, hrunnable]
  exact ⟨fun holder hl => by rw [hl]; rfl, fun hl => by rw [hl]; rfl⟩

/-! ## Time -/

/-- What a step leaves of a slot whose wait is pending: at the least the same registers, unless the wait is over. -/
def WaitHeld (s t : State) (c r : Nat) : Prop :=
  (∃ r' ≤ r, slotGet t.ctxs c = { slotGet s.ctxs c with wait := some r' }) ∨
    (r = 0 ∧ s.midSegment = false ∧ slotGet t.ctxs c = { slotGet s.ctxs c with wait := none })

theorem waitHeld_same {s t : State} {c r : Nat} (hr : (slotGet s.ctxs c).wait = some r)
    (h : slotGet t.ctxs c = slotGet s.ctxs c) : WaitHeld s t c r :=
  .inl ⟨r, Nat.le_refl r, by rw [h, ← hr]⟩

theorem moveEffect_waitHeld {s : State} {c r : Nat} (h : Inv s) (hw : WaitInv s) (hm : s.midSegment = false)
    (hr : (slotGet s.ctxs c).wait = some r) (m : Move) :
    WaitHeld s (moveEffect m s) c r ∨
      (slotGet (moveEffect m s).ctxs c = Ctx.idle ∧ (m = .reset ∨ ∃ n, m = .resetWithin n)) := by
  cases m <;> simp only [moveEffect]
  case request bytes =>
    left
    split
    · next x d hx hd =>
      have hne : c ≠ d := by
        rintro rfl
        rw [hw.idle c (freeSlot_some hd).2] at hr
        cases hr
      refine waitHeld_same hr ?_
      rw [setCtx_ctxs, Slots.get_set h.slots, if_neg hne]
    · exact waitHeld_same hr rfl
  case run d => left; split <;> exact waitHeld_same hr rfl
  case tick us =>
    refine .inl (.inl ⟨r - us, Nat.sub_le r us, ?_⟩)
    rw [Slots.get_tick, Slots.tickCtx, hr]
    rfl
  case elapse d =>
    left
    unfold elapse
    split
    · next hd =>
      by_cases e : c = d
      · subst e
        refine .inr ⟨by simpa [hr] using hd, hm, ?_⟩
        rw [setCtx_ctxs, Slots.get_set h.slots, if_pos rfl]
        rfl
      · refine waitHeld_same hr ?_
        rw [setCtx_ctxs, Slots.get_set h.slots, if_neg e]
    · exact waitHeld_same hr rfl
  case platform p => exact .inl (waitHeld_same hr rfl)
  case reset => exact .inr ⟨rfl, .inl trivial⟩
  case resetWithin n => exact .inr ⟨rfl, .inr ⟨n, rfl⟩⟩

/-- What the running context does leaves the slots that wait, and its events are not theirs. -/
theorem running_waitHeld {s t : State} {c r : Nat} (h : Inv s) (hw : WaitInv s) (hm : s.midSegment = true)
    (hr : (slotGet s.ctxs c).wait = some r) (hrun : runAction (nextAction s) = .next t) :
    WaitHeld s t c r ∧ ∃ evs : List (Nat × Event), t.trace = s.trace ++ evs ∧ ∀ e ∈ evs, e.1 ≠ c := by
  have hne : s.cur ≠ c := by
    rintro rfl
    rw [hw.running hm] at hr
    cases hr
  have hran := running_next hrun
  obtain ⟨evs, htrace, -⟩ := hran.trace
  exact ⟨waitHeld_same hr ((hran.slots h.slots).2 c hne.symm), _, htrace, by simpa using fun _ _ => hne⟩

/-- R178's two moves, and the one that cannot be made, on a pending wait. -/
theorem waitMoves {s : State} {c r us : Nat} {rest : List Move}
    (hr : (slotGet s.ctxs c).wait = some r) :
    (nextMoveIs (.elapse c) rest s → 0 < r → step s = .next { s with agenda := rest }) ∧
    (nextMoveIs (.elapse c) rest s → r = 0 →
      step s = .next { s with
        agenda := rest, ctxs := slotSet s.ctxs c { slotGet s.ctxs c with wait := none } }) ∧
    (nextMoveIs (.run c) rest s → step s = .next { s with agenda := rest }) ∧
    (nextMoveIs (.tick us) rest s →
      ∃ t, step s = .next t ∧ (slotGet t.ctxs c).wait = some (r - us) ∧ t.trace = s.trace ∧ t.agenda = rest) := by
  refine ⟨fun h hpos => ?_, fun h hzero => ?_, fun h => ?_, fun h => ⟨_, step_move h rfl, ?_, rfl, rfl⟩⟩
  · rw [step_move h rfl, moveEffect, elapse, if_neg]
    rw [ctx_eq, hr, Option.some.injEq]
    exact Nat.ne_of_gt hpos
  · rw [step_move h rfl, moveEffect, elapse, if_pos]
    · rfl
    · rw [ctx_eq, hr, hzero]
  · have hblocked : runnable { s with agenda := rest } c = false := by simp [runnable, hr]
    rw [step_move h rfl, moveEffect, hblocked]
    rfl
  · rw [moveEffect, Slots.get_tick, Slots.tickCtx, hr]
    rfl

/-- Settles O21. -/
theorem pendingWaitHoldsItsContext : Obligations.PendingWaitHoldsItsContext := by
  refine ⟨fun _ _ _ _ _ _ hr => waitMoves hr, fun s t c r h hw hr hstep => ?_⟩
  rcases step_cases h.notIssued hstep with ⟨hm, -, hrun⟩ | ⟨n, rest, u, hm, ha, hrun, ⟨-, rfl⟩ | rfl⟩ | ⟨hm, rfl⟩
  · obtain ⟨hheld, hevs⟩ := running_waitHeld h hw hm hr hrun
    exact ⟨hheld.imp_right .inl, hevs⟩
  · obtain ⟨hheld, hevs⟩ := running_waitHeld h hw hm hr hrun
    exact ⟨hheld.imp_right .inl, hevs⟩
  · obtain ⟨-, evs, htrace, hevs⟩ := running_waitHeld h hw hm hr hrun
    refine ⟨.inr (.inr ⟨rfl, .inr ⟨n, rest, ha⟩⟩), evs.take n, ?_, fun e he => hevs e (List.mem_of_mem_take he)⟩
    rw [htrace, List.drop_left]
    rfl
  · refine ⟨?_, [], by simp [(nextMove_history s).1], by simp⟩
    rcases nextMove_cases s with e | ⟨m, hdef, e⟩ | ⟨m, rest, ha, e⟩ <;> rw [e]
    · exact .inl ⟨r, Nat.le_refl r, by rw [← hr]⟩
    · obtain ⟨hreset, hwithin, -⟩ := defaultMove_kinds hdef
      rcases moveEffect_waitHeld h hw hm hr m with hheld | ⟨-, rfl | ⟨n, rfl⟩⟩
      · exact hheld.imp_right .inl
      · exact absurd rfl hreset
      · exact absurd rfl (hwithin n)
    · have hheld := moveEffect_waitHeld (s := { s with agenda := rest }) (Laws.Invariant.inv_agenda h rest)
        (WaitsAndCounters.waitInv_agenda hw rest) hm hr m
      rcases hheld with hheld | ⟨hidle, rfl | ⟨n, rfl⟩⟩
      · exact hheld.imp_right .inl
      · exact .inr (.inr ⟨hidle, .inl ⟨rest, ha⟩⟩)
      · exact .inr (.inr ⟨hidle, .inr ⟨n, rest, ha⟩⟩)

end Sys2Proof.Proofs.Moves
end

section
/-! One context that runs alone: what its schedule's moves and its own segments do to its slot, to the shared registers
and to the rest of the agenda. The whole-operation runs are chains of these. -/

namespace Sys2Proof.Proofs.RunAlone

open Sys2Proof Sys2Proof.Machine Sys2Proof.Safety Sys2Proof.Laws Sys2Proof.Laws.State Sys2Proof.Proofs.Segment
  Sys2Proof.Proofs.Sequencer Sys2Proof.Proofs.Moves

/-! ## Runs -/

/-- `n` steps lead from `s` to a state of which `P` holds. -/
def Leads (n : Nat) (s : State) (P : State → Prop) : Prop := ∃ t, Sys2Proof.core.run n s = .next t ∧ P t

theorem Leads.here {s : State} {P : State → Prop} (h : P s) : Leads 0 s P := ⟨s, rfl, h⟩

theorem Leads.cons {n : Nat} {s t : State} {P : State → Prop} (hstep : step s = .next t) (h : Leads n t P) :
    Leads (n + 1) s P := by
  obtain ⟨u, hrun, hu⟩ := h
  exact ⟨u, (run_succ hstep n).trans hrun, hu⟩

theorem Leads.then {m n : Nat} {s : State} {P Q : State → Prop} (h : Leads m s P) (hPQ : ∀ t, P t → Leads n t Q) :
    Leads (m + n) s Q := by
  obtain ⟨t, hrun, ht⟩ := h
  induction m generalizing s with
  | zero =>
    cases hrun
    rw [Nat.zero_add]
    exact hPQ _ ht
  | succ m ih =>
    cases hs : step s with
    | next u =>
      rw [run_succ hs] at hrun
      rw [Nat.add_right_comm]
      exact Leads.cons hs (ih hrun)
    | fault f => cases f
    | refused r =>
      have hstep : Sys2Proof.core.step s = .refused r := hs
      simp only [Host.Core.run, hstep] at hrun
      cases hrun

/-! ## One context alone -/

/-- The registers that are no slot's, no schedule's and not `Open`'s answer, as seen by context `c`. -/
def shared (c : Nat) (s : State) : State :=
  { s with ctxs := [], cur := c, midSegment := false, agenda := [], openAnswer := none }

/-- Context `c` holds the registers `x`, its segment is in progress or not, the agents' next moves are `a`, and the
shared registers are `r`. -/
structure Alone (c : Nat) (r : State) (x : Ctx) (a : List Move) (seg : Bool) (s : State) : Prop where
  wf : slotsWf s.ctxs
  issued : s.issued = none
  slot : slotGet s.ctxs c = x
  regs : shared c s = r
  agenda : s.agenda = a
  mid : s.midSegment = seg
  cur : seg = true → s.cur = c

/-- A waiter can run only where the lock is free. -/
def mayRun (c : Nat) (r : State) : Prop := c ∈ r.waiters → r.lock = .free

/-- No reset falls in the next segment. -/
def noCut (a : List Move) : Prop := ∀ n rest, a ≠ .resetWithin n :: rest

theorem noCut_waitOut (c us : Nat) (a : List Move) : noCut (waitOut c us ++ a) := by simp [noCut, waitOut]

section
variable {c us : Nat} {r s : State} {x y : Ctx} {a : List Move} {op : Op} {evs : List Event}

theorem Alone.inSegment (h : Alone c r x a true s) (hx : x.op = some op) (ha : noCut a) : inSegment op s := by
  refine ⟨h.issued, h.mid, fun n rest e => ha n rest (h.agenda.symm.trans e), ?_⟩
  rw [h.cur rfl, h.slot, hx]

theorem Alone.running_slot (h : Alone c r x a true s) : slotGet s.ctxs s.cur = x := by rw [h.cur rfl, h.slot]

/-- The scheduler picks the context. -/
theorem Alone.picked (h : Alone c r x (.run c :: a) false s) (hx : x.op = some op) (hw : x.wait = none)
    (hr : mayRun c r) : Leads 1 s (Alone c r x a true) := by
  have hrunnable : runnable { s with agenda := a } c = true := by
    have hmay : c ∈ s.waiters → s.lock = .free := by
      have := hr
      rwa [← h.regs] at this
    by_cases hc : c ∈ s.waiters <;> simp [runnable, h.slot, hx, hw, hc, hmay]
  have hstep : step s = .next { s with agenda := a, cur := c, midSegment := true } := by
    rw [step_move ⟨h.issued, h.mid, h.agenda⟩ rfl, moveEffect, hrunnable]
    rfl
  exact Leads.cons hstep (.here ⟨h.wf, h.issued, h.slot, h.regs, rfl, rfl, fun _ => rfl⟩)

theorem Alone.ticked (h : Alone c r { x with wait := some us } (.tick us :: a) false s) :
    Leads 1 s (Alone c r { x with wait := some 0 } a false) := by
  have hstep := step_move (s := s) ⟨h.issued, h.mid, h.agenda⟩ rfl
  refine Leads.cons hstep (.here ⟨Slots.wf_tick h.wf us, h.issued, ?_, h.regs, rfl, h.mid, nofun⟩)
  rw [moveEffect, Slots.get_tick, h.slot, Slots.tickCtx, Option.map_some, Nat.sub_self]

theorem Alone.elapsed (h : Alone c r { x with wait := some 0 } (.elapse c :: a) false s) :
    Leads 1 s (Alone c r { x with wait := none } a false) := by
  have hstep : step s = .next { s with
      agenda := a, ctxs := slotSet s.ctxs c { slotGet s.ctxs c with wait := none } } :=
    (waitMoves (us := 0) (by rw [h.slot])).2.1 ⟨h.issued, h.mid, h.agenda⟩ rfl
  refine Leads.cons hstep (.here ⟨Slots.wf_set h.wf _ _, h.issued, ?_, h.regs, rfl, h.mid, nofun⟩)
  rw [Slots.get_set h.wf, if_pos rfl, h.slot]

/-- Its wait passes and ends, and it runs on. -/
theorem Alone.waited (h : Alone c r { x with wait := some us } (waitOut c us ++ a) false s) (hx : x.op = some op)
    (hr : mayRun c r) : Leads 3 s (Alone c r { x with wait := none } a true) :=
  h.ticked.then fun _ h1 => h1.elapsed.then fun _ h2 => h2.picked hx rfl hr

/-- It goes on, in its segment or suspended. -/
theorem Alone.advances (h : Alone c r x a true s) {mid : Bool} (hstep : step s = .next (advanced evs y mid s)) :
    Leads 1 s (Alone c (afterEvents evs r) y a mid) := by
  have hcur := h.cur rfl
  refine Leads.cons hstep (.here ⟨Slots.wf_set h.wf _ _, h.issued, ?_, ?_, h.agenda, rfl, fun _ => hcur⟩)
  · rw [advanced, hcur, Slots.get_set h.wf, if_pos rfl]
  · rw [← h.regs, ← hcur]
    rfl

/-- It goes on with no event. -/
theorem Alone.moves (h : Alone c r x a true s) (hstep : step s = .next (withSlot y s)) :
    Leads 1 s (Alone c r y a true) := by
  have hcur := h.cur rfl
  refine Leads.cons hstep (.here ⟨Slots.wf_set h.wf _ _, h.issued, ?_, h.regs, h.agenda, h.mid, fun _ => hcur⟩)
  rw [withSlot_ctxs, hcur, Slots.get_set h.wf, if_pos rfl]

/-- It suspends, and its wait passes and ends. -/
theorem Alone.suspends (h : Alone c r x (waitOut c us ++ a) true s) (hy : y.op = some op) (hr : mayRun c r)
    (hstep : step s = .next (advanced evs { y with wait := some us } false s)) :
    Leads 4 s (Alone c (afterEvents evs r) { y with wait := none } a true) :=
  (h.advances hstep).then fun _ h1 => h1.waited hy hr

end

end Sys2Proof.Proofs.RunAlone
end

section
/-! A WRMSG and a DISPOSE that run alone (43_message.md R190 to R200, 44_dispose.md R220), part by part. -/

namespace Sys2Proof.Proofs.RunAlone

open Sys2Proof Sys2Proof.Machine Sys2Proof.Safety Sys2Proof.Laws Sys2Proof.Laws.State Sys2Proof.Laws.Events
  Sys2Proof.Laws.Transfer Sys2Proof.Laws.Steps Sys2Proof.Proofs.MalformedRoles Sys2Proof.Proofs.Segment
  Sys2Proof.Proofs.MessageInstructions Sys2Proof.Proofs.Sequencer

/-! ## Steps as advances -/

/-- A Present driver that owns the pins of its mode. -/
structure Present (d : Driver) (r : State) : Prop where
  driver : r.driver = some d
  owns : ownsAll r (openList d.mode)

theorem Present.afterEvents {d : Driver} {r : State} (h : Present d r) (evs : List Event) :
    Present d (afterEvents evs r) := ⟨h.driver, h.owns⟩

theorem mayRun_afterEvents {c : Nat} {r : State} (h : mayRun c r) (evs : List Event) : mayRun c (afterEvents evs r) := h

section
variable {c : Nat} {r s : State} {x y : Ctx} {a : List Move} {op : Op} {d : Driver} {mid : Bool}

theorem Alone.present (h : Alone c r x a mid s) (hr : Present d r) : Present d s := by
  rw [← h.regs] at hr
  exact ⟨hr.driver, hr.owns⟩

/-- A `WriteValue` of an operation whose sequencer has moved on to the registers `y`. -/
theorem write_advances (hs : Present d s) (hy : y.op = some op) (reg : Register) (v : Byte) (ret : Ret) :
    (writeValueOp reg v ret (withSlot y s)).outcome =
      .next (advanced (writeEvents d.mode reg v) { y with pc := .execwait ret, wait := some 40 } false s) := by
  have hwrite := (writeValue_present (s := withSlot y s) hs.driver reg v ret).1 hs.owns
  rw [hwrite, suspended_withSlot (ne_idle_of_op hy)]

/-- A wait of an operation whose sequencer has moved on to the registers `y`. -/
theorem wait_advances (hy : y.op = some op) (w : WaitTime) (s : State) :
    exec (.wait w) (withSlot y s) =
      .next (advanced [.wait (waitUs w)] { y with wait := some (waitUs w) } false s) := by
  have hidle := ne_idle_of_op hy
  show Host.Outcome.next (waitOp w (withSlot y s)) = _
  rw [waitOp_eq, get_withSlot hidle, suspended_withSlot hidle]

/-! ## CLEARDISPLAY, of a WRMSG and of a DISPOSE -/

theorem Alone.clears (h : Alone c r x (waitOut c 40 ++ a) true s) (hx : x.op = some .wrmsg)
    (hpc : x.pc = .pos .clear) (hr : Present d r) (hmay : mayRun c r) :
    Leads 4 s (Alone c (afterEvents (writeEvents d.mode .instruction 0x01) r)
      { x with pc := .execwait .clear, wait := none } a true) := by
  have hseg := h.inSegment hx (noCut_waitOut c 40 a)
  have hself : withSlot x s = s := by rw [← h.running_slot, withSlot_self h.wf hseg.2.2.2]
  refine h.suspends (y := { x with pc := .execwait .clear }) hx hmay ?_
  rw [step_at_pos hseg (by rw [h.running_slot, hpc])]
  have hwrite := write_advances (h.present hr) hx .instruction 0x01 .clear
  rw [hself] at hwrite
  exact hwrite

theorem Alone.disposeClears (h : Alone c r x (waitOut c 40 ++ a) true s) (hx : x.op = some .dispose)
    (hpc : x.pc = .pos .clear) (hr : Present d r) (hmay : mayRun c r) :
    Leads 4 s (Alone c (afterEvents (writeEvents d.mode .instruction 0x01) r)
      { disposeCtx with pc := .execwait .clear, wait := none } a true) := by
  refine h.suspends (op := .dispose) (y := { disposeCtx with pc := .execwait .clear }) rfl hmay ?_
  rw [step_at_pos (h.inSegment hx (noCut_waitOut c 40 a)) (by rw [h.running_slot, hpc])]
  exact write_advances (h.present hr) (y := disposeCtx) (op := .dispose) rfl .instruction 0x01 .clear

theorem Alone.clearReturns (h : Alone c r x (waitOut c 1640 ++ a) true s) (hx : x.op = some op)
    (hpc : x.pc = .execwait .clear) (hmay : mayRun c r) :
    Leads 4 s (Alone c (afterEvents [.wait 1640] r) { x with pc := .pos .clearwait, wait := none } a true) := by
  refine h.suspends (y := { x with pc := .pos .clearwait }) hx hmay ?_
  rw [step_at_execwait (h.inSegment hx (noCut_waitOut c 1640 a)) (by rw [h.running_slot, hpc])]
  have hwait := wait_advances (y := { x with pc := .pos .clearwait }) hx .clear s
  rw [← h.running_slot] at hwait ⊢
  exact hwait

/-! ## Ends -/

theorem Alone.acquires (h : Alone c r x a true s) (hx : x.op = some .wrmsg) (hpc : x.pc = .pos .acq)
    (hl : r.lock = .free) (ha : noCut a) :
    Leads 1 s (Alone c { afterEvents [.lock c] r with
        lock := .held c, waiters := r.waiters.filter (fun b => b != c) } { x with pc := .pos .clear } a true) := by
  have hcur := h.cur rfl
  have hseg := h.inSegment hx ha
  have hfree : s.lock = .free := by rw [← h.regs] at hl; exact hl
  refine Leads.cons (step_acquires hseg (by rw [h.running_slot, hpc]) hfree)
    (.here ⟨Slots.wf_set h.wf _ _, h.issued, ?_, ?_, h.agenda, h.mid, fun _ => hcur⟩)
  · have hslot := acquired_slot hseg.2.2.2
    rw [h.running_slot] at hslot
    rw [← hslot]
    exact congrArg (slotGet _) hcur.symm
  · rw [← h.regs, ← hcur]
    rfl

theorem Alone.unlocks (h : Alone c r x a true s) (hx : x.op = some op) (hpc : x.pc = .pos .unlock) (ha : noCut a) :
    Leads 1 s (Alone c (afterEvents [.unlock c] { r with lock := .free }) { x with pc := .pos .finish } a true) := by
  have hcur := h.cur rfl
  have hstep := step_at_pos (h.inSegment hx ha) (p := .unlock) (by rw [h.running_slot, hpc])
  refine Leads.cons hstep (.here ⟨Slots.wf_set h.wf _ _, h.issued, ?_, ?_, h.agenda, h.mid, fun _ => hcur⟩)
  · rw [releaseLock_ctxs, setPc_ctxs, h.running_slot, hcur, Slots.get_set h.wf, if_pos rfl]
  · rw [← h.regs, ← hcur]
    rfl

/-- It completes, and may have changed the driver and its pins. -/
theorem Alone.completes (h : Alone c r x a true s) {evs : List Event} {driver : Option Driver} {own : PerPin Bool}
    (hstep : step s = .next { afterCompletion evs s with driver := driver, own := own }) :
    Leads 1 s (Alone c { afterEvents evs r with driver := driver, own := own } Ctx.idle a false) := by
  have hcur := h.cur rfl
  refine Leads.cons hstep (.here ⟨Slots.wf_set h.wf _ _, h.issued, ?_, ?_, h.agenda, rfl, nofun⟩)
  · show slotGet (slotSet s.ctxs s.cur Ctx.idle) c = Ctx.idle
    rw [hcur, Slots.get_set h.wf, if_pos rfl]
  · rw [← h.regs, ← hcur]
    rfl

theorem Alone.finishes (h : Alone c r x a true s) (hx : x.op = some op) (hpc : x.pc = .pos .finish) (ha : noCut a) :
    Leads 1 s (Alone c (afterEvents [.done op] r) Ctx.idle a false) := by
  have hstep := step_at_pos (h.inSegment hx ha) (p := .finish) (by rw [h.running_slot, hpc])
  have hend := h.completes (evs := [.done op]) (driver := s.driver) (own := s.own) hstep
  have hregs : ({ afterEvents [.done op] r with driver := s.driver, own := s.own } : State) =
      afterEvents [.done op] r := by
    rw [← h.regs]
    rfl
  rwa [hregs] at hend

end

/-! ## The iteration -/

/-- The registers of a WRMSG in its iteration. -/
def loopCtx (msg : List Byte) (idx lines lineChars : Nat) (pc : Pc) : Ctx :=
  { wrmsgCtx msg with pc := pc, idx := idx, lines := lines, lineChars := lineChars }

section
variable {c : Nat} {r s : State} {a : List Move} {d : Driver} {msg : List Byte} {idx l k : Nat}

/-- Fetching an element. -/
theorem Alone.fetches {ch : Byte} (h : Alone c r (loopCtx msg idx l k (.pos .fetch)) a true s)
    (hch : msg[idx]? = some ch) (ha : noCut a) :
    step s = exec (if ch = 0x0A then .nl else .char ch) (withSlot (loopCtx msg (idx + 1) l k (.pos .fetch)) s) := by
  have hseg := h.inSegment (op := .wrmsg) rfl ha
  have hfetch := (MessageFetch.fetchReadsElementsInOrder .wrmsg s hseg (by rw [h.running_slot]; rfl)).1 ch
  rw [h.running_slot] at hfetch
  exact hfetch hch

/-- A newline: five steps. -/
theorem Alone.newline (h : Alone c r (loopCtx msg idx l k (.pos .fetch)) (waitOut c 40 ++ a) true s)
    (hch : msg[idx]? = some 0x0A) (hr : Present d r) (hmay : mayRun c r) (ha : noCut a) :
    Leads 5 s (Alone c (afterEvents (writeEvents d.mode .instruction 0xC0) r)
      (loopCtx msg (idx + 1) (l + 1) 0 (.pos .fetch)) a true) := by
  have hwrite := h.suspends (op := .wrmsg) (y := loopCtx msg (idx + 1) l k (.execwait .nl)) rfl hmay
    ((h.fetches hch (noCut_waitOut c 40 a)).trans
      (write_advances (h.present hr) (y := loopCtx msg (idx + 1) l k (.pos .fetch)) (op := .wrmsg) rfl
        .instruction 0xC0 .nl))
  refine hwrite.then fun t ht => ht.moves ?_
  rw [step_at_execwait (ht.inSegment (op := .wrmsg) rfl ha) (r := .nl) (by rw [ht.running_slot]; rfl)]
  simp only [returnAction, me_eq, ht.running_slot]
  rfl

/-- The events of a character up to its second wait, which is a wait of its own. -/
def charEvents (d : Driver) (lines lineChars : Nat) (ch : Byte) : List Event :=
  (if lineChars = d.width then [.evt .overrun] else []) ++ (if d.height < lines then [.evt .overflow] else [])
    ++ writeEvents d.mode .data ch

theorem elementEvents_char {ch : Byte} (hne : ch ≠ 0x0A) (lines lineChars : Nat) :
    elementEvents d lines lineChars ch = charEvents d lines lineChars ch ++ [.wait 1000] := if_neg hne

theorem elementEvents_newline (lines lineChars : Nat) :
    elementEvents d lines lineChars 0x0A = writeEvents d.mode .instruction 0xC0 := rfl

theorem char_advances (hs : Present d s) (ch : Byte) :
    exec (.char ch) (withSlot (loopCtx msg idx l k (.pos .fetch)) s) =
      .next (advanced (charEvents d l k ch) { loopCtx msg idx l k (.execwait .char) with wait := some 40 } false s) := by
  have hidle : loopCtx msg idx l k (.pos .fetch) ≠ Ctx.idle := ne_idle_of_op (op := .wrmsg) rfl
  have hchar := (charWarnsWritesAndCounts.1 ch d (withSlot (loopCtx msg idx l k (.pos .fetch)) s) _ hs.driver rfl).1
    hs.owns
  rw [get_withSlot hidle, suspended_withSlot hidle] at hchar
  exact hchar

/-- A character: nine steps. -/
theorem Alone.character {ch : Byte}
    (h : Alone c r (loopCtx msg idx l k (.pos .fetch)) (waitOut c 40 ++ (waitOut c 1000 ++ a)) true s)
    (hch : msg[idx]? = some ch) (hne : ch ≠ 0x0A) (hr : Present d r) (hmay : mayRun c r) (ha : noCut a) :
    Leads 9 s (Alone c (afterEvents (elementEvents d l k ch) r)
      (loopCtx msg (idx + 1) l (k + 1) (.pos .fetch)) a true) := by
  have hfetch := h.fetches hch (noCut_waitOut c 40 _)
  rw [if_neg hne] at hfetch
  rw [elementEvents_char hne, afterEvents_append]
  have hwrite := h.suspends (op := .wrmsg) (y := loopCtx msg (idx + 1) l k (.execwait .char)) rfl hmay
    (hfetch.trans (char_advances (h.present hr) ch))
  have hwait : ∀ t, Alone c (afterEvents (charEvents d l k ch) r) (loopCtx msg (idx + 1) l k (.execwait .char))
      (waitOut c 1000 ++ a) true t → Leads 4 t (Alone c (afterEvents [.wait 1000] (afterEvents (charEvents d l k ch) r))
        (loopCtx msg (idx + 1) l (k + 1) (.pos .charwait)) a true) := by
    intro t ht
    refine ht.suspends (op := .wrmsg) (y := loopCtx msg (idx + 1) l (k + 1) (.pos .charwait)) rfl hmay ?_
    rw [step_at_execwait (ht.inSegment (op := .wrmsg) rfl (noCut_waitOut c 1000 a)) (r := .char)
      (by rw [ht.running_slot]; rfl)]
    simp only [returnAction, me_eq, ht.running_slot]
    exact wait_advances (y := loopCtx msg (idx + 1) l (k + 1) (.pos .charwait)) (op := .wrmsg) rfl .char t
  have hmove : ∀ t r', Alone c r' (loopCtx msg (idx + 1) l (k + 1) (.pos .charwait)) a true t →
      Leads 1 t (Alone c r' (loopCtx msg (idx + 1) l (k + 1) (.pos .fetch)) a true) := by
    intro t r' ht
    refine ht.moves ?_
    rw [step_at_pos (ht.inSegment (op := .wrmsg) rfl ha) (p := .charwait) (by rw [ht.running_slot]; rfl)]
    simp only [positionAction, setPc_eq, ht.running_slot]
    rfl
  exact (hwrite.then hwait).then fun t ht => hmove t _ ht

/-- One element. -/
theorem Alone.element {ch : Byte}
    (h : Alone c r (loopCtx msg idx l k (.pos .fetch)) (elementMoves c ch ++ a) true s)
    (hch : msg[idx]? = some ch) (hr : Present d r) (hmay : mayRun c r) (ha : noCut a) :
    Leads (elementSteps ch) s (Alone c (afterEvents (elementEvents d l k ch) r)
      (loopCtx msg (idx + 1) (linesAfter l ch) (lineCharsAfter k ch) (.pos .fetch)) a true) := by
  by_cases hnl : ch = 0x0A
  · subst hnl
    exact h.newline hch hr hmay ha
  · rw [elementMoves, if_neg hnl, List.append_assoc] at h
    rw [elementSteps, linesAfter, lineCharsAfter, if_neg hnl, if_neg hnl, if_neg hnl]
    exact h.character hch hnl hr hmay ha

theorem noCut_elements (c : Nat) (todo : List Byte) (ha : noCut a) : noCut (todo.flatMap (elementMoves c) ++ a) := by
  cases todo with
  | nil => exact ha
  | cons ch todo =>
    rw [List.flatMap_cons, List.append_assoc, elementMoves]
    split
    · exact noCut_waitOut c 40 _
    · rw [List.append_assoc]
      exact noCut_waitOut c 40 _

end

/-- The elements from `idx` on. -/
theorem Alone.elements {c : Nat} {a : List Move} {d : Driver} {msg : List Byte} (ha : noCut a) (todo : List Byte) :
    ∀ {r s : State} {idx l k : Nat}, msg.drop idx = todo →
      Alone c r (loopCtx msg idx l k (.pos .fetch)) (todo.flatMap (elementMoves c) ++ a) true s →
      Present d r → mayRun c r →
      Leads (todo.map elementSteps).sum s (fun t => ∃ l' k', Alone c (afterEvents (elementsEvents d l k todo) r)
        (loopCtx msg (idx + todo.length) l' k' (.pos .fetch)) a true t) := by
  induction todo with
  | nil =>
    intro r s idx l k _ h _ _
    refine .here ⟨l, k, ?_⟩
    rw [elementsEvents, afterEvents_nil]
    exact h
  | cons ch todo ih =>
    intro r s idx l k hdrop h hr hmay
    have hch : msg[idx]? = some ch := by
      have := congrArg (fun m => m[0]?) hdrop
      simpa using this
    have hrest : msg.drop (idx + 1) = todo := by rw [← List.tail_drop, hdrop]; rfl
    rw [List.flatMap_cons, List.append_assoc] at h
    have hfirst := h.element hch hr hmay (noCut_elements c todo ha)
    refine hfirst.then fun t ht => ?_
    have hlen : idx + (ch :: todo).length = idx + 1 + todo.length := by rw [List.length_cons]; omega
    rw [elementsEvents, afterEvents_append, hlen]
    exact ih hrest ht (hr.afterEvents _) hmay

end Sys2Proof.Proofs.RunAlone
end

section
/-! The whole operations (43_message.md R190 to R206, 44_dispose.md R220, 41_initialize.md R149), each run alone. -/

namespace Sys2Proof.Proofs.WholeOperations

open Sys2Proof Sys2Proof.Machine Sys2Proof.Safety Sys2Proof.Laws Sys2Proof.Laws.State Sys2Proof.Laws.Events
  Sys2Proof.Laws.Transfer Sys2Proof.Laws.Steps Sys2Proof.Proofs.MalformedRoles Sys2Proof.Proofs.Initialize
  Sys2Proof.Proofs.Segment Sys2Proof.Proofs.MessageInstructions Sys2Proof.Proofs.Sequencer Sys2Proof.Proofs.RunAlone

/-- A context of the invariant, between two segments. -/
theorem alone_of_inv {s : State} (h : Inv s) (hm : s.midSegment = false) (c : Nat) :
    Alone c (shared c s) (slotGet s.ctxs c) s.agenda false s :=
  ⟨h.slots, h.notIssued, rfl, rfl, rfl, hm, nofun⟩

theorem ownedIn_openList {m : Mode} {p : Pin} (hp : p ∈ openList m) : ownedIn m p = true := by
  revert hp
  cases m <;> cases p <;> decide

/-- The pins of a Present driver's mode are owned. -/
theorem present_of_inv {s : State} {d : Driver} (h : Inv s) (hd : s.driver = some d) : Present d s := by
  refine ⟨hd, fun p hp => ?_⟩
  have hpins := h.pins p
  rw [hd] at hpins
  exact hpins.trans (ownedIn_openList hp)

/-- Only a WRMSG waits for the lock. -/
theorem mayRun_of_op {s : State} {c : Nat} {op : Op} (h : Inv s) (ho : (slotGet s.ctxs c).op = some op)
    (hop : op ≠ .wrmsg) : mayRun c (shared c s) := by
  intro hc
  have := (h.waiters c hc).1
  rw [ho] at this
  exact absurd (Option.some.inj this) hop

/-! ## WRMSG -/

/-- The shared registers after a WRMSG took the lock. -/
def locked (c : Nat) (r : State) : State :=
  { afterEvents [.lock c] r with lock := .held c, waiters := r.waiters.filter (fun b => b != c) }

theorem mayRun_locked (c : Nat) (r : State) : mayRun c (locked c r) := by
  intro hc
  simp [locked] at hc

section
variable {c : Nat} {r s : State} {msg : List Byte} {d : Driver} {rest : List Move}

/-- `Acquire`, the clear and its waits, and the beginning of the iteration: eleven steps. -/
theorem message_begins (h : Alone c r (wrmsgCtx msg) (messageMoves c msg ++ rest) false s) (hr : Present d r)
    (hl : r.lock = .free) (hrest : noCut rest) :
    Leads 11 s (Alone c (afterEvents (clearEvents d.mode) (locked c r)) (loopCtx msg 0 1 0 (.pos .fetch))
      (msg.flatMap (elementMoves c) ++ rest) true) := by
  have hmay := mayRun_locked c r
  have hpresent : Present d (locked c r) := ⟨hr.driver, hr.owns⟩
  have hloop := noCut_elements c msg hrest
  have hagenda : messageMoves c msg ++ rest =
      .run c :: (waitOut c 40 ++ (waitOut c 1640 ++ (msg.flatMap (elementMoves c) ++ rest))) := by
    simp [messageMoves]
  rw [hagenda] at h
  rw [clearEvents, afterEvents_append]
  refine Leads.then (n := 10) (h.picked (op := .wrmsg) rfl rfl fun _ => hl) fun _ h1 => ?_
  refine Leads.then (n := 9) (h1.acquires rfl rfl hl (noCut_waitOut c 40 _)) fun _ h2 => ?_
  refine Leads.then (n := 5) (h2.clears rfl rfl hpresent hmay) fun _ h3 => ?_
  refine Leads.then (n := 1) (h3.clearReturns (op := .wrmsg) rfl rfl hmay) fun _ h4 => ?_
  refine h4.moves ?_
  rw [step_at_pos (h4.inSegment (op := .wrmsg) rfl hloop) (p := .clearwait) (by rw [h4.running_slot])]
  simp only [positionAction, afterClear, me_eq, h4.running_slot]
  rfl

/-- The end of the message, `Unlock` and the completion: three steps. -/
theorem message_ends {l k : Nat} (h : Alone c r (loopCtx msg msg.length l k (.pos .fetch)) rest true s)
    (hrest : noCut rest) :
    Leads 3 s (Alone c (afterEvents [.done .wrmsg] (afterEvents [.unlock c] { r with lock := .free }))
      Ctx.idle rest false) := by
  have hseg := h.inSegment (op := .wrmsg) rfl hrest
  have hend : step s = .next (withSlot (loopCtx msg msg.length l k (.pos .unlock)) s) := by
    have hfetch := (MessageFetch.fetchReadsElementsInOrder .wrmsg s hseg (by rw [h.running_slot]; rfl)).2
    rw [h.running_slot] at hfetch
    exact hfetch (Nat.le_refl _)
  exact (h.moves hend).then fun _ h1 => (h1.unlocks (op := .wrmsg) rfl rfl hrest).then
    fun _ h2 => h2.finishes (op := .wrmsg) rfl rfl hrest

/-- A WRMSG that runs alone, from the registers shared before it to those after it. -/
theorem message_runs (h : Alone c r (wrmsgCtx msg) (messageMoves c msg ++ rest) false s) (hr : Present d r)
    (hl : r.lock = .free) (hrest : noCut rest) :
    Leads (messageSteps msg) s (Alone c (afterEvents [.done .wrmsg] (afterEvents [.unlock c]
      { afterEvents (elementsEvents d 1 0 msg) (afterEvents (clearEvents d.mode) (locked c r)) with lock := .free }))
      Ctx.idle rest false) := by
  have hpresent : Present d (afterEvents (clearEvents d.mode) (locked c r)) := ⟨hr.driver, hr.owns⟩
  have helements := (message_begins h hr hl hrest).then fun _ ht =>
    ht.elements hrest msg List.drop_zero hpresent (mayRun_locked c r)
  refine helements.then fun t ⟨l, k, ht⟩ => ?_
  rw [Nat.zero_add] at ht
  exact message_ends ht hrest

end

/-- Settles O58: what the shared registers are after the run, field by field. -/
theorem wrmsgRunsItsWholeMessage : Obligations.WrmsgRunsItsWholeMessage := by
  intro s c msg d rest h hm ha hrest hd hl hslot
  have halone := alone_of_inv h hm c
  rw [hslot, ha] at halone
  have hpresent : Present d (shared c s) := ⟨hd, (present_of_inv h hd).owns⟩
  obtain ⟨t, hrun, ht⟩ := message_runs halone hpresent hl hrest
  have hregs := ht.regs
  refine ⟨t, hrun, ?_, ?_, ?_, ht.slot, ht.mid, ht.agenda, ?_, ?_, ?_⟩
  · refine (congrArg State.trace hregs).trans ?_
    simp [messageEvents, locked, shared]
  · refine (congrArg State.lvl hregs).trans ?_
    simp [messageEvents, locked, shared, latchAfter, latchEvent, List.foldl_append]
  · exact congrArg State.lock hregs
  · exact (congrArg State.driver hregs).trans hd
  · exact (congrArg State.own hregs).trans rfl
  · exact (congrArg State.faulted hregs).trans rfl

end Sys2Proof.Proofs.WholeOperations
end

section
/-! The sizes of a message's trace (43_message.md R206), part by part, and its overruns line by line (R198). -/

namespace Sys2Proof.Proofs.TraceSizes

open Sys2Proof Sys2Proof.Machine Sys2Proof.Safety Sys2Proof.Laws.Message Sys2Proof.Proofs.WholeOperations
  Sys2Proof.Proofs.RunAlone

/-! ## Counting events -/

/-- An event that writes a pin. -/
def isPin : Event → Bool
  | .pin _ _ => true
  | _ => false

/-- The pin events of a `WriteValue`: two strobes of eight, or one of twelve. -/
theorem writeEvents_pins (m : Mode) (reg : Register) (v : Byte) :
    (writeEvents m reg v).countP isPin = if m = .fourBit then 16 else 12 := by cases m <;> rfl

theorem count_wait (a us : Nat) : [Event.wait a].count (.wait us) = if us = a then 1 else 0 := by
  by_cases h : us = a
  · simp [h]
  · simp [h, Ne.symm h]

theorem writeEvents_waits (m : Mode) (reg : Register) (v : Byte) (us : Nat) :
    (writeEvents m reg v).count (.wait us) = if us = 40 then 1 else 0 := by
  have hpins : (writeStrobes m reg v).count (.wait us) = 0 := by
    cases m <;> simp [writeStrobes, strobeEvents, bitLevels]
  rw [writeEvents, List.count_append, hpins, Nat.zero_add, count_wait]

/-- The warnings of a character are neither pin events nor waits. -/
theorem charEvents_countP {p : Event → Bool} (hp : ∀ code, p (.evt code) = false) (d : Driver) (lines lineChars : Nat)
    (ch : Byte) : (charEvents d lines lineChars ch).countP p = (writeEvents d.mode .data ch).countP p := by
  rw [charEvents, List.countP_append, List.countP_append]
  split <;> split <;> simp [hp]

/-- A kind of event of which each newline makes `A` and each character `B`. -/
theorem elementsEvents_countP {p : Event → Bool} {d : Driver} {A B : Nat}
    (hA : ∀ l k, (elementEvents d l k 0x0A).countP p = A)
    (hB : ∀ l k ch, ch ≠ 0x0A → (elementEvents d l k ch).countP p = B) (msg : List Byte) (l k : Nat) :
    (elementsEvents d l k msg).countP p = A * msg.count 0x0A + B * (msg.length - msg.count 0x0A) := by
  induction msg generalizing l k with
  | nil => rfl
  | cons ch msg ih =>
    have hle : msg.count 0x0A ≤ msg.length := List.count_le_length
    rw [elementsEvents, List.countP_append, ih]
    by_cases hnl : ch = 0x0A
    · subst hnl
      rw [hA, List.count_cons_self, List.length_cons, Nat.add_sub_add_right, Nat.mul_succ]
      omega
    · rw [hB l k ch hnl, List.count_cons_of_ne hnl, List.length_cons, Nat.sub_add_comm hle, Nat.mul_succ]
      omega

/-- The pin events and waits of a message's elements. -/
theorem elementsEvents_pins (d : Driver) (msg : List Byte) (l k : Nat) :
    (elementsEvents d l k msg).countP isPin =
      (if d.mode = .fourBit then 16 else 12) * msg.count 0x0A
        + (if d.mode = .fourBit then 16 else 12) * (msg.length - msg.count 0x0A) := by
  refine elementsEvents_countP (fun l k => ?_) (fun l k ch hne => ?_) msg l k
  · rw [elementEvents_newline, writeEvents_pins]
  · rw [elementEvents_char hne, List.countP_append, charEvents_countP (fun _ => rfl), writeEvents_pins]
    rfl

theorem elementsEvents_waits (d : Driver) (msg : List Byte) (l k us : Nat) :
    (elementsEvents d l k msg).count (.wait us) =
      (if us = 40 then 1 else 0) * msg.count 0x0A
        + ((if us = 40 then 1 else 0) + if us = 1000 then 1 else 0) * (msg.length - msg.count 0x0A) := by
  refine elementsEvents_countP (fun l k => ?_) (fun l k ch hne => ?_) msg l k
  · rw [elementEvents_newline]
    exact writeEvents_waits _ _ _ us
  · rw [elementEvents_char hne, List.countP_append, charEvents_countP (by simp)]
    exact congrArg₂ (· + ·) (writeEvents_waits _ _ _ us) (count_wait 1000 us)

/-! ## Overruns -/

theorem elementEvents_overruns (d : Driver) (l k : Nat) {ch : Byte} (hne : ch ≠ 0x0A) :
    (elementEvents d l k ch).count (.evt .overrun) = if k = d.width then 1 else 0 := by
  have hline := elementsEvents_overruns d l k [ch] (by simpa using Ne.symm hne)
  have hiff : (k ≤ d.width ∧ d.width < k + [ch].length) ↔ k = d.width := by
    rw [List.length_singleton]
    omega
  simp only [elementsEvents, List.append_nil, hiff] at hline
  exact hline

/-- No more overruns than lines: on the first line only where `lineChars` has not passed `width`. -/
theorem elementsEvents_overruns_le (d : Driver) (msg : List Byte) (l k : Nat) :
    (elementsEvents d l k msg).count (.evt .overrun) ≤ (if k ≤ d.width then 1 else 0) + msg.count 0x0A := by
  induction msg generalizing l k with
  | nil => simp [elementsEvents]
  | cons ch msg ih =>
    rw [elementsEvents, List.count_append]
    by_cases hnl : ch = 0x0A
    · subst hnl
      have hrest := ih (linesAfter l 0x0A) 0
      rw [if_pos (Nat.zero_le _)] at hrest
      rw [elementEvents_newline, writeEvents_overruns, List.count_cons_self]
      exact Nat.le_trans (Nat.add_le_add_left hrest 0) (by omega)
    · have hrest := ih (linesAfter l ch) (lineCharsAfter k ch)
      rw [lineCharsAfter, if_neg hnl] at hrest
      rw [elementEvents_overruns d l k hnl, List.count_cons_of_ne hnl, lineCharsAfter, if_neg hnl]
      refine Nat.le_trans (Nat.add_le_add_left hrest _) ?_
      split <;> split <;> split <;> omega

/-! ## The whole trace -/

section
variable (d : Driver) (c : Nat) (msg : List Byte)

theorem messageEvents_pins :
    (messageEvents d c msg).countP isPin =
      (if d.mode = .fourBit then 16 else 12) * (1 + (msg.length - msg.count 0x0A) + msg.count 0x0A) := by
  simp only [messageEvents, clearEvents, List.countP_append, elementsEvents_pins, writeEvents_pins]
  simp only [List.countP_cons, List.countP_nil, isPin, Nat.mul_add]
  simp
  omega

theorem messageEvents_waits (us : Nat) :
    (messageEvents d c msg).count (.wait us) =
      (if us = 40 then 1 else 0) * (1 + (msg.length - msg.count 0x0A) + msg.count 0x0A)
        + (if us = 1640 then 1 else 0) + (if us = 1000 then 1 else 0) * (msg.length - msg.count 0x0A) := by
  simp only [messageEvents, clearEvents, List.count_append, elementsEvents_waits, writeEvents_waits]
  simp only [List.count_cons, List.count_nil, beq_iff_eq, Event.wait.injEq, Nat.mul_add, Nat.add_mul, eq_comm (b := us)]
  simp
  omega

theorem messageEvents_overruns :
    (messageEvents d c msg).count (.evt .overrun) ≤ 1 + msg.count 0x0A := by
  have hle := elementsEvents_overruns_le d msg 1 0
  rw [if_pos (Nat.zero_le _)] at hle
  simp only [messageEvents, clearEvents, List.count_append, writeEvents_overruns]
  simpa [List.count_cons] using hle

/-- The events of a line stand after those of the elements before it. -/
theorem messageEvents_line {before line after : List Byte} (hmsg : msg = before ++ line ++ after)
    (hbefore : before = [] ∨ before.getLast? = some 0x0A) :
    ∃ post, messageEvents d c msg = [Event.lock c] ++ clearEvents d.mode ++ elementsEvents d 1 0 before
      ++ elementsEvents d (linesOf before) 0 line ++ post := by
  have hlines : before.foldl linesAfter 1 = linesOf before := linesAfter_foldl 1 before
  have hchars : before.foldl lineCharsAfter 0 = 0 := lineCharsAfter_foldl_newline 0 before hbefore fun _ => rfl
  refine ⟨elementsEvents d ((before ++ line).foldl linesAfter 1) ((before ++ line).foldl lineCharsAfter 0) after
    ++ [.unlock c, .done .wrmsg], ?_⟩
  rw [messageEvents, hmsg, elementsEvents_append, elementsEvents_append, hlines, hchars]
  simp only [List.append_assoc]

end

/-- Settles O59: the counts of the trace that O58 gives. -/
theorem wrmsgTraceHasTheRuleSize : Obligations.WrmsgTraceHasTheRuleSize := by
  intro s c msg d rest nc nn h hm ha hrest hd hl hslot hnn hnc
  obtain ⟨t, hrun, htrace, -⟩ := wrmsgRunsItsWholeMessage s c msg d rest h hm ha hrest hd hl hslot
  have hpins := messageEvents_pins d c msg
  have hwaits := messageEvents_waits d c msg
  rw [← hnn, ← hnc] at hpins hwaits
  refine ⟨t, hrun, messageEvents d c msg, htrace, ?_, ?_, ?_, ?_, hnn ▸ messageEvents_overruns d c msg,
    fun before line after hmsg hline hbefore => ?_⟩
  · rw [List.countP_eq_length_filter] at hpins
    exact hpins
  · simpa using hwaits 40
  · simpa using hwaits 1640
  · simpa using hwaits 1000
  · obtain ⟨post, hpost⟩ := messageEvents_line d c msg hmsg hbefore
    refine ⟨post, hpost, ?_⟩
    simpa using elementsEvents_overruns d (linesOf before) 0 line hline

end Sys2Proof.Proofs.TraceSizes
end

section
/-! A DISPOSE and an INIT in FourBit mode that run alone (44_dispose.md R220, 41_initialize.md R149). -/

namespace Sys2Proof.Proofs.RunAlone

open Sys2Proof Sys2Proof.Machine Sys2Proof.Safety Sys2Proof.Laws Sys2Proof.Laws.State Sys2Proof.Laws.Events
  Sys2Proof.Laws.Transfer Sys2Proof.Laws.Steps Sys2Proof.Proofs.MalformedRoles Sys2Proof.Proofs.Initialize
  Sys2Proof.Proofs.Segment Sys2Proof.Proofs.Sequencer Sys2Proof.Proofs.WholeOperations

/-! ## DISPOSE -/

section
variable {c : Nat} {r s : State} {d : Driver} {rest : List Move}

/-- The clear and its waits: ten steps. -/
theorem dispose_clears (h : Alone c r disposeCtx (disposeMoves c ++ rest) false s) (hr : Present d r)
    (hmay : mayRun c r) (hrest : noCut rest) :
    Leads 10 s (Alone c (afterEvents (clearEvents d.mode) r) { disposeCtx with pc := .pos .release } rest true) := by
  have hagenda : disposeMoves c ++ rest = .run c :: (waitOut c 40 ++ (waitOut c 1640 ++ rest)) := by
    simp [disposeMoves]
  rw [hagenda] at h
  rw [clearEvents, afterEvents_append]
  refine Leads.then (n := 9) (h.picked (op := .dispose) rfl rfl hmay) fun _ h1 => ?_
  refine Leads.then (n := 5) (h1.disposeClears rfl rfl hr hmay) fun _ h2 => ?_
  refine Leads.then (n := 1) (h2.clearReturns (op := .dispose) rfl rfl hmay) fun _ h3 => ?_
  refine h3.moves ?_
  rw [step_at_pos (h3.inSegment (op := .dispose) rfl hrest) (p := .clearwait) (by rw [h3.running_slot])]
  simp only [positionAction, afterClear, setPc_eq, h3.running_slot]
  rfl

end

/-- Settles O60: the release segment of O43 after the clear. -/
theorem disposeRunsClearThenRelease : Obligations.DisposeRunsClearThenRelease := by
  intro s c d rest h hm ha hrest hd hslot
  have halone := alone_of_inv h hm c
  have hmay : mayRun c (shared c s) := mayRun_of_op h (by rw [hslot]) (by simp)
  rw [hslot, ha] at halone
  have hpresent : Present d (shared c s) := ⟨hd, (present_of_inv h hd).owns⟩
  have hpins : ∀ p, (shared c s).own.get p = ownedIn d.mode p := by
    have := h.pins
    rw [hd] at this
    exact this
  have hrelease : ∀ u, Alone c (afterEvents (clearEvents d.mode) (shared c s))
      { disposeCtx with pc := .pos .release } rest true u → Leads 1 u (fun t => ∃ own : PerPin Bool,
        (∀ p, own.get p = false) ∧ Alone c { afterEvents (disownEvents (openList d.mode) ++ [.done .dispose])
          (afterEvents (clearEvents d.mode) (shared c s)) with driver := none, own := own } Ctx.idle rest false t) := by
    intro u hu
    have hregs := hu.regs
    have hud : u.driver = some d := (congrArg State.driver hregs).trans hd
    have huo : u.own = (shared c s).own := (congrArg State.own hregs).trans rfl
    obtain ⟨t, hstep, hown, hframe⟩ := (disposeReleasesEveryPinOnce u
      (hu.inSegment (op := .dispose) rfl hrest) (by rw [hu.running_slot])).1 d hud (fun p => by rw [huo, hpins])
    rw [hframe] at hstep
    obtain ⟨v, hrun, hv⟩ := hu.completes hstep
    exact ⟨v, hrun, t.own, hown, hv⟩
  obtain ⟨t, hrun, own, hown, ht⟩ := (dispose_clears halone hpresent hmay hrest).then hrelease
  have hregs := ht.regs
  refine ⟨t, hrun, ?_, ?_, ?_, ht.slot, ht.mid, ht.agenda, ?_, ?_⟩
  · refine (congrArg State.trace hregs).trans ?_
    simp [shared]
  · exact congrArg State.driver hregs
  · exact fun p => (congrArg (fun r : State => r.own.get p) hregs).trans (hown p)
  · exact (congrArg State.lock hregs).trans rfl
  · exact (congrArg State.faulted hregs).trans rfl

/-! ## INIT -/

section
variable {c : Nat} {r s : State} {x y : Ctx} {a rest : List Move} {cfg : Cfg}

/-- A driver in FourBit mode that owns its pins. -/
def FourBit (r : State) : Prop := ∃ d : Driver, d.mode = .fourBit ∧ Present d r

/-- The events of a step of INITSEQ in FourBit mode. -/
def initStepEvents (k : InitStep) : List Event :=
  strobeEvents .instruction [.d4, .d5, .d6, .d7] (bitLevels (.four (initNibble k))) ++ [.wait (waitUs (initWait k))]

/-- A step of INITSEQ whose sequencer has moved on to the registers `y`. -/
theorem initStep_advances (hs : FourBit s) (hy : y.op = some .init) (k : InitStep) :
    exec (initInstr k) (withSlot y s) = .next (advanced (initStepEvents k)
      { y with pc := .pos (.seqwait k), wait := some (waitUs (initWait k)) } false s) := by
  obtain ⟨d, hmode, hd⟩ := hs
  have hm : (withSlot y s).mode = some .fourBit := hmode ▸ mode_of_driver hd.driver
  have hown : ownsAll (withSlot y s) (.e :: .rs :: [.d4, .d5, .d6, .d7]) := by
    intro p hp
    refine hd.owns p ?_
    rw [hmode]
    revert hp
    cases p <;> decide
  rw [exec_initInstr, initStepOp_owned (pins_fourBit hm _) hown, outcome_ok,
    suspended_withSlot (ne_idle_of_op hy)]
  rfl

/-- One step of INITSEQ and its wait, from a position at which it comes next: four steps. -/
theorem Alone.initStep {k : InitStep} (h : Alone c r x (waitOut c (waitUs (initWait k)) ++ a) true s)
    (hr : FourBit r) (hmay : mayRun c r) (hy : y.op = some .init)
    (hstep : step s = exec (initInstr k) (withSlot y s)) :
    Leads 4 s (Alone c (afterEvents (initStepEvents k) r) { y with pc := .pos (.seqwait k), wait := none } a true) := by
  have hs : FourBit s := by
    obtain ⟨d, hmode, hd⟩ := hr
    exact ⟨d, hmode, h.present hd⟩
  exact h.suspends (y := { y with pc := .pos (.seqwait k) }) hy hmay (hstep.trans (initStep_advances hs hy k))

/-- The schedule of steps of INITSEQ. -/
def stepMoves (c : Nat) (ks : List InitStep) : List Move := ks.flatMap (fun k => waitOut c (waitUs (initWait k)))

/-- The steps `ks` come one after the other after step `k`. -/
def follow : InitStep → List InitStep → Prop
  | _, [] => True
  | k, k' :: ks => nextInitStep k = some k' ∧ follow k' ks

/-- The registers of an INIT in INITSEQ. -/
def seqCtx (cfg : Cfg) (pc : Pc) : Ctx := { initCtx cfg with pc := pc }

/-- The steps after step `k`: four steps of the engine each. -/
theorem Alone.initSteps (ks : List InitStep) :
    ∀ {k : InitStep} {r s : State}, follow k ks →
      Alone c r (seqCtx cfg (.pos (.seqwait k))) (stepMoves c ks ++ rest) true s → FourBit r → mayRun c r →
      Leads (4 * ks.length) s (Alone c (afterEvents (ks.flatMap initStepEvents) r)
        (seqCtx cfg (.pos (.seqwait (ks.getLastD k)))) rest true) := by
  induction ks with
  | nil =>
    intro k r s _ h _ _
    exact .here (by rw [List.flatMap_nil, afterEvents_nil]; exact h)
  | cons k' ks ih =>
    intro k r s hk h hr hmay
    obtain ⟨hnext, hks⟩ := hk
    rw [stepMoves, List.flatMap_cons, List.append_assoc] at h
    have hstep : step s = exec (initInstr k') (withSlot (seqCtx cfg (.pos (.seq k'))) s) := by
      have hpos := (stepRunsTheInstructionOfThePosition .init s
        (h.inSegment (op := .init) rfl (noCut_waitOut c _ _))).2.2.1 k k'
      rw [h.running_slot] at hpos
      exact hpos rfl hnext
    have hfirst := h.initStep (y := seqCtx cfg (.pos (.seq k'))) hr hmay rfl hstep
    rw [List.flatMap_cons, afterEvents_append, List.length_cons, Nat.mul_succ, Nat.add_comm]
    refine hfirst.then fun t ht => ?_
    have hlast : (k' :: ks).getLastD k = ks.getLastD k' := by cases ks <;> rfl
    rw [hlast]
    obtain ⟨d, hmode, hd⟩ := hr
    exact ih hks ht ⟨d, hmode, hd.afterEvents _⟩ hmay

/-- The shared registers after INIT has created its driver. -/
def opened (cfg : Cfg) (r : State) : State :=
  { afterEvents (ownEvents (openList .fourBit)) r with
    driver := some ⟨.fourBit, cfg.width, cfg.height⟩
    own := ownAfter (openList .fourBit) r.own
    lvl := padAfter r.platform.padLevel (openList .fourBit) r.lvl }

theorem fourBit_opened {cfg : Cfg} {r : State} (hown : ∀ p, r.own.get p = false) : FourBit (opened cfg r) :=
  ⟨⟨.fourBit, cfg.width, cfg.height⟩, rfl, rfl, fun p hp =>
    (ownAfter_openList hown .fourBit p).trans (ownedIn_openList hp)⟩

/-- INIT up to step 1 of INITSEQ. -/
theorem Alone.opens (h : Alone c r (initCtx cfg) a true s) (ha : noCut a) (hd : r.driver = none)
    (he : cfg.err = false) (hm : resolveMode cfg.present = some .fourBit)
    (hp : ∀ p ∈ openList .fourBit, pinBit r.platform.invalid p = false ∧ pinBit r.platform.unavail p = false) :
    Leads 1 s (Alone c (opened cfg r) (seqCtx cfg (.pos (.seq .k1))) a true) := by
  have hcur := h.cur rfl
  rw [← h.regs] at hd hp
  have hstep : step s = exec (.init cfg) s := by
    have hpos := (stepRunsTheInstructionOfThePosition .init s (h.inSegment (op := .init) rfl ha)).1
    rw [h.running_slot] at hpos
    exact hpos rfl
  refine Leads.cons (hstep.trans (exec_init_fourBit hd he hm hp))
    (.here ⟨Slots.wf_set h.wf _ _, h.issued, ?_, ?_, h.agenda, h.mid, fun _ => hcur⟩)
  · rw [hcur, Slots.get_set h.wf, if_pos rfl]
    rfl
  · rw [← h.regs, ← hcur]
    rfl

/-- The steps of INITSEQ in order (30_encoding.md R97). -/
def laterSteps : List InitStep := [.k2, .k3, .k4, .k5, .k6, .k7, .k8, .k9, .k10]

theorem initMoves_append (c : Nat) (rest : List Move) :
    initMoves c ++ rest =
      .run c :: (waitOut c (waitUs (initWait .k1)) ++ (stepMoves c laterSteps ++ rest)) := rfl

theorem initSeqEvents_eq : initSeqEvents = (InitStep.k1 :: laterSteps).flatMap initStepEvents := rfl

/-- An INIT in FourBit mode that runs alone, from the registers shared before it to those after it. -/
theorem init_runs (h : Alone c r (initCtx cfg) (initMoves c ++ rest) false s) (hrest : noCut rest)
    (hmay : mayRun c r) (hown : ∀ p, r.own.get p = false) (hd : r.driver = none) (he : cfg.err = false)
    (hm : resolveMode cfg.present = some .fourBit)
    (hp : ∀ p ∈ openList .fourBit, pinBit r.platform.invalid p = false ∧ pinBit r.platform.unavail p = false) :
    Leads 44 s (Alone c (afterEvents [.done .init] (afterEvents initSeqEvents (opened cfg r))) Ctx.idle rest
      false) := by
  have hfour : FourBit (opened cfg r) := fourBit_opened hown
  have hfirst : noCut (waitOut c (waitUs (initWait .k1)) ++ (stepMoves c laterSteps ++ rest)) :=
    noCut_waitOut c _ _
  rw [initMoves_append] at h
  rw [initSeqEvents_eq, List.flatMap_cons, afterEvents_append]
  refine Leads.then (n := 43) (h.picked (op := .init) rfl rfl hmay) fun _ h1 => ?_
  refine Leads.then (n := 42) (h1.opens hfirst hd he hm hp) fun u h2 => ?_
  have hstep : step u = exec (initInstr .k1) (withSlot (seqCtx cfg (.pos (.seq .k1))) u) := by
    have hseg := h2.inSegment (op := .init) rfl hfirst
    have hself : withSlot (seqCtx cfg (.pos (.seq .k1))) u = u := by
      rw [← h2.running_slot, withSlot_self h2.wf hseg.2.2.2]
    rw [hself]
    exact (stepRunsTheInstructionOfThePosition .init u hseg).2.1 .k1 (by rw [h2.running_slot]; rfl)
  refine Leads.then (n := 38) (h2.initStep (y := seqCtx cfg (.pos (.seq .k1))) hfour hmay rfl hstep)
    fun _ h3 => ?_
  obtain ⟨d, hmode, hpresent⟩ := hfour
  refine Leads.then (n := 2) (Alone.initSteps laterSteps (by simp [follow, laterSteps, nextInitStep]) h3
    ⟨d, hmode, hpresent.afterEvents _⟩ hmay) fun v h4 => ?_
  have hend : step v = .next (withSlot (seqCtx cfg (.pos .finish)) v) := by
    have hmoves := (sequencerMovesOn .init v (h4.inSegment (op := .init) rfl hrest)).2.2.2.1
    rw [h4.running_slot] at hmoves
    exact hmoves rfl
  exact (h4.moves hend).then fun _ h5 => h5.finishes (op := .init) rfl rfl hrest

end

/-- What INITSEQ leaves on the pins: the nibble of its last step, 0x6, and `E` and `RS` Low. -/
theorem latchAfter_initSeq (lvl : PerPin Level) :
    (latchAfter initSeqEvents lvl).get .e = .low ∧ (latchAfter initSeqEvents lvl).get .rs = .low ∧
      (latchAfter initSeqEvents lvl).get .d4 = .low ∧ (latchAfter initSeqEvents lvl).get .d5 = .high ∧
      (latchAfter initSeqEvents lvl).get .d6 = .high ∧ (latchAfter initSeqEvents lvl).get .d7 = .low :=
  ⟨rfl, rfl, rfl, rfl, rfl, rfl⟩

/-- Settles O57. -/
theorem initRunsItsWholeSequence : Obligations.InitRunsItsWholeSequence := by
  intro s c cfg rest h hm ha hrest hd hslot he hmode hp
  have halone := alone_of_inv h hm c
  have hmay : mayRun c (shared c s) := mayRun_of_op h (by rw [hslot]) (by simp)
  have hown : ∀ p, (shared c s).own.get p = false := by
    have := h.pins
    rw [hd] at this
    exact this
  rw [hslot, ha] at halone
  obtain ⟨t, hrun, ht⟩ := init_runs halone hrest hmay hown hd he hmode hp
  have hregs := ht.regs
  obtain ⟨h1, h2, h3, h4, h5, h6⟩ :=
    latchAfter_initSeq (padAfter s.platform.padLevel (openList .fourBit) s.lvl)
  have hlvl : t.lvl = latchAfter initSeqEvents (padAfter s.platform.padLevel (openList .fourBit) s.lvl) :=
    (congrArg State.lvl hregs).trans rfl
  rw [← hlvl] at h1 h2 h3 h4 h5 h6
  refine ⟨t, hrun, ?_, ?_, ?_, h1, h2, h3, h4, h5, h6, ht.slot, ht.mid, ht.agenda, ?_, ?_⟩
  · refine (congrArg State.trace hregs).trans ?_
    simp [opened, shared]
  · exact congrArg State.driver hregs
  · intro p
    exact (congrArg (fun r : State => r.own.get p) hregs).trans (ownAfter_openList hown .fourBit p)
  · exact (congrArg State.lock hregs).trans rfl
  · exact (congrArg State.faulted hregs).trans rfl

end Sys2Proof.Proofs.RunAlone
end
